-- ==== Sys2Proof/Word.lean ====
section
/-! DEFINITION. The two widths of the IFP: 32-bit registers and command words (R30, R110) and 8-bit bytes of
buffer memory (R80), with the byte sequences of R9. -/

namespace Sys2Proof

/-- A register or a command word: every register is 32 bits wide (R30), a command is one 32-bit word (R110). -/
abbrev Word := BitVec 32

/-- One byte of buffer memory (R80). -/
abbrev Byte := BitVec 8

/-- A byte sequence: a finite list of bytes (R9). -/
abbrev Bytes := List Byte

end Sys2Proof
end

