-- ==== Sys2Proof/Syntax.lean ====
section
/-! DEFINITION. The eleven commands of the opcode map (R111), one constructor per row of
spec/opcode_table.json. A command has no immediate operand other than VER (R113), and VER picks the row, so the
constructors carry no fields: every other operand comes from the operand registers. -/

namespace Sys2Proof

/-- A command of the IFP (R111). -/
inductive Instr where
  /-- SSDEC, synchsafe decode of ARG0 (R181). -/
  | ssdec
  /-- RESYNC, resynchronize SRC into DST (R183). -/
  | resync
  /-- INFL, inflate SRC into DST to the length in ARG0 (R192). -/
  | infl
  /-- THDR, decode the tag header and the extended header of SRC (R220). -/
  | thdr
  /-- FHDR.V2, decode one v2.2 frame header (R260). -/
  | fhdrV2
  /-- FHDR.V3, decode one v2.3 frame header (R260). -/
  | fhdrV3
  /-- FHDR.V4, decode one v2.4 frame header (R260). -/
  | fhdrV4
  /-- FRAME.V2, decode one v2.2 frame (R280). -/
  | frameV2
  /-- FRAME.V3, decode one v2.3 frame (R280). -/
  | frameV3
  /-- FRAME.V4, decode one v2.4 frame (R280). -/
  | frameV4
  /-- PARSE, read a whole v2 tag (R320). -/
  | parse
  deriving DecidableEq, Repr

end Sys2Proof
end

