-- ==== Sys2Proof/WellFormed.lean ====
section
/-! DEFINITION. Which command words are legal. An instruction term carries no operand, so the syntactic unit
that can be ill formed is the command word, taken as its three fields (R110). The three checks are those of
R112, stated here from the rule's own words and not through the decoder. -/

namespace Sys2Proof

/-- The fields of a command word (R110): OP bits 7:0, VER bits 11:8, RSV bits 31:12. -/
structure CmdFields where
  op  : BitVec 8
  ver : BitVec 4
  rsv : BitVec 20
  deriving DecidableEq, Repr

/-- "OP is in the table of rule R111" (R112, check 1). -/
def CmdFields.opOk (f : CmdFields) : Bool :=
  [0x01#8, 0x02#8, 0x03#8, 0x10#8, 0x20#8, 0x21#8, 0x30#8].contains f.op

/-- VER is allowed for the OP: 2, 3 or 4 for 0x20 and 0x21, 0 for every other (R112, check 2). -/
def CmdFields.verOk (f : CmdFields) : Bool :=
  if [0x20#8, 0x21#8].contains f.op then [2#4, 3#4, 4#4].contains f.ver else f.ver == 0#4

/-- Bits 31:12 are all 0 (R112, check 3). -/
def CmdFields.rsvOk (f : CmdFields) : Bool := f.rsv == 0#20

/-- A command word is legal exactly when it passes the three checks (R112). -/
def CmdFields.wf (f : CmdFields) : Bool := f.opOk && f.verOk && f.rsvOk

/-- The fields of each command's word, one row of the opcode map each (R111). -/
def Instr.fields : Instr → CmdFields
  | .ssdec   => ⟨0x01, 0, 0⟩
  | .resync  => ⟨0x02, 0, 0⟩
  | .infl    => ⟨0x03, 0, 0⟩
  | .thdr    => ⟨0x10, 0, 0⟩
  | .fhdrV2  => ⟨0x20, 2, 0⟩
  | .fhdrV3  => ⟨0x20, 3, 0⟩
  | .fhdrV4  => ⟨0x20, 4, 0⟩
  | .frameV2 => ⟨0x21, 2, 0⟩
  | .frameV3 => ⟨0x21, 3, 0⟩
  | .frameV4 => ⟨0x21, 4, 0⟩
  | .parse   => ⟨0x30, 0, 0⟩

/-- A command is well formed when the fields of its word pass the checks of R112. -/
def Instr.wf (i : Instr) : Bool := i.fields.wf

end Sys2Proof
end

