-- ==== Sys2Proof/Decode.lean ====
section
/-! DEFINITION. The command decoder, total on every 32-bit word, and the encoder, both written from R110 to
R112. A word that is no command is rejected by the name of the first check it fails. -/

namespace Sys2Proof

/-- Why a command word is illegal: the detail names of R112, in the order in which they apply. -/
inductive IllegalCmd where
  /-- OP is not in the opcode map; this includes OP = 0x00. -/
  | badOp
  /-- VER is not allowed for the OP. -/
  | badVer
  /-- Bits 31:12 are not all 0. -/
  | reservedBits
  deriving DecidableEq, Repr

/-- OP, bits 7:0 (R110). -/
def opOf (w : Word) : BitVec 8 := w.extractLsb' 0 8
/-- VER, bits 11:8 (R110). -/
def verOf (w : Word) : BitVec 4 := w.extractLsb' 8 4
/-- RSV, bits 31:12 (R110). -/
def rsvOf (w : Word) : BitVec 20 := w.extractLsb' 12 20

/-- The commands of one operation code, by VER (R111); none where the code is not in the map. -/
def rowsOf (op : BitVec 8) : Option (List (BitVec 4 × Instr)) :=
  match op.toNat with
  | 0x01 => some [(0, .ssdec)]
  | 0x02 => some [(0, .resync)]
  | 0x03 => some [(0, .infl)]
  | 0x10 => some [(0, .thdr)]
  | 0x20 => some [(2, .fhdrV2), (3, .fhdrV3), (4, .fhdrV4)]
  | 0x21 => some [(2, .frameV2), (3, .frameV3), (4, .frameV4)]
  | 0x30 => some [(0, .parse)]
  | _ => none

/-- Decodes a command word. BAD_OP is tested before BAD_VER and that before RESERVED_BITS (R112). -/
def decode (w : Word) : Except IllegalCmd Instr :=
  match rowsOf (opOf w) with
  | none => .error .badOp
  | some rows =>
    match rows.lookup (verOf w) with
    | none => .error .badVer
    | some i => if rsvOf w = 0 then .ok i else .error .reservedBits

/-- The word of a command: OP | VER << 8, the reserved bits 0 (R110, R111). -/
def encode (i : Instr) : Word :=
  match i with
  | .ssdec   => cmdWord 0x01 0
  | .resync  => cmdWord 0x02 0
  | .infl    => cmdWord 0x03 0
  | .thdr    => cmdWord 0x10 0
  | .fhdrV2  => cmdWord 0x20 2
  | .fhdrV3  => cmdWord 0x20 3
  | .fhdrV4  => cmdWord 0x20 4
  | .frameV2 => cmdWord 0x21 2
  | .frameV3 => cmdWord 0x21 3
  | .frameV4 => cmdWord 0x21 4
  | .parse   => cmdWord 0x30 0
where
  /-- RSV = 0 in bits 31:12, VER in bits 11:8, OP in bits 7:0 (R110). -/
  cmdWord (op : BitVec 8) (ver : BitVec 4) : Word := 0#20 ++ ver ++ op

/-- The command that the decoder reads from the table word `w` of `nbits` bits: a command is one 32-bit word
(R110), written to CMD and stored nowhere in memory (R99), so no byte order enters. -/
def decodeTableWord (nbits w : Nat) : Option Instr :=
  (decode (BitVec.ofNat 32 (w % 2 ^ nbits))).toOption

end Sys2Proof
end

