-- ==== Sys2Proof/Config.lean ====
section
/-! DEFINITION. What an implementation fixes: the parameters of R6 (MEM_SIZE through the constant register
MEMLAST, the deflate engine, the unaudited literals U3 to U5), the bit positions K1 to K5 that the spec supplies
from general knowledge, and the free values of R83 and R391. A constant with no body has no value anything here
can see, so what is proved holds for every value of it. -/

namespace Sys2Proof.Config

/-! ## Parameters marked OPEN (R6) -/

/-- MEM_SIZE − 1, the constant the register MEMLAST reads (R41). MEM_SIZE is OPEN with 1 ≤ MEM_SIZE ≤ 2^32
(R6, D3), and MEM_SIZE − 1 ranges over exactly the 32-bit words. -/
opaque memLast : Word

/-- The deflate engine behind the stub, `Inflate : Bytes → Option Bytes` (R190, D4): a total function of its
input bytes alone, of which nothing else is assumed. -/
opaque inflate : Bytes → Option Bytes

/-! ## Free values -/

/-- The draws of R83, R96(a) and R391: an unconstrained byte for each value of the draw counter of State, so
that every read of a never-written byte is an independent draw. -/
opaque freeByte : Nat → Byte

/-- An unconstrained word for each value of the draw counter: what an address register holds when the address
to be recorded is 2^32, which no 32-bit register holds and for which the spec states no value (log entry 8). -/
opaque freeWord : Nat → Word

/-! ## Literals taken from the source, unaudited (R6, U3 to U5) -/

/-- FRAME_SIZE_CEIL (R6, U3): declared frame sizes at or above this are corrupt. -/
def frameSizeCeil : Nat := 0x00100000

/-- EXT_BLOCK_MAX (R6, U4): the largest v2.4 extended-header block length. -/
def extBlockMax : Nat := 128

/-- V23_CRC_EXT_SIZE (R6, U5): the v2.3 extended-header size reported when the CRC flag is set. -/
def v23CrcExtSize : Nat := 10

/-- DESC_SIZE (R6): bytes per frame descriptor. -/
def descSize : Nat := 64

/-- REG_SPACE (R6): bytes of register address space. -/
def regSpace : Nat := 256

/-! ## Bit positions supplied from general knowledge (K1 to K5)

PRESUMED: the spec marks each of them as the standard ID3v2 assignment and not the source's (D33). -/

/-- Tag FLAGS: unsynchronization, mask 0x80 (R121, K1). -/
def tagUnsyncBit : Nat := 7
/-- Tag FLAGS: extended header present, mask 0x40 (R121, K1). -/
def tagExtBit : Nat := 6
/-- Tag FLAGS: experimental, mask 0x20 (R121, K1). Recorded in TH_INFO.FLAGS only. -/
def tagExperimentalBit : Nat := 5
/-- Tag FLAGS: footer present, mask 0x10 (R121, K1). Recorded in TH_INFO.FLAGS only (R223). -/
def tagFooterBit : Nat := 4
/-- v2.3 extended-header flags: CRC present, mask 0x8000 (R122, K2). -/
def v23ExtCrcBit : Nat := 15
/-- v2.4 extended-header flag byte: is-update, mask 0x40 (R123, K3). -/
def v24ExtUpdateBit : Nat := 6
/-- v2.4 extended-header flag byte: has-CRC, mask 0x20 (R123, K3). -/
def v24ExtCrcBit : Nat := 5
/-- v2.4 extended-header flag byte: has-tag-restrictions, mask 0x10 (R123, K3). -/
def v24ExtRestrictBit : Nat := 4

/-- v2.3 status flags: tag-alter-preserve, mask 0x80 (R125, K4). -/
def v23TapBit : Nat := 7
/-- v2.3 status flags: file-alter-preserve, mask 0x40 (R125, K4). -/
def v23FapBit : Nat := 6
/-- v2.3 status flags: read-only, mask 0x20 (R125, K4). -/
def v23RoBit : Nat := 5
/-- v2.3 format flags: compressed, mask 0x80 (R125, K4). -/
def v23CmpBit : Nat := 7
/-- v2.3 format flags: encrypted, mask 0x40 (R125, K4). -/
def v23EncBit : Nat := 6
/-- v2.3 format flags: grouped, mask 0x20 (R125, K4). -/
def v23GrpBit : Nat := 5

/-- v2.4 status flags: tag-alter-preserve, mask 0x40 (R126, K5). -/
def v24TapBit : Nat := 6
/-- v2.4 status flags: file-alter-preserve, mask 0x20 (R126, K5). -/
def v24FapBit : Nat := 5
/-- v2.4 status flags: read-only, mask 0x10 (R126, K5). -/
def v24RoBit : Nat := 4
/-- v2.4 format flags: grouped, mask 0x40 (R126, K5). -/
def v24GrpBit : Nat := 6
/-- v2.4 format flags: compressed, mask 0x08 (R126, K5). -/
def v24CmpBit : Nat := 3
/-- v2.4 format flags: encrypted, mask 0x04 (R126, K5). -/
def v24EncBit : Nat := 2
/-- v2.4 format flags: unsynchronized, mask 0x02 (R126, K5). -/
def v24UnsBit : Nat := 1
/-- v2.4 format flags: data-length indicator, mask 0x01 (R126, K5). -/
def v24DliBit : Nat := 0

end Sys2Proof.Config
end

