-- ==== Sys2Proof/Machine/State.lean ====
section
/-! DEFINITION. Everything the spec gives the machine: the register file of R31 by groups, the buffer memory of
R80, and the engine's hidden state of R56; beside them the model's own fields (the draw counter, the read-data
latch, the agenda of moves that are still to come). State is plain data. -/

namespace Sys2Proof.Machine

open Sys2Proof (Word Byte Bytes)

/-! ## Names of codes -/

/-- The three frame-header versions, the VER field of FHDR and FRAME (R110) and the tag versions (R2). -/
inductive FrameVer where
  | v2 | v3 | v4
  deriving DecidableEq, Repr

/-- STATUS.ERR (R350). -/
inductive ErrCode where
  | noError | notATag | invalidVersion | corruptHeader | corruptFrame
  | truncated | capacity | range | overlap | illegalCmd
  deriving DecidableEq, Repr

/-- STATUS.STOP (R356). -/
inductive StopReason where
  | noStop | frame | regionEnd | padding | corrupt | truncated | capacity
  deriving DecidableEq, Repr

/-- ERR_INFO.DETAIL (R352). -/
inductive Detail where
  | noDetail | marker | version | extBlockLen | dataSizeNeg | shortHeader | shortExt | shortRegion
  | shortFrameHeader | sizeSanity | shortPayload | noDli | inflateFail | inflateLen | textShort | commentShort
  | dstFull | descFull | payFull | badOp | badVer | reservedBits
  | rangeSrc | rangeDst | rangeDesc | rangePay | overlapD
  deriving DecidableEq, Repr

/-! ## The register groups of R31 -/

/-- STATUS (R33), but for IRQ, which is read from IE and DONE. BUSY is also the hidden flag `pending` of R56,
which is equal to it. -/
structure Status where
  busy : Bool
  done : Bool
  wign : Bool
  err  : ErrCode
  stop : StopReason
  deriving DecidableEq, Repr

/-- The operand registers, offsets 0x00C to 0x02C (R35, R36). -/
structure OperandRegs where
  arg0     : Word
  srcBase  : Word
  srcLen   : Word
  dstBase  : Word
  dstCap   : Word
  descBase : Word
  descCap  : Word
  payBase  : Word
  payCap   : Word
  deriving DecidableEq, Repr

/-- The result registers, offsets 0x030 to 0x048 (R37 to R40); ERR_INFO is held as its two fields. -/
structure ResultRegs where
  res0   : Word
  res1   : Word
  res2   : Word
  res3   : Word
  errOff : Word
  errId  : Word
  detail : Detail
  region : Bool
  deriving DecidableEq, Repr

/-- A STAT register of the CRC tracker, the is-update or the tag-restrictions block (R47, R48): bit 0 PRESENT,
bits 15:8 LEN. -/
structure BlockStat where
  present : Bool
  len     : Byte
  deriving DecidableEq, Repr

/-- The header group, offsets 0x050 to 0x094 (R42 to R48), TH_INFO and EXT_INFO held as their fields. -/
structure HeaderRegs where
  ver         : Byte
  rev         : Byte
  flags       : Byte
  hdrOk       : Bool
  thSizeRaw   : Word
  thSize      : Word
  dataSize    : Word
  hdrEnd      : Word
  extFlagged  : Bool
  extOk       : Bool
  nfb         : Byte
  extField    : Word
  extSize     : Word
  extConsumed : Word
  extFlags    : Word
  extPad      : Word
  crcStat     : BlockStat
  crcAddr     : Word
  crcWord     : Word
  updStat     : BlockStat
  updAddr     : Word
  rstrStat    : BlockStat
  rstrAddr    : Word
  deriving DecidableEq, Repr

/-- Every operand register 0, the reset value (R392). -/
def OperandRegs.zero : OperandRegs := ⟨0, 0, 0, 0, 0, 0, 0, 0, 0⟩

/-- Every result register 0: the reset value (R392), and what a completion starts from (R52, step 1). -/
def ResultRegs.zero : ResultRegs := ⟨0, 0, 0, 0, 0, 0, .noDetail, false⟩

/-- Every register of the header group 0: the reset value (R392), and what THDR and PARSE start from (R221). -/
def HeaderRegs.zero : HeaderRegs :=
  { ver := 0, rev := 0, flags := 0, hdrOk := false, thSizeRaw := 0, thSize := 0, dataSize := 0, hdrEnd := 0,
    extFlagged := false, extOk := false, nfb := 0, extField := 0, extSize := 0, extConsumed := 0, extFlags := 0,
    extPad := 0, crcStat := ⟨false, 0⟩, crcAddr := 0, crcWord := 0, updStat := ⟨false, 0⟩, updAddr := 0,
    rstrStat := ⟨false, 0⟩, rstrAddr := 0 }

/-- STATUS after reset: every field 0 (R392). -/
def Status.zero : Status := ⟨false, false, false, .noError, .noStop⟩

/-! ## Memory, moves, state -/

/-- The written bytes of buffer memory as (address, byte) pairs, addresses strictly rising. An address that is
not listed has never been written since power-on: it has no value, and reading it is a draw (R83). -/
abbrev Memory := List Host.Cell

/-- What happens next at the IFP's boundary. The two agents of R400 are the engine, with its one move, and the
host, whose moves are register reads and writes and byte reads and writes of buffer memory; `waitDone` is the
host's WAIT statement (R160) and `powerOn` the power-on of R381 and R390. -/
inductive Move where
  /-- The engine's chance to take its step (R400). -/
  | engine
  /-- A host read of the register at this offset. -/
  | readReg (off : Nat)
  /-- A host write of this word to the register at this offset. -/
  | writeReg (off : Nat) (v : Word)
  /-- A host read of the byte at this address. -/
  | readMem (addr : Nat)
  /-- A host write of this byte at this address. -/
  | writeMem (addr : Nat) (b : Byte)
  /-- WAIT: the host reads STATUS until DONE = 1 (R160). -/
  | waitDone
  /-- Power off and on again (R381, R390). -/
  | powerOn
  deriving DecidableEq, Repr

/-- The machine. `memLast` is the register MEMLAST, which no step changes (R41). The model's own fields are
`draws` (how many free values have been drawn), `rdata` (the value the last host read returned) and `agenda`
(the moves still to come, the first one next). -/
structure State where
  ie      : Bool
  status  : Status
  cmd     : Word
  opr     : OperandRegs
  res     : ResultRegs
  memLast : Word
  hdr     : HeaderRegs
  mem     : Memory
  draws   : Nat
  rdata   : Word
  agenda  : List Move
  deriving DecidableEq, Repr

/-- Power-on reset (R390, R392): every register at its reset value, MEMLAST at MEM_SIZE − 1, no byte of buffer
memory written, the engine idle. The model's own fields start at 0 and empty (DESIGN CHOICE, log entries 2, 5
and 6). -/
def State.reset : State :=
  { ie := false, status := Status.zero, cmd := 0, opr := OperandRegs.zero, res := ResultRegs.zero,
    memLast := Config.memLast, hdr := HeaderRegs.zero, mem := [], draws := 0, rdata := 0, agenda := [] }

/-! ## Why a step can stop -/

/-- The faults of the model. The IFP itself has none: every command completes (R401), and no step of any state
ends in one of these. They keep two operations total. -/
inductive Fault where
  /-- Raised by the engine's byte read and byte write at an address that is not below MEM_SIZE, which the spec
  says does not exist (R80). Safe: R82 says that no engine access ever leaves [0, MEM_SIZE). -/
  | outsideMemory (addr : Nat)
  /-- Raised by PARSE's frame loop after ⌊len(y)/6⌋ + 1 rounds. Safe: R325 says that it never runs longer. -/
  | loopBound
  deriving DecidableEq, Repr

/-- The refusals of the model: host actions for which the spec gives the model no move (R406). -/
inductive Refusal where
  /-- Raised by `exec` for an instruction that has no meaning yet. Safe. No arm of this model answers it. -/
  | notModelled (mnemonic : String)
  /-- Raised by a host register access that is not to a word-aligned offset 0x000 to 0x0FC (R50, U10). Safe:
  "no rule of this spec says what the hardware then does" (R406). -/
  | hostRegisterAccess (off : Nat)
  /-- Raised by a host access to buffer memory at an address ≥ MEM_SIZE (R81, U11). Safe, as above. -/
  | hostMemoryAddress (addr : Nat)
  /-- Raised by a host write, while BUSY = 1, to a byte of a range the running command uses (R96(b), U9).
  Safe, as above. -/
  | hostWriteWhileBusy (addr : Nat)
  deriving DecidableEq, Repr

/-- What one step of this machine answers. -/
abbrev Result := Host.Outcome State Fault Refusal

end Sys2Proof.Machine
end

