-- ==== Sys2Proof/Machine/Memory.lean ====
section
/-! DEFINITION. Buffer memory as the list of written bytes (R80 to R83): reading one address, writing one
address, and the canonical form. -/

namespace Sys2Proof.Machine

open Sys2Proof (Word Byte Bytes)

/-- The byte at an address, or none where nothing has been written since power-on (R83). -/
def memGet : Memory → Nat → Option Byte
  | [], _ => none
  | (k, v) :: rest, a => if k = a then some v else memGet rest a

/-- Writes one byte, keeping the addresses strictly rising. Every listed byte differs from what an unlisted
address holds, which is no value at all, so a write never removes an entry. -/
def memSet : Memory → Nat → Byte → Memory
  | [], a, b => [(a, b)]
  | (k, v) :: rest, a, b =>
    if a < k then (a, b) :: (k, v) :: rest
    else if a = k then (a, b) :: rest
    else (k, v) :: memSet rest a b

/-- Writes bytes at consecutive addresses, the first at `a` (R82). -/
def memSetRange : Memory → Nat → Bytes → Memory
  | m, _, [] => m
  | m, a, b :: bs => memSetRange (memSet m a b) (a + 1) bs

/-- The bytes at `n` consecutive addresses from `a`, where all of them have been written. -/
def memGetRange (m : Memory) (a : Nat) : Nat → Option Bytes
  | 0 => some []
  | n + 1 =>
    match memGet m a, memGetRange m (a + 1) n with
    | some b, some bs => some (b :: bs)
    | _, _ => none

/-- The canonical form: addresses strictly rising. -/
def Memory.wf (m : Memory) : Bool := decide (m.Pairwise (fun c d => c.1 < d.1))

/-- Every listed address is below `size`: memory has no byte at or above MEM_SIZE (R80). -/
def Memory.within (size : Nat) (m : Memory) : Bool := m.all (fun c => decide (c.1 < size))

end Sys2Proof.Machine
end

