-- ==== Sys2Proof/Machine/Bits.lean ====
section
/-! DEFINITION. Byte order and bit fields: the primitives of R8 to R10 and the synchsafe conversions of R180 and
R15. -/

namespace Sys2Proof.Machine

open Sys2Proof (Word Byte Bytes)

/-- The unsigned integer a byte sequence holds, big-endian, the first byte most significant (R10, R84): `be16`,
`be24` and `be32` at lengths 2, 3 and 4, and 0 for the empty sequence. -/
def be (b : Bytes) : Nat := b.foldl (fun acc x => acc * 256 + x.toNat) 0

/-- `be32` of a byte sequence as the word a register takes. -/
def beWord (b : Bytes) : Word := BitVec.ofNat 32 (be b)

/-- `bytes_be(v, n)`: the n-byte big-endian sequence of v mod 2^(8n) (R10). -/
def bytesBe (v : Nat) : Nat → Bytes
  | 0 => []
  | n + 1 => BitVec.ofNat 8 (v / 256 ^ n) :: bytesBe v n

/-- The byte at an index of a sequence that is known to be long enough (R9). -/
def byteAt (b : Bytes) (i : Nat) : Byte := b.getD i 0

/-- The slice `b[i..j)` (R9). -/
def slice (b : Bytes) (i j : Nat) : Bytes := (b.drop i).take (j - i)

/-- `allzero(b)`: every byte is 0x00; true of the empty sequence (R9). -/
def allZero (b : Bytes) : Bool := b.all (· == 0)

/-- `fromSynchsafe` (R180): the low 7 bits of each byte, packed; bits 31, 23, 15 and 7 are ignored. -/
def fromSynchsafe (w : Word) : Word :=
  ((w.extractLsb' 24 7).zeroExtend 32 <<< 21) ||| ((w.extractLsb' 16 7).zeroExtend 32 <<< 14)
    ||| ((w.extractLsb' 8 7).zeroExtend 32 <<< 7) ||| (w.extractLsb' 0 7).zeroExtend 32

/-- The value of a synchsafe field of four bytes (R133). -/
def synchsafe (b : Bytes) : Nat := (fromSynchsafe (beWord b)).toNat

/-- `toSynchsafe`, the reference encoder of R15; it is no command and only states the synchsafe law. -/
def toSynchsafe (v : Word) : Word :=
  ((v.extractLsb' 21 7).zeroExtend 32 <<< 24) ||| ((v.extractLsb' 14 7).zeroExtend 32 <<< 16)
    ||| ((v.extractLsb' 7 7).zeroExtend 32 <<< 8) ||| (v.extractLsb' 0 7).zeroExtend 32

/-- "a byte whose top 3 bits are all set", or 0x00: what makes a preceding 0xFF need stuffing (R16, R182). -/
def triggers (z : Byte) : Bool := z == 0x00 || (z &&& 0xE0) == 0xE0

/-- `Resynchronize` (R182): drops the 0x00 between 0xFF and a byte that triggers stuffing. The scan reads the
input: the byte after the dropped one is examined as an ordinary byte. -/
def resynchronize : Bytes → Bytes
  | x :: y :: z :: rest =>
    if x = 0xFF ∧ y = 0x00 ∧ triggers z = true then x :: resynchronize (z :: rest)
    else x :: resynchronize (y :: z :: rest)
  | xs => xs

/-- `Unsynchronize`, the reference byte-stuffer of R16; it is no command and only states the unsync law. -/
def unsynchronize : Bytes → Bytes
  | x :: y :: rest =>
    if x = 0xFF ∧ triggers y = true then x :: 0x00 :: unsynchronize (y :: rest)
    else x :: unsynchronize (y :: rest)
  | xs => xs

end Sys2Proof.Machine
end

