-- ==== Sys2Proof/Machine/Flags.lean ====
section
/-! DEFINITION. The numbers behind the names and the words behind the fields: the codes of R350, R352 and R356,
the STATUS, CTRL, ERR_INFO, TH_INFO, EXT_INFO and STAT words, IRQ (R370), and the normalised frame flags NFLAGS
with the per-version flag dispatch (R129, R267). -/

namespace Sys2Proof.Machine

open Sys2Proof (Word Byte Bytes)

/-- The number of an error (R350). -/
def errNum : ErrCode → Nat
  | .noError => 0
  | .notATag => 1
  | .invalidVersion => 2
  | .corruptHeader => 3
  | .corruptFrame => 4
  | .truncated => 5
  | .capacity => 6
  | .range => 7
  | .overlap => 8
  | .illegalCmd => 9

/-- The number of a stop reason (R356). -/
def stopNum : StopReason → Nat
  | .noStop => 0
  | .frame => 1
  | .regionEnd => 2
  | .padding => 3
  | .corrupt => 4
  | .truncated => 5
  | .capacity => 6

/-- The number of a detail (R352). -/
def detailNum : Detail → Nat
  | .noDetail => 0
  | .marker => 1
  | .version => 2
  | .extBlockLen => 3
  | .dataSizeNeg => 4
  | .shortHeader => 5
  | .shortExt => 6
  | .shortRegion => 7
  | .shortFrameHeader => 8
  | .sizeSanity => 9
  | .shortPayload => 10
  | .noDli => 11
  | .inflateFail => 12
  | .inflateLen => 13
  | .textShort => 14
  | .commentShort => 15
  | .dstFull => 16
  | .descFull => 17
  | .payFull => 18
  | .badOp => 19
  | .badVer => 20
  | .reservedBits => 21
  | .rangeSrc => 22
  | .rangeDst => 23
  | .rangeDesc => 24
  | .rangePay => 25
  | .overlapD => 26

/-- The number of a frame-header version: 2, 3 or 4 (R110). -/
def verNum : FrameVer → Nat
  | .v2 => 2
  | .v3 => 3
  | .v4 => 4

/-- The version a tag's version byte names, none unless it is 2, 3 or 4 (R120). -/
def verOfByte (b : Byte) : Option FrameVer :=
  match b.toNat with
  | 2 => some .v2
  | 3 => some .v3
  | 4 => some .v4
  | _ => none

/-- The interrupt output: `IRQ = CTRL.IE & STATUS.DONE` (R370). -/
def irq (s : State) : Bool := s.ie && s.status.done

/-- CTRL as read: bit 0 IE; SRST and the reserved bits read 0 (R32). -/
def ctrlWord (s : State) : Word := BitVec.ofNat 32 s.ie.toNat

/-- STATUS as read (R33): bit 0 BUSY, bit 1 DONE, bit 2 WIGN, bit 3 IRQ, bits 15:8 ERR, bits 19:16 STOP, the
rest 0. -/
def statusWord (s : State) : Word :=
  BitVec.ofNat 32 (s.status.busy.toNat + 2 * s.status.done.toNat + 4 * s.status.wign.toNat + 8 * (irq s).toNat
    + 0x100 * errNum s.status.err + 0x10000 * stopNum s.status.stop)

/-- ERR_INFO as read (R40): bits 7:0 DETAIL, bit 8 REGION. -/
def errInfoWord (r : ResultRegs) : Word := BitVec.ofNat 32 (detailNum r.detail + 0x100 * r.region.toNat)

/-- TH_INFO as read (R42): bits 7:0 VER, 15:8 REV, 23:16 FLAGS, bit 24 HDR_OK. -/
def thInfoWord (h : HeaderRegs) : Word :=
  BitVec.ofNat 32 (h.ver.toNat + 0x100 * h.rev.toNat + 0x10000 * h.flags.toNat + 0x1000000 * h.hdrOk.toNat)

/-- EXT_INFO as read (R44): bit 0 FLAGGED, bit 1 OK, bits 15:8 NFB. -/
def extInfoWord (h : HeaderRegs) : Word :=
  BitVec.ofNat 32 (h.extFlagged.toNat + 2 * h.extOk.toNat + 0x100 * h.nfb.toNat)

/-- A STAT register as read (R47, R48): bit 0 PRESENT, bits 15:8 LEN. -/
def statWord (b : BlockStat) : Word := BitVec.ofNat 32 (b.present.toNat + 0x100 * b.len.toNat)

/-- The normalised frame flags NFLAGS (R129), bit 7 first: tag-alter-preserve, file-alter-preserve, read-only,
grouped, compressed, encrypted, unsynchronized, data-length indicator. -/
structure NFlags where
  tap : Bool
  fap : Bool
  ro  : Bool
  grp : Bool
  cmp : Bool
  enc : Bool
  uns : Bool
  dli : Bool
  deriving DecidableEq, Repr

/-- NFLAGS as the byte of the descriptor (R129). -/
def nflagsByte (n : NFlags) : Byte :=
  BitVec.ofNat 8 (128 * n.tap.toNat + 64 * n.fap.toNat + 32 * n.ro.toNat + 16 * n.grp.toNat + 8 * n.cmp.toNat
    + 4 * n.enc.toNat + 2 * n.uns.toNat + n.dli.toNat)

/-- The flag dispatch (R267, R129): NFLAGS from the raw flag bytes of a version's frame header. v2.2 has none. -/
def flagDispatch (ver : FrameVer) (f1 f2 : Byte) : NFlags :=
  match ver with
  | .v2 => ⟨false, false, false, false, false, false, false, false⟩
  | .v3 =>
    { tap := f1.getLsbD Config.v23TapBit, fap := f1.getLsbD Config.v23FapBit, ro := f1.getLsbD Config.v23RoBit,
      grp := f2.getLsbD Config.v23GrpBit, cmp := f2.getLsbD Config.v23CmpBit, enc := f2.getLsbD Config.v23EncBit,
      uns := false, dli := false }
  | .v4 =>
    { tap := f1.getLsbD Config.v24TapBit, fap := f1.getLsbD Config.v24FapBit, ro := f1.getLsbD Config.v24RoBit,
      grp := f2.getLsbD Config.v24GrpBit, cmp := f2.getLsbD Config.v24CmpBit, enc := f2.getLsbD Config.v24EncBit,
      uns := f2.getLsbD Config.v24UnsBit, dli := f2.getLsbD Config.v24DliBit }

end Sys2Proof.Machine
end

