-- ==== Sys2Proof/Machine/Operands.lean ====
section
/-! DEFINITION. The operand forms: the four ranges of buffer memory the operand registers describe (R36), which
of them each command reads and writes (R87), and the range and overlap checks (R86, R88). -/

namespace Sys2Proof.Machine

open Sys2Proof (Word Byte Bytes Instr)

/-- The four ranges (R36). -/
inductive RangeName where
  | src | dst | desc | pay
  deriving DecidableEq, Repr

/-- A range [base, base + len), in unbounded arithmetic (R86). -/
structure Span where
  base : Nat
  len  : Nat
  deriving DecidableEq, Repr

/-- MEM_SIZE, from the register that reads MEM_SIZE − 1 (R41). -/
def memSize (s : State) : Nat := s.memLast.toNat + 1

/-- The range a name stands for; DESC_CAP counts 64-byte entries (R36). -/
def spanOf (o : OperandRegs) : RangeName → Span
  | .src  => ⟨o.srcBase.toNat, o.srcLen.toNat⟩
  | .dst  => ⟨o.dstBase.toNat, o.dstCap.toNat⟩
  | .desc => ⟨o.descBase.toNat, Config.descSize * o.descCap.toNat⟩
  | .pay  => ⟨o.payBase.toNat, o.payCap.toNat⟩

/-- The address lies in the range. -/
def spanHas (r : Span) (a : Nat) : Bool := decide (r.base ≤ a ∧ a < r.base + r.len)

/-- A range is valid when it is empty or ends at or below MEM_SIZE (R86). -/
def spanValid (ms : Nat) (r : Span) : Bool := r.len == 0 || decide (r.base + r.len ≤ ms)

/-- Two ranges overlap when both are non-empty and they share an address (R88). -/
def spansOverlap (r t : Span) : Bool :=
  r.len != 0 && t.len != 0 && decide (r.base < t.base + t.len ∧ t.base < r.base + r.len)

/-- The ranges a command writes (R87). -/
def rangesWritten : Instr → List RangeName
  | .ssdec => []
  | .resync => [.dst]
  | .infl => [.dst]
  | .thdr => []
  | .fhdrV2 => [.desc]
  | .fhdrV3 => [.desc]
  | .fhdrV4 => [.desc]
  | .frameV2 => [.desc, .pay]
  | .frameV3 => [.desc, .pay]
  | .frameV4 => [.desc, .pay]
  | .parse => [.dst, .desc, .pay]

/-- The ranges a command uses, reading or writing, in the order SRC, DST, DESC, PAY (R87). -/
def rangesUsed : Instr → List RangeName
  | .ssdec => []
  | .resync => [.src, .dst]
  | .infl => [.src, .dst]
  | .thdr => [.src]
  | .fhdrV2 => [.src, .desc]
  | .fhdrV3 => [.src, .desc]
  | .fhdrV4 => [.src, .desc]
  | .frameV2 => [.src, .desc, .pay]
  | .frameV3 => [.src, .desc, .pay]
  | .frameV4 => [.src, .desc, .pay]
  | .parse => [.src, .dst, .desc, .pay]

/-- The detail of an invalid range (R86). -/
def rangeDetail : RangeName → Detail
  | .src => .rangeSrc
  | .dst => .rangeDst
  | .desc => .rangeDesc
  | .pay => .rangePay

/-- The pairs of ranges in the order in which overlap is tested (R88). -/
def overlapPairs : List (RangeName × RangeName) :=
  [(.src, .dst), (.src, .desc), (.src, .pay), (.dst, .desc), (.dst, .pay), (.desc, .pay)]

/-- The first used range that is invalid, in the order SRC, DST, DESC, PAY (R86). -/
def firstInvalid (ms : Nat) (o : OperandRegs) (uses : List RangeName) : Option RangeName :=
  [RangeName.src, .dst, .desc, .pay].find? (fun x => uses.contains x && !spanValid ms (spanOf o x))

/-- Some two used ranges overlap (R88): every pair raises the same error, so the first that does is as good as
any. -/
def someOverlap (o : OperandRegs) (uses : List RangeName) : Bool :=
  overlapPairs.any (fun q => uses.contains q.1 && uses.contains q.2 && spansOverlap (spanOf o q.1) (spanOf o q.2))

/-- What the range and overlap checks of the prologue raise, none where the command may go on (R360). -/
def rangeError (ms : Nat) (o : OperandRegs) (uses : List RangeName) : Option (ErrCode × Detail) :=
  match firstInvalid ms o uses with
  | some x => some (.range, rangeDetail x)
  | none => if someOverlap o uses then some (.overlap, .overlapD) else none

/-- The address lies in buffer memory and in one of these ranges. -/
def inRanges (s : State) (names : List RangeName) (a : Nat) : Bool :=
  decide (a < memSize s) && names.any (fun x => spanHas (spanOf s.opr x) a)

end Sys2Proof.Machine
end

