-- ==== Sys2Proof/Machine/Ops.lean ====
section
/-! DEFINITION. The shared operations of the engine and of command control: a running command's reads, writes
and register writes (R10, R11, R82), raising an error and completing (R361, R52: the IFP's only exception entry),
the return from one (R364), the command prologue (R360), acceptance (R34) and reset (R390, R391). -/

namespace Sys2Proof.Machine

open Sys2Proof (Word Byte Bytes Instr)

/-! ## A running command -/

/-- What a running command has written so far: its memory writes take effect at once and in order (R93), its
register writes are held here until the completion update (R11, R52). The result registers, ERR and STOP start
at 0 (R52, step 1); the header group starts as the registers hold it, since only THDR and PARSE write it. -/
structure Run where
  mem   : Memory
  draws : Nat
  res   : ResultRegs
  err   : ErrCode
  stop  : StopReason
  hdr   : HeaderRegs
  deriving DecidableEq, Repr

/-- How a command's pseudocode ends before its last line. -/
inductive Ending where
  /-- A `raise`: the command ends with an error, what it wrote before stands (R361). -/
  | raised
  /-- A fault of the model, which no command reaches. -/
  | stuck (f : Fault)
  deriving DecidableEq, Repr

/-- Pseudocode of a command: it threads what has been written, and what was written before a `raise` stands. -/
abbrev Eng := EStateM Ending Run

/-- A command at its first line, in the state that accepted it. -/
def startRun (s : State) : Run :=
  { mem := s.mem, draws := s.draws, res := ResultRegs.zero, err := .noError, stop := .noStop, hdr := s.hdr }

/-- Changes what the command has written so far. -/
def modifyRun (f : Run → Run) : Eng Unit := fun r => .ok () (f r)

/-- Ends the command in a fault of the model. -/
def stuckAt {α : Type} (f : Fault) : Eng α := fun r => .error (.stuck f) r

/-! ## Memory (R82, R83) -/

/-- One byte read by the engine. A byte that has never been written is a draw, a fresh one at every read. -/
def readByte (ms a : Nat) : Eng Byte := fun r =>
  if a < ms then
    match memGet r.mem a with
    | some b => .ok b r
    | none => .ok (Config.freeByte r.draws) { r with draws := r.draws + 1 }
  else .error (.stuck (.outsideMemory a)) r

/-- `MemRead(addr, n)`: n byte reads at addr, addr + 1, …, in that order (R82). -/
def readBytes (ms : Nat) : Nat → Nat → Eng Bytes
  | _, 0 => pure []
  | a, n + 1 => do
    let b ← readByte ms a
    let bs ← readBytes ms (a + 1) n
    pure (b :: bs)

/-- One byte written by the engine. -/
def writeByte (ms a : Nat) (b : Byte) : Eng Unit := fun r =>
  if a < ms then .ok () { r with mem := memSet r.mem a b } else .error (.stuck (.outsideMemory a)) r

/-- `MemWrite(addr, len(v), v)`: byte writes of v at addr, addr + 1, …, in that order (R82). -/
def writeBytes (ms : Nat) : Nat → Bytes → Eng Unit
  | _, [] => pure ()
  | a, b :: bs => do
    writeByte ms a b
    writeBytes ms (a + 1) bs

/-! ## Register writes of a command -/

/-- RES0 <- n. -/
def putRes0 (n : Nat) : Eng Unit := modifyRun fun r => { r with res := { r.res with res0 := BitVec.ofNat 32 n } }
/-- RES1 <- n. -/
def putRes1 (n : Nat) : Eng Unit := modifyRun fun r => { r with res := { r.res with res1 := BitVec.ofNat 32 n } }
/-- RES2 <- n. -/
def putRes2 (n : Nat) : Eng Unit := modifyRun fun r => { r with res := { r.res with res2 := BitVec.ofNat 32 n } }
/-- RES3 <- n. -/
def putRes3 (n : Nat) : Eng Unit := modifyRun fun r => { r with res := { r.res with res3 := BitVec.ofNat 32 n } }
/-- STATUS.STOP <- c (R356). -/
def putStop (c : StopReason) : Eng Unit := modifyRun fun r => { r with stop := c }
/-- ERR_ID <- w (R39). -/
def putErrId (w : Word) : Eng Unit := modifyRun fun r => { r with res := { r.res with errId := w } }
/-- ERR_OFF <- n (R38). -/
def putErrOff (n : Nat) : Eng Unit := modifyRun fun r => { r with res := { r.res with errOff := BitVec.ofNat 32 n } }
/-- ERR_INFO.DETAIL <- d (R40). -/
def putDetail (d : Detail) : Eng Unit := modifyRun fun r => { r with res := { r.res with detail := d } }
/-- ERR_INFO.REGION <- 1: ERR_OFF is relative to DST_BASE (R40). -/
def putRegion : Eng Unit := modifyRun fun r => { r with res := { r.res with region := true } }
/-- Writes registers of the header group (R42 to R48). -/
def putHdr (f : HeaderRegs → HeaderRegs) : Eng Unit := modifyRun fun r => { r with hdr := f r.hdr }

/-- An address as a 32-bit register takes it. The one address that does not fit is 2^32, just past a memory of
2^32 bytes; the spec states no value for it, and a free word is drawn (DESIGN CHOICE, log entry 8). -/
def addrWord (a : Nat) : Eng Word := fun r =>
  if a < 2 ^ 32 then .ok (BitVec.ofNat 32 a) r
  else .ok (Config.freeWord r.draws) { r with draws := r.draws + 1 }

/-! ## Errors and completion: the IFP's exception entry and its return -/

/-- `raise E(d, off)`: ends the command with the error, its detail and its offset (R10, R361). What the command
wrote before stands, registers and memory alike. -/
def raise {α : Type} (e : ErrCode) (d : Detail) (off : Nat) : Eng α := fun r =>
  .error .raised { r with err := e, res := { r.res with detail := d, errOff := BitVec.ofNat 32 off } }

/-- The completion update (R52): results, error, stop reason and header group commit together, BUSY falls and
DONE rises. It changes no mode, uses no stack and transfers control nowhere (R363). -/
def complete (s : State) (r : Run) : State :=
  { s with
    mem := r.mem, draws := r.draws, res := r.res, hdr := r.hdr,
    status := { s.status with busy := false, done := true, err := r.err, stop := r.stop } }

/-- Runs a command's pseudocode to its end or its `raise`, and completes it: one engine step (R400). -/
def runCommand (s : State) (prog : Eng Unit) : Result :=
  match prog (startRun s) with
  | .ok _ r => .next (complete s r)
  | .error .raised r => .next (complete s r)
  | .error (.stuck f) _ => .fault f

/-- The host's write of STATUS (R33): 1 in bit 1 clears DONE, 1 in bit 2 clears WIGN, nothing else changes.
Clearing DONE is the acknowledgement with which the host returns from an error (R364). -/
def writeStatus (v : Word) (s : State) : State :=
  { s with status := { s.status with done := s.status.done && !v.getLsbD 1, wign := s.status.wign && !v.getLsbD 2 } }

/-- The detail that names the failed check of an illegal word (R112, R352). -/
def illegalDetail : IllegalCmd → Detail
  | .badOp => .badOp
  | .badVer => .badVer
  | .reservedBits => .reservedBits

/-- An accepted word that decodes to no command completes with ILLEGAL_CMD and touches no memory and no header
register (R112, R360). -/
def completeIllegal (e : IllegalCmd) (s : State) : Result :=
  runCommand s (raise .illegalCmd (illegalDetail e) 0)

/-- The range and overlap checks with which every command begins (R360). The opcode checks of the prologue are
the decoder's. -/
def prologue (ms : Nat) (o : OperandRegs) (uses : List RangeName) : Eng Unit :=
  match rangeError ms o uses with
  | some (e, d) => raise e d 0
  | none => pure ()

/-! ## Acceptance and reset -/

/-- A CMD write that arrives while BUSY = 0 is accepted: CMD latches the word, BUSY <- 1, DONE <- 0 (R34). -/
def acceptCommand (w : Word) (s : State) : State :=
  { s with cmd := w, status := { s.status with busy := true, done := false } }

/-- Draws a fresh byte for each of `n` addresses from `a` that buffer memory has: what an aborted command leaves
in its output ranges (R391, step 1). -/
def scramble (ms : Nat) : Nat → Nat → Memory → Nat → Memory × Nat
  | _, 0, m, k => (m, k)
  | a, n + 1, m, k =>
    if a < ms then scramble ms (a + 1) n (memSet m a (Config.freeByte k)) (k + 1) else (m, k)

/-- Draws the bytes of one range after another. -/
def scrambleRanges (ms : Nat) (o : OperandRegs) : List RangeName → Memory → Nat → Memory × Nat
  | [], m, k => (m, k)
  | x :: xs, m, k =>
    let out := scramble ms (spanOf o x).base (spanOf o x).len m k
    scrambleRanges ms o xs out.1 out.2

/-- The ranges the running command writes; an illegal word uses no range (R360). -/
def runningWrites (s : State) : List RangeName :=
  match decode s.cmd with
  | .ok i => rangesWritten i
  | .error _ => []

/-- The ranges the running command reads or writes. -/
def runningUses (s : State) : List RangeName :=
  match decode s.cmd with
  | .ok i => rangesUsed i
  | .error _ => []

/-- A soft reset's abort (R391, step 1): with BUSY = 1 every byte of the ranges the running command writes takes
an unconstrained value; with BUSY = 0 no byte changes. -/
def abortRunning (s : State) : State :=
  if s.status.busy then
    let out := scrambleRanges (memSize s) s.opr (runningWrites s) s.mem s.draws
    { s with mem := out.1, draws := out.2 }
  else s

/-- Every register takes its reset value (R392). MEMLAST is constant, memory and the model's own fields stay. -/
def resetRegisters (s : State) : State :=
  { s with
    ie := false, status := Status.zero, cmd := 0, opr := OperandRegs.zero, res := ResultRegs.zero,
    hdr := HeaderRegs.zero }

/-- The soft reset with bit 0 of the writing word (R391): abort, registers, then IE. -/
def softReset (bit0 : Bool) (s : State) : State := { resetRegisters (abortRunning s) with ie := bit0 }

/-- Power-on (R390, R381): the registers at their reset values and every byte of buffer memory unwritten. The
draw counter goes on, so that no draw comes twice, and the moves still to come are the outside world's. -/
def powerOnReset (s : State) : State := { resetRegisters s with mem := [], rdata := 0 }

end Sys2Proof.Machine
end

