-- ==== Sys2Proof/Machine/Codec.lean ====
section
/-! DEFINITION. The integer codec commands SSDEC, RESYNC and INFL, and the checked inflate they share with
FRAME and PARSE (R180 to R192). -/

namespace Sys2Proof.Machine

open Sys2Proof (Word Byte Bytes Instr)

/-- The engine behind the decompressor stub: from compressed bytes to decompressed ones, none on failure (R190). -/
abbrev InflateFn := Bytes → Option Bytes

/-- `InflateChecked` (R191): the decompressed bytes, or the detail of the failure. -/
def inflateChecked (inflate : InflateFn) (c : Bytes) (n : Nat) : Except Detail Bytes :=
  match inflate c with
  | none => .error .inflateFail
  | some d => if d.length = n then .ok d else .error .inflateLen

/-- The pseudocode of SSDEC (R181). -/
def ssdecProg (ms : Nat) (o : OperandRegs) : Eng Unit := do
  prologue ms o (rangesUsed .ssdec)
  putRes0 (fromSynchsafe o.arg0).toNat

/-- The pseudocode of RESYNC (R183). -/
def resyncProg (ms : Nat) (o : OperandRegs) : Eng Unit := do
  prologue ms o (rangesUsed .resync)
  let xs ← readBytes ms o.srcBase.toNat o.srcLen.toNat
  let y := resynchronize xs
  putRes0 y.length
  putRes1 (xs.length - y.length)
  if y.length > o.dstCap.toNat then raise .capacity .dstFull 0
  else writeBytes ms o.dstBase.toNat y

/-- The pseudocode of INFL (R192). -/
def inflProg (inflate : InflateFn) (ms : Nat) (o : OperandRegs) : Eng Unit := do
  prologue ms o (rangesUsed .infl)
  let c ← readBytes ms o.srcBase.toNat o.srcLen.toNat
  match inflateChecked inflate c o.arg0.toNat with
  | .error d => raise .corruptFrame d 0
  | .ok r =>
    if o.arg0.toNat > o.dstCap.toNat then raise .capacity .dstFull 0
    else do
      writeBytes ms o.dstBase.toNat r
      putRes0 o.arg0.toNat

/-- SSDEC (R181). -/
def execSsdec (s : State) : Result := runCommand s (ssdecProg (memSize s) s.opr)

/-- RESYNC (R183). -/
def execResync (s : State) : Result := runCommand s (resyncProg (memSize s) s.opr)

/-- INFL (R192), with the engine the implementation fits. -/
def execInfl (s : State) : Result := runCommand s (inflProg Config.inflate (memSize s) s.opr)

end Sys2Proof.Machine
end

