-- ==== Sys2Proof/Machine/Frame.lean ====
section
/-! DEFINITION. The frame-header decoder with flag dispatch, the frame decoder, the descriptor, and the commands
FHDR and FRAME (R260 to R290, R124 to R132, R150 to R152). -/

namespace Sys2Proof.Machine

open Sys2Proof (Word Byte Bytes Instr)

/-! ## Outcomes (R261) -/

/-- The error of a `Fail`: TRUNCATED or CORRUPT_FRAME (R261). -/
inductive FailKind where
  | truncated | corruptFrame
  deriving DecidableEq, Repr

/-- A frame-level function returns a frame, a clean stop with the bytes read, or a failure with its detail and
the identifier, 0 where none had been read (R261, R39). -/
inductive Decoded (α : Type) where
  | got (x : α)
  | stop (reason : StopReason) (consumed : Nat)
  | fail (kind : FailKind) (d : Detail) (id : Word)
  deriving DecidableEq, Repr

/-- The error code of a failure (R350). -/
def failErr : FailKind → ErrCode
  | .truncated => .truncated
  | .corruptFrame => .corruptFrame

/-- The stop reason of a failure (R280, R323). -/
def failStop : FailKind → StopReason
  | .truncated => .truncated
  | .corruptFrame => .corrupt

/-! ## The frame header -/

/-- A decoded frame header (R269): `ident` has 4 bytes, v2.2 padded with 0x00. -/
structure FrameHeader where
  ident  : Bytes
  ver    : FrameVer
  size   : Nat
  f1     : Byte
  f2     : Byte
  nf     : NFlags
  gid    : Byte
  em     : Byte
  dlen   : Nat
  hdrlen : Nat
  deriving DecidableEq, Repr

/-- H, the length of a version's core header (R262). -/
def coreLen : FrameVer → Nat
  | .v2 => 6
  | _ => 10

/-- The length of a version's identifier (R262). -/
def idLen : FrameVer → Nat
  | .v2 => 3
  | _ => 4

/-- The identifier bytes of a core header (R264). -/
def coreId (ver : FrameVer) (c : Bytes) : Bytes := slice c 0 (idLen ver)

/-- The identifier as it is reported: v2.2 is followed by 0x00 (R264, R39). -/
def identOf (ver : FrameVer) (c : Bytes) : Bytes :=
  match ver with
  | .v2 => coreId ver c ++ [0x00]
  | _ => coreId ver c

/-- The declared payload size of a core header (R266): plain big-endian for v2.2 and v2.3, synchsafe for v2.4. -/
def coreSize (ver : FrameVer) (c : Bytes) : Nat :=
  match ver with
  | .v2 => be (slice c 3 6)
  | .v3 => be (slice c 4 8)
  | .v4 => synchsafe (slice c 4 8)

/-- The raw flag bytes of a core header, 0 for v2.2 (R266). -/
def coreFlags (ver : FrameVer) (c : Bytes) : Byte × Byte :=
  match ver with
  | .v2 => (0, 0)
  | _ => (byteAt c 8, byteAt c 9)

/-- The drain of v2.3 padding: from offset q on, over at most k bytes, past every zero byte up to the first
nonzero one or the end of the input (R265). -/
def drainZeros (ms a : Nat) : Nat → Nat → Eng Nat
  | 0, q => pure q
  | k + 1, q => do
    let b ← readByte ms (a + q)
    if b = 0x00 then drainZeros ms a k (q + 1) else pure q

/-- `PaddingStop` (R265): v2.3 additionally drains the zero bytes after the header. -/
def paddingStop (ms a n : Nat) (ver : FrameVer) : Eng (Decoded FrameHeader) :=
  match ver with
  | .v3 => do
    let q ← drainZeros ms a (n - coreLen ver) (coreLen ver)
    pure (.stop .padding q)
  | _ => pure (.stop .padding (coreLen ver))

/-- One optional trailing field of `len` bytes at offset q: none where the input ends inside it, and no bytes
where it is absent, which every reader of a field takes as 0 (R268, R269). -/
def trailingField (ms a n : Nat) (present : Bool) (len q : Nat) : Eng (Option (Bytes × Nat)) :=
  if present then
    if n < q + len then pure none
    else do
      let b ← readBytes ms (a + q) len
      pure (some (b, q + len))
  else pure (some ([], q))

/-- A trailing field cut by the end of the input (R268, R269). -/
def cutTrailer (ident : Bytes) : Decoded FrameHeader := .fail .truncated .shortFrameHeader (beWord ident)

/-- The v2.3 trailing fields: uncompressed size, then grouping id (R268). -/
def trailersV23 (ms a n : Nat) (h : FrameHeader) : Eng (Decoded FrameHeader) := do
  match ← trailingField ms a n h.nf.cmp 4 h.hdrlen with
  | none => pure (cutTrailer h.ident)
  | some (u, q) =>
    match ← trailingField ms a n h.nf.grp 1 q with
    | none => pure (cutTrailer h.ident)
    | some (g, q) => pure (.got { h with dlen := be u, gid := byteAt g 0, hdrlen := q })

/-- The v2.4 trailing fields: grouping id, encryption method, data-length indicator (R269). -/
def trailersV24 (ms a n : Nat) (h : FrameHeader) : Eng (Decoded FrameHeader) := do
  match ← trailingField ms a n h.nf.grp 1 h.hdrlen with
  | none => pure (cutTrailer h.ident)
  | some (g, q) =>
    match ← trailingField ms a n h.nf.enc 1 q with
    | none => pure (cutTrailer h.ident)
    | some (e, q) =>
      match ← trailingField ms a n h.nf.dli 4 q with
      | none => pure (cutTrailer h.ident)
      | some (d, q) =>
        pure (.got { h with gid := byteAt g 0, em := byteAt e 0, dlen := synchsafe d, hdrlen := q })

/-- The header that a full core gives before its trailing fields are read (R264, R266, R267). -/
def coreHeader (ver : FrameVer) (c : Bytes) : FrameHeader :=
  { ident := identOf ver c, ver := ver, size := coreSize ver c, f1 := (coreFlags ver c).1, f2 := (coreFlags ver c).2,
    nf := flagDispatch ver (coreFlags ver c).1 (coreFlags ver c).2, gid := 0, em := 0, dlen := 0,
    hdrlen := coreLen ver }

/-- `FrameHeaderDecode(a, n, ver)` (R262 to R269). -/
def frameHeaderDecode (ms a n : Nat) (ver : FrameVer) : Eng (Decoded FrameHeader) :=
  if n = 0 then pure (.stop .regionEnd 0)
  else if n < coreLen ver then do
    let part ← readBytes ms a n
    if allZero part then pure (.stop .padding n) else pure (.fail .truncated .shortFrameHeader 0)
  else do
    let c ← readBytes ms a (coreLen ver)
    if allZero (coreId ver c) then paddingStop ms a n ver
    else
      match ver with
      | .v2 => pure (.got (coreHeader ver c))
      | .v3 => trailersV23 ms a n (coreHeader ver c)
      | .v4 => trailersV24 ms a n (coreHeader ver c)

/-! ## The payload -/

/-- KIND of a descriptor (R151). -/
inductive FrameKind where
  | generic | text | comment | headerOnly
  deriving DecidableEq, Repr

/-- The number of a kind (R151). -/
def kindNum : FrameKind → Nat
  | .generic => 0
  | .text => 1
  | .comment => 2
  | .headerOnly => 3

/-- What classification finds (R285 to R287): the kind, TEXTENC, LANG and the offsets and lengths F1 to F4,
relative to the payload. -/
structure FrameClass where
  kind : FrameKind
  tenc : Byte
  lang : Bytes
  f1   : Nat
  f2   : Nat
  f3   : Nat
  f4   : Nat
  deriving DecidableEq, Repr

/-- The class of a descriptor with no payload of its own fields, all 0 (R287, R289). -/
def plainClass (k : FrameKind) : FrameClass := ⟨k, 0, [0, 0, 0], 0, 0, 0, 0⟩

/-- The comment's fields (R286, R132): the first 0x00 at an index of 4 or more ends the description; without one
the rest is the description and the text is empty. -/
def commentClass (d : Bytes) : FrameClass :=
  match (d.drop 4).findIdx? (· == 0x00) with
  | some j => ⟨.comment, byteAt d 0, slice d 1 4, 4, j, j + 5, d.length - (j + 4) - 1⟩
  | none => ⟨.comment, byteAt d 0, slice d 1 4, 4, d.length - 4, d.length, 0⟩

/-- `Classify(ident, d)` (R285 to R287): the T test is made before the COM test. -/
def classify (ident d : Bytes) : Except Detail FrameClass :=
  if byteAt ident 0 = 0x54 then
    if d.length < 1 then .error .textShort
    else .ok ⟨.text, byteAt d 0, [0, 0, 0], 1, d.length - 1, 0, 0⟩
  else if slice ident 0 3 = [0x43, 0x4F, 0x4D] then
    if d.length < 4 then .error .commentShort else .ok (commentClass d)
  else .ok (plainClass .generic)

/-- The decoded payload and whether it was inflated (R283, R284): only the compressed flag gates inflation, and a
v2.4 compressed frame must carry a data-length indicator. -/
def decodePayload (inflate : InflateFn) (hd : FrameHeader) (raw : Bytes) : Except Detail (Bytes × Bool) :=
  if hd.nf.cmp then
    if hd.ver = .v4 ∧ hd.nf.dli = false then .error .noDli
    else
      match inflateChecked inflate raw hd.dlen with
      | .error d => .error d
      | .ok r => .ok (r, true)
  else .ok (raw, false)

/-- A decoded frame (R261, R288). -/
structure Frame where
  hd       : FrameHeader
  cls      : FrameClass
  d        : Bytes
  inflated : Bool
  stored   : Nat
  consumed : Nat
  deriving DecidableEq, Repr

/-- A payload that is all there, from its stored bytes to the frame (R283 to R288). -/
def finishFrame (inflate : InflateFn) (hd : FrameHeader) (stored : Nat) (raw : Bytes) : Decoded Frame :=
  match decodePayload inflate hd raw with
  | .error dd => .fail .corruptFrame dd (beWord hd.ident)
  | .ok (d, inflated) =>
    match classify hd.ident d with
    | .error dd => .fail .corruptFrame dd (beWord hd.ident)
    | .ok cls => .got ⟨hd, cls, d, inflated, stored, hd.hdrlen + hd.size⟩

/-- `FrameDecode(a, n, ver)` (R281 to R288): size ceiling, short payload, then the payload. -/
def frameDecode (inflate : InflateFn) (ms a n : Nat) (ver : FrameVer) : Eng (Decoded Frame) := do
  match ← frameHeaderDecode ms a n ver with
  | .stop r k => pure (.stop r k)
  | .fail e d id => pure (.fail e d id)
  | .got hd =>
    if hd.size ≥ Config.frameSizeCeil then pure (.fail .corruptFrame .sizeSanity (beWord hd.ident))
    else if n - hd.hdrlen < hd.size then do
      let rest ← readBytes ms (a + hd.hdrlen) (n - hd.hdrlen)
      if allZero rest then pure (.stop .padding n)
      else pure (.fail .corruptFrame .shortPayload (beWord hd.ident))
    else do
      let raw ← readBytes ms (a + hd.hdrlen) hd.size
      pure (finishFrame inflate hd (a + hd.hdrlen) raw)

/-! ## The descriptor -/

/-- The 64 bytes of a descriptor, multi-byte fields big-endian (R150, R289). -/
def descBytes (hd : FrameHeader) (cls : FrameClass) (hdrOff payAddr payLen : Nat) : Bytes :=
  hd.ident
    ++ [BitVec.ofNat 8 (kindNum cls.kind), BitVec.ofNat 8 (verNum hd.ver), BitVec.ofNat 8 hd.hdrlen, nflagsByte hd.nf]
    ++ [hd.f1, hd.f2, hd.gid, hd.em]
    ++ bytesBe hdrOff 4 ++ bytesBe hd.size 4 ++ bytesBe hd.dlen 4 ++ bytesBe payAddr 4 ++ bytesBe payLen 4
    ++ [cls.tenc] ++ cls.lang
    ++ bytesBe cls.f1 4 ++ bytesBe cls.f2 4 ++ bytesBe cls.f3 4 ++ bytesBe cls.f4 4
    ++ List.replicate 12 0

/-- `WriteDesc` (R289). -/
def writeDesc (ms addr : Nat) (hd : FrameHeader) (cls : FrameClass) (hdrOff payAddr payLen : Nat) : Eng Unit :=
  writeBytes ms addr (descBytes hd cls hdrOff payAddr payLen)

/-! ## FHDR -/

/-- The pseudocode of FHDR.V2, FHDR.V3 and FHDR.V4 (R260). With CAPACITY it leaves ERR_ID at 0, as the pseudocode and
vector FH23 have it; the prose of R39 and R353 can be read as the identifier (DEDUCED, log entry 22). -/
def fhdrProg (ms : Nat) (o : OperandRegs) (ver : FrameVer) : Eng Unit := do
  prologue ms o [.src, .desc]
  match ← frameHeaderDecode ms o.srcBase.toNat o.srcLen.toNat ver with
  | .stop r k => do
    putRes0 k
    putStop r
  | .fail e d id => do
    putStop .truncated
    putErrId id
    raise (failErr e) d 0
  | .got hd =>
    if o.descCap.toNat < 1 then do
      putStop .capacity
      raise .capacity .descFull 0
    else do
      writeDesc ms o.descBase.toNat hd (plainClass .headerOnly) 0 0 0
      putRes0 hd.hdrlen
      putRes1 1
      putStop .frame

/-- FHDR.V2 (R260). -/
def execFhdrV2 (s : State) : Result := runCommand s (fhdrProg (memSize s) s.opr .v2)
/-- FHDR.V3 (R260). -/
def execFhdrV3 (s : State) : Result := runCommand s (fhdrProg (memSize s) s.opr .v3)
/-- FHDR.V4 (R260). -/
def execFhdrV4 (s : State) : Result := runCommand s (fhdrProg (memSize s) s.opr .v4)

/-! ## FRAME -/

/-- An inflated payload goes to PAY at this address; a stored one is written nowhere (R152). -/
def storePayload (ms addr : Nat) (fr : Frame) : Eng Unit := if fr.inflated then writeBytes ms addr fr.d else pure ()

/-- PAY_ADDR of a frame whose inflated payload, if it has one, stands at this address (R152). -/
def payloadAddr (addr : Nat) (fr : Frame) : Nat := if fr.inflated then addr else fr.stored

/-- How many bytes of PAY a frame takes (R280, R323). -/
def payloadUsed (fr : Frame) : Nat := if fr.inflated then fr.d.length else 0

/-- The pseudocode of FRAME.V2, FRAME.V3 and FRAME.V4 (R280), the capacity checks in the order of R290. With CAPACITY,
for want of a descriptor or of PAY, it leaves ERR_ID at 0, as the pseudocode and vectors FR29 and FR31 have it; the
prose of R39 and R353 can be read as the identifier (DEDUCED, log entry 22). -/
def frameProg (inflate : InflateFn) (ms : Nat) (o : OperandRegs) (ver : FrameVer) : Eng Unit := do
  prologue ms o [.src, .desc, .pay]
  match ← frameDecode inflate ms o.srcBase.toNat o.srcLen.toNat ver with
  | .stop r k => do
    putRes0 k
    putStop r
  | .fail e d id => do
    putStop (failStop e)
    putErrId id
    raise (failErr e) d 0
  | .got fr =>
    if o.descCap.toNat < 1 then do
      putStop .capacity
      raise .capacity .descFull 0
    else if fr.inflated ∧ fr.d.length > o.payCap.toNat then do
      putStop .capacity
      raise .capacity .payFull 0
    else do
      storePayload ms o.payBase.toNat fr
      writeDesc ms o.descBase.toNat fr.hd fr.cls 0 (payloadAddr o.payBase.toNat fr) fr.d.length
      putRes0 fr.consumed
      putRes1 1
      putRes2 (payloadUsed fr)
      putStop .frame

/-- FRAME.V2 (R280). -/
def execFrameV2 (s : State) : Result := runCommand s (frameProg Config.inflate (memSize s) s.opr .v2)
/-- FRAME.V3 (R280). -/
def execFrameV3 (s : State) : Result := runCommand s (frameProg Config.inflate (memSize s) s.opr .v3)
/-- FRAME.V4 (R280). -/
def execFrameV4 (s : State) : Result := runCommand s (frameProg Config.inflate (memSize s) s.opr .v4)

end Sys2Proof.Machine
end

