-- ==== Sys2Proof/Machine/Header.lean ====
section
/-! DEFINITION. The header extractor and CRC tracker: `TagHeaderDecode`, shared by THDR and PARSE, and the
command THDR (R220 to R237). -/

namespace Sys2Proof.Machine

open Sys2Proof (Word Byte Bytes Instr)

/-- What `TagHeaderDecode` returns (R236): the version, the flags byte, the source offset of the first byte
after the headers, and the data size. -/
structure TagHeader where
  ver   : FrameVer
  flags : Byte
  start : Nat
  ds    : Nat
  deriving DecidableEq, Repr

/-- `need(k, d)`: TRUNCATED with ERR_OFF = the SRC length when fewer than k bytes are there (R221). -/
def need (n k : Nat) (d : Detail) : Eng Unit := if n < k then raise .truncated d n else pure ()

/-- The CRC tracker for v2.3 (R227): the CRC is recorded, never computed or compared. -/
def crcTrackV23 (ms base : Nat) : Eng Unit := do
  let c ← readBytes ms (base + 20) 4
  let a ← addrWord (base + 20)
  putHdr fun h => { h with crcWord := beWord c, crcAddr := a, crcStat := ⟨true, 4⟩ }

/-- `ExtV23(base, n)`: the reported size and the bytes consumed (R226, R228). -/
def extV23 (ms base n : Nat) : Eng (Nat × Nat) := do
  need n 20 .shortExt
  let f ← readBytes ms (base + 10) 4
  putHdr fun h => { h with extField := beWord f }
  let ef ← readBytes ms (base + 14) 2
  putHdr fun h => { h with extFlags := beWord ef }
  let pad ← readBytes ms (base + 16) 4
  putHdr fun h => { h with extPad := beWord pad }
  if (beWord ef).getLsbD Config.v23ExtCrcBit then do
    need n 24 .shortExt
    crcTrackV23 ms base
    pure (Config.v23CrcExtSize, 14)
  else pure (be f, 10)

/-- One block of a v2.4 extended header, where its flag is set: the length byte at tag offset p, checked before
any payload byte (R231, R232). The block is recorded by `put` and the offset after it returned. -/
def extBlock (ms base n : Nat) (flag : Bool) (put : BlockStat → Word → HeaderRegs → HeaderRegs) (p : Nat) :
    Eng Nat :=
  if flag then do
    need n (p + 1) .shortExt
    let l ← readByte ms (base + p)
    if l.toNat > Config.extBlockMax then raise .corruptHeader .extBlockLen p
    else do
      need n (p + 1 + l.toNat) .shortExt
      let a ← addrWord (base + p + 1)
      putHdr (put ⟨true, l⟩ a)
      pure (p + 1 + l.toNat)
  else pure p

/-- `ExtV24Blocks`: is-update, then has-CRC, then has-tag-restrictions (R231, R233). -/
def extV24Blocks (ms base n : Nat) (f0 : Byte) (p : Nat) : Eng Nat := do
  let p ← extBlock ms base n (f0.getLsbD Config.v24ExtUpdateBit)
    (fun b a h => { h with updStat := b, updAddr := a }) p
  let p ← extBlock ms base n (f0.getLsbD Config.v24ExtCrcBit)
    (fun b a h => { h with crcStat := b, crcAddr := a }) p
  extBlock ms base n (f0.getLsbD Config.v24ExtRestrictBit)
    (fun b a h => { h with rstrStat := b, rstrAddr := a }) p

/-- The first v2.4 flag byte, 0 where there are no flag bytes (R230). -/
def firstFlagByte (ms base nfb : Nat) : Eng Byte := if nfb > 0 then readByte ms (base + 15) else pure 0

/-- `ExtV24(base, n)`: the reported size and the bytes consumed, which are the same running total (R230, R234).
Flag bytes after the first are skipped and held nowhere. -/
def extV24 (ms base n : Nat) : Eng (Nat × Nat) := do
  need n 15 .shortExt
  let f ← readBytes ms (base + 10) 4
  putHdr fun h => { h with extField := BitVec.ofNat 32 (synchsafe f) }
  let nfb ← readByte ms (base + 14)
  putHdr fun h => { h with nfb := nfb }
  need n (15 + nfb.toNat) .shortExt
  let f0 ← firstFlagByte ms base nfb.toNat
  putHdr fun h => { h with extFlags := f0.zeroExtend 32 }
  let p ← extV24Blocks ms base n f0 (15 + nfb.toNat)
  pure (p - 10, p - 10)

/-- The extended-header decoder of a version (R225). -/
def extDecoder (ms base n : Nat) : FrameVer → Eng (Nat × Nat)
  | .v3 => extV23 ms base n
  | _ => extV24 ms base n

/-- The extended header, decoded for versions 3 and 4 when the tag's flag says it is there (R225). -/
def extHeader (ms base n : Nat) (ver : FrameVer) (flags : Byte) : Eng (Nat × Nat) :=
  if flags.getLsbD Config.tagExtBit && ver != .v2 then do
    putHdr fun h => { h with extFlagged := true }
    let out ← extDecoder ms base n ver
    putHdr fun h => { h with extOk := true }
    pure out
  else pure (0, 0)

/-- `TagHeaderDecode(base, n)` (R221, R222, R225, R236). -/
def tagHeaderDecode (ms base n : Nat) : Eng TagHeader := do
  putHdr fun _ => HeaderRegs.zero
  if n < 3 then raise .notATag .marker 0
  else do
    let m ← readBytes ms base 3
    if m ≠ [0x49, 0x44, 0x33] then raise .notATag .marker 0
    else do
      need n 10 .shortHeader
      let h ← readBytes ms base 10
      putHdr fun g => { g with ver := byteAt h 3, rev := byteAt h 4, flags := byteAt h 5 }
      match verOfByte (byteAt h 3) with
      | none => raise .invalidVersion .version 3
      | some ver => do
        let raw := beWord (slice h 6 10)
        putHdr fun g => { g with hdrOk := true, thSizeRaw := raw, thSize := fromSynchsafe raw }
        let (extSize, extUsed) ← extHeader ms base n ver (byteAt h 5)
        putHdr fun g => { g with extSize := BitVec.ofNat 32 extSize, extConsumed := BitVec.ofNat 32 extUsed }
        let size := (fromSynchsafe raw).toNat
        if size < extSize then raise .corruptHeader .dataSizeNeg 10
        else do
          putHdr fun g =>
            { g with dataSize := BitVec.ofNat 32 (size - extSize), hdrEnd := BitVec.ofNat 32 (10 + extUsed) }
          pure ⟨ver, byteAt h 5, 10 + extUsed, size - extSize⟩

/-- The pseudocode of THDR (R220). -/
def thdrProg (ms : Nat) (o : OperandRegs) : Eng Unit := do
  prologue ms o (rangesUsed .thdr)
  let t ← tagHeaderDecode ms o.srcBase.toNat o.srcLen.toNat
  putRes0 t.start
  putRes1 t.ds

/-- THDR (R220). -/
def execThdr (s : State) : Result := runCommand s (thdrProg (memSize s) s.opr)

end Sys2Proof.Machine
end

