-- ==== Sys2Proof/Machine/Reader.lean ====
section
/-! DEFINITION. The tag reader sequencer, command PARSE: header and region, resynchronization, frame loop and
results (R320 to R327). -/

namespace Sys2Proof.Machine

open Sys2Proof (Word Byte Bytes Instr)

/-- RES0 <- frames decoded, RES2 <- region cursor, RES3 <- bytes of PAY used (R323, R324). -/
def putProgress (k p used : Nat) : Eng Unit := do
  putRes0 k
  putRes2 p
  putRes3 used

/-- A frame of PARSE that does not fit: ERR_ID names it, ERR_OFF is its region offset (R323). -/
def parseFull (hd : FrameHeader) (d : Detail) (p : Nat) : Eng Unit := do
  putRegion
  putErrId (beWord hd.ident)
  putStop .capacity
  raise .capacity d p

/-- A padding stop records the region offset of the padding header (R323). -/
def notePadding (reason : StopReason) (p : Nat) : Eng Unit :=
  if reason = .padding then do
    putErrOff p
    putRegion
  else pure ()

/-- The frame loop (R323) from cursor p, with k frames and `used` bytes of PAY so far, for at most the first
argument's number of rounds. R325 bounds the rounds, so running out of them is a fault of the model. -/
def parseLoop (inflate : InflateFn) (ms : Nat) (o : OperandRegs) (ver : FrameVer) (len : Nat) :
    Nat → Nat → Nat → Nat → Eng Unit
  | 0, _, _, _ => stuckAt .loopBound
  | rounds + 1, p, k, used => do
    putProgress k p used
    match ← frameDecode inflate ms (o.dstBase.toNat + p) (len - p) ver with
    | .stop reason c => do
      notePadding reason p
      putStop reason
      putProgress k (p + c) used
    | .fail e d id => do
      putErrOff p
      putRegion
      putDetail d
      putErrId id
      putStop (failStop e)
      putProgress k p used
    | .got fr =>
      if k ≥ o.descCap.toNat then parseFull fr.hd .descFull p
      else if fr.inflated ∧ used + fr.d.length > o.payCap.toNat then parseFull fr.hd .payFull p
      else do
        storePayload ms (o.payBase.toNat + used) fr
        writeDesc ms (o.descBase.toNat + Config.descSize * k) fr.hd fr.cls p
          (payloadAddr (o.payBase.toNat + used) fr) fr.d.length
        parseLoop inflate ms o ver len rounds (p + fr.consumed) (k + 1) (used + payloadUsed fr)

/-- The pseudocode of PARSE (R320 to R324); the loop's bound of rounds is that of R325. -/
def parseProg (inflate : InflateFn) (ms : Nat) (o : OperandRegs) : Eng Unit := do
  prologue ms o (rangesUsed .parse)
  let t ← tagHeaderDecode ms o.srcBase.toNat o.srcLen.toNat
  if t.start + t.ds > o.srcLen.toNat then raise .truncated .shortRegion o.srcLen.toNat
  else do
    let xs ← readBytes ms (o.srcBase.toNat + t.start) t.ds
    let y := if t.flags.getLsbD Config.tagUnsyncBit then resynchronize xs else xs
    putRes1 y.length
    if y.length > o.dstCap.toNat then raise .capacity .dstFull 0
    else do
      writeBytes ms o.dstBase.toNat y
      parseLoop inflate ms o t.ver y.length (y.length / 6 + 1) 0 0 0

/-- PARSE (R320). -/
def execParse (s : State) : Result := runCommand s (parseProg Config.inflate (memSize s) s.opr)

end Sys2Proof.Machine
end

