-- ==== Sys2Proof/Machine/Dispatch.lean ====
section
/-! DEFINITION. The one dispatch from a command to its meaning. -/

namespace Sys2Proof.Machine

open Sys2Proof (Instr)

/-- What a command does in a state: the engine step of R400 for that command. -/
def exec (i : Instr) (s : State) : Host.Outcome State Fault Refusal :=
  match i with
  | .ssdec => Sys2Proof.Machine.execSsdec s
  | .resync => Sys2Proof.Machine.execResync s
  | .infl => Sys2Proof.Machine.execInfl s
  | .thdr => Sys2Proof.Machine.execThdr s
  | .fhdrV2 => Sys2Proof.Machine.execFhdrV2 s
  | .fhdrV3 => Sys2Proof.Machine.execFhdrV3 s
  | .fhdrV4 => Sys2Proof.Machine.execFhdrV4 s
  | .frameV2 => Sys2Proof.Machine.execFrameV2 s
  | .frameV3 => Sys2Proof.Machine.execFrameV3 s
  | .frameV4 => Sys2Proof.Machine.execFrameV4 s
  | .parse => Sys2Proof.Machine.execParse s

end Sys2Proof.Machine
end

