-- ==== Sys2Proof/Machine/Registers.lean ====
section
/-! DEFINITION. The register map (R31): the registers by name and offset, what a host read of each returns, and
what a host write to each does (R32 to R50, R405). -/

namespace Sys2Proof.Machine

open Sys2Proof (Word Byte Bytes Instr)

/-- The registers of the map, by the names of R31. -/
inductive RegName where
  | ctrl | status | cmd | arg0
  | srcBase | srcLen | dstBase | dstCap | descBase | descCap | payBase | payCap
  | res0 | res1 | res2 | res3 | errOff | errId | errInfo | memLast
  | thInfo | thSizeRaw | thSize | dataSize | hdrEnd
  | extInfo | extField | extSize | extConsumed | extFlags | extPad
  | crcStat | crcAddr | crcWord | updStat | updAddr | rstrStat | rstrAddr
  deriving DecidableEq, Repr

/-- The map in the order of the offsets, one register every four bytes from 0x000 (R31). -/
def registerMap : List RegName :=
  [.ctrl, .status, .cmd, .arg0, .srcBase, .srcLen, .dstBase, .dstCap, .descBase, .descCap, .payBase, .payCap,
   .res0, .res1, .res2, .res3, .errOff, .errId, .errInfo, .memLast, .thInfo, .thSizeRaw, .thSize, .dataSize,
   .hdrEnd, .extInfo, .extField, .extSize, .extConsumed, .extFlags, .extPad, .crcStat, .crcAddr, .crcWord,
   .updStat, .updAddr, .rstrStat, .rstrAddr]

/-- The register at a word-aligned offset, none at a reserved one (R31, R49). -/
def regAt (off : Nat) : Option RegName := registerMap[off / 4]?

/-- The offset of a register (R31). -/
def offsetOf (r : RegName) : Nat := 4 * registerMap.idxOf r

/-- An access the host may make: word-aligned, at an offset 0x000 to 0x0FC (R50). -/
def accessOk (off : Nat) : Bool := off % 4 == 0 && decide (off < Config.regSpace)

/-- What a host read of a register returns (R32 to R48). -/
def regValue (s : State) : RegName → Word
  | .ctrl => ctrlWord s
  | .status => statusWord s
  | .cmd => s.cmd
  | .arg0 => s.opr.arg0
  | .srcBase => s.opr.srcBase
  | .srcLen => s.opr.srcLen
  | .dstBase => s.opr.dstBase
  | .dstCap => s.opr.dstCap
  | .descBase => s.opr.descBase
  | .descCap => s.opr.descCap
  | .payBase => s.opr.payBase
  | .payCap => s.opr.payCap
  | .res0 => s.res.res0
  | .res1 => s.res.res1
  | .res2 => s.res.res2
  | .res3 => s.res.res3
  | .errOff => s.res.errOff
  | .errId => s.res.errId
  | .errInfo => errInfoWord s.res
  | .memLast => s.memLast
  | .thInfo => thInfoWord s.hdr
  | .thSizeRaw => s.hdr.thSizeRaw
  | .thSize => s.hdr.thSize
  | .dataSize => s.hdr.dataSize
  | .hdrEnd => s.hdr.hdrEnd
  | .extInfo => extInfoWord s.hdr
  | .extField => s.hdr.extField
  | .extSize => s.hdr.extSize
  | .extConsumed => s.hdr.extConsumed
  | .extFlags => s.hdr.extFlags
  | .extPad => s.hdr.extPad
  | .crcStat => statWord s.hdr.crcStat
  | .crcAddr => s.hdr.crcAddr
  | .crcWord => s.hdr.crcWord
  | .updStat => statWord s.hdr.updStat
  | .updAddr => s.hdr.updAddr
  | .rstrStat => statWord s.hdr.rstrStat
  | .rstrAddr => s.hdr.rstrAddr

/-- What a host read at an offset returns; reserved offsets read 0 (R49). -/
def readOffset (s : State) (off : Nat) : Word :=
  match regAt off with
  | some r => regValue s r
  | none => 0

/-- The operand registers with one of them written; unchanged where the register is no operand. -/
def setOperand (r : RegName) (v : Word) (o : OperandRegs) : OperandRegs :=
  match r with
  | .arg0 => { o with arg0 := v }
  | .srcBase => { o with srcBase := v }
  | .srcLen => { o with srcLen := v }
  | .dstBase => { o with dstBase := v }
  | .dstCap => { o with dstCap := v }
  | .descBase => { o with descBase := v }
  | .descCap => { o with descCap := v }
  | .payBase => { o with payBase := v }
  | .payCap => { o with payCap := v }
  | _ => o

/-- CMD and the operand registers, 0x008 to 0x02C: a write while BUSY = 1 is ignored and sets WIGN (R405). -/
def ignoredWhileBusy (r : RegName) : Bool :=
  [RegName.cmd, .arg0, .srcBase, .srcLen, .dstBase, .dstCap, .descBase, .descCap, .payBase, .payCap].contains r

/-- A CTRL write (R32): bit 1 performs the soft reset and takes IE from bit 0 after it; otherwise only IE is
written. It takes effect whether or not BUSY is 1. -/
def writeCtrl (v : Word) (s : State) : State :=
  if v.getLsbD 1 then softReset (v.getLsbD 0) s else { s with ie := v.getLsbD 0 }

/-- What a host write to a register does (R31 to R36, R405): a write to a read-only register is ignored. -/
def writeReg (r : RegName) (v : Word) (s : State) : State :=
  if ignoredWhileBusy r && s.status.busy then { s with status := { s.status with wign := true } }
  else
    match r with
    | .ctrl => writeCtrl v s
    | .status => writeStatus v s
    | .cmd => acceptCommand v s
    | _ => { s with opr := setOperand r v s.opr }

/-- What a host write at an offset does; a write to a reserved offset is ignored (R49). -/
def writeOffset (off : Nat) (v : Word) (s : State) : State :=
  match regAt off with
  | some r => writeReg r v s
  | none => s

end Sys2Proof.Machine
end

