-- ==== Sys2Proof/Machine/HostBus.lean ====
section
/-! DEFINITION. The moves of the two agents (R400): the engine step, and the host's register and memory accesses
with the hazards of R96 and R405 to R407. -/

namespace Sys2Proof.Machine

open Sys2Proof (Word Byte Bytes Instr)

/-- The engine step (R400), for a pending command: the latched word is decoded and its command run to its end, or
completed as illegal (R112). -/
def engineStep (s : State) : Result :=
  match decode s.cmd with
  | .ok i => exec i s
  | .error e => completeIllegal e s

/-- The engine's move: enabled only while a command is pending (R400, R402). -/
def engineMove (s : State) : Result := if s.status.busy then engineStep s else .next s

/-- A host register read (R31, R50): the value appears in the read-data latch, nothing else changes. -/
def hostReadReg (off : Nat) (s : State) : Result :=
  if accessOk off then .next { s with rdata := readOffset s off } else .refused (.hostRegisterAccess off)

/-- A host register write (R31, R50). -/
def hostWriteReg (off : Nat) (v : Word) (s : State) : Result :=
  if accessOk off then .next (writeOffset off v s) else .refused (.hostRegisterAccess off)

/-- A host read that returns a draw (R83, R96(a)). -/
def readDraw (s : State) : State :=
  { s with rdata := (Config.freeByte s.draws).zeroExtend 32, draws := s.draws + 1 }

/-- A host read of one byte of buffer memory (R81): a draw where the byte has never been written (R83) or, while
BUSY = 1, lies in a range the running command writes (R96(a)). -/
def hostReadMem (a : Nat) (s : State) : Result :=
  if a < memSize s then
    if s.status.busy && inRanges s (runningWrites s) a then .next (readDraw s)
    else
      match memGet s.mem a with
      | some b => .next { s with rdata := b.zeroExtend 32 }
      | none => .next (readDraw s)
  else .refused (.hostMemoryAddress a)

/-- A host write of one byte of buffer memory (R81). While BUSY = 1, the spec gives no move for a byte of a range
the running command uses (R96(b), R406). -/
def hostWriteMem (a : Nat) (b : Byte) (s : State) : Result :=
  if a < memSize s then
    if s.status.busy && inRanges s (runningUses s) a then .refused (.hostWriteWhileBusy a)
    else .next { s with mem := memSet s.mem a b }
  else .refused (.hostMemoryAddress a)

/-- WAIT (R160): one read of STATUS. Where DONE is 0 the host reads again, and the engine takes its step meanwhile
if a command is pending (R401). `rest` is what follows the WAIT. -/
def hostWait (rest : List Move) (s : State) : Result :=
  if s.status.done then .next { s with rdata := statusWord s, agenda := rest }
  else engineMove { s with rdata := statusWord s }

/-- Takes the first move of the agenda; `s` still holds it, `rest` is what follows. -/
def takeMove (m : Move) (rest : List Move) (s : State) : Result :=
  match m with
  | .engine => engineMove { s with agenda := rest }
  | .readReg off => hostReadReg off { s with agenda := rest }
  | .writeReg off v => hostWriteReg off v { s with agenda := rest }
  | .readMem a => hostReadMem a { s with agenda := rest }
  | .writeMem a b => hostWriteMem a b { s with agenda := rest }
  | .waitDone => hostWait rest s
  | .powerOn => .next (powerOnReset { s with agenda := rest })

end Sys2Proof.Machine
end

