-- ==== Sys2Proof/Machine/HostProgram.lean ====
section
/-! DEFINITION. The host program syntax of R160 and the pseudo-instructions of R161, as the moves each statement
stands for. A host program is a list of statements; its moves, put into the agenda, run it. -/

namespace Sys2Proof.Machine

open Sys2Proof (Word Byte Bytes Instr)

/-- A statement of a host program (R160), or one of the pseudo-instructions RUN, ACK and RANGE (R161). -/
inductive HostStmt where
  | wr (r : RegName) (v : Word)
  | wb (addr : Nat) (bs : Bytes)
  | ws (addr : Nat) (text : String)
  | cmd (i : Instr)
  | wait
  | rd (r : RegName)
  | run (i : Instr)
  | ack
  | range (x : RangeName) (base len : Word)
  deriving DecidableEq, Repr

/-- Byte writes at addr, addr + 1, … (R160, R81). -/
def byteWrites : Nat → Bytes → List Move
  | _, [] => []
  | a, b :: bs => .writeMem a b :: byteWrites (a + 1) bs

/-- The ASCII bytes of a text (R160). -/
def asciiBytes (text : String) : Bytes := text.toList.map (fun c => BitVec.ofNat 8 c.toNat)

/-- The BASE and the LEN or CAP register of a range (R36). -/
def rangeRegs : RangeName → RegName × RegName
  | .src => (.srcBase, .srcLen)
  | .dst => (.dstBase, .dstCap)
  | .desc => (.descBase, .descCap)
  | .pay => (.payBase, .payCap)

/-- A host write to a register by its name. -/
def wrMove (r : RegName) (v : Word) : Move := .writeReg (offsetOf r) v

/-- The moves of a statement (R160, R161). -/
def stmtMoves : HostStmt → List Move
  | .wr r v => [wrMove r v]
  | .wb a bs => byteWrites a bs
  | .ws a text => byteWrites a (asciiBytes text)
  | .cmd i => [wrMove .cmd (encode i)]
  | .wait => [.waitDone]
  | .rd r => [.readReg (offsetOf r)]
  | .run i => [wrMove .cmd (encode i), .waitDone]
  | .ack => [wrMove .status 0x00000006]
  | .range x base len => [wrMove (rangeRegs x).1 base, wrMove (rangeRegs x).2 len]

/-- The moves of a host program. -/
def programMoves (p : List HostStmt) : List Move := p.flatMap stmtMoves

end Sys2Proof.Machine
end

