-- ==== Sys2Proof/Machine/Step.lean ====
section
/-! DEFINITION. One step of the machine, and the state in which a given command word is the next to run. -/

namespace Sys2Proof.Machine

open Sys2Proof (Word Instr)

/-- One step: the next move of the agenda. With nothing left on it the engine takes its move, and with no command
pending it stays idle (R400, R402). -/
def step (s : State) : Host.Outcome State Fault Refusal :=
  match s.agenda with
  | [] => engineMove s
  | m :: rest => takeMove m rest s

/-- `s` with the command word accepted as a CMD write accepts it (R34) and no host move ahead of the engine, so
that the very next step runs it. A command is one 32-bit word and lies in no memory (R110, R99). -/
def State.withFetchWord (s : State) (nbits w : Nat) : State :=
  { acceptCommand (BitVec.ofNat 32 (w % 2 ^ nbits)) s with agenda := [] }

end Sys2Proof.Machine
end

