-- ==== Sys2Proof/Safety.lean ====
section
/-! DEFINITION. The terms in which statements about the machine are written: the invariant, the state a command
leaves, the range checks and the frame-header layouts in the spec's own words rather than through the functions
of the machine, and what it takes for a list of stored frames to fill a region. -/

namespace Sys2Proof.Machine

open Sys2Proof (Word Byte Bytes Instr)

/-! ## The invariant -/

/-- A STAT register is 0 in both fields, or PRESENT with a length of at most EXT_BLOCK_MAX (R47, R48, R232). -/
def BlockCoherent (b : BlockStat) (addr : Word) : Prop :=
  (b.present = false → b.len = 0 ∧ addr = 0) ∧ b.len.toNat ≤ Config.extBlockMax

/-- What the header group always satisfies, whatever commands have run (R42 to R48):
TH_SIZE is the synchsafe value of TH_SIZE_RAW; HDR_OK means a version 2, 3 or 4, and without it no later field is
written; OK means FLAGGED, and FLAGGED a version 3 or 4 with flag bit 6; once HDR_END is written it is
10 + EXT_CONSUMED and DATA_SIZE is TH_SIZE − EXT_SIZE; v2.4 has no CRC_WORD and no EXT_PAD. -/
def HeaderCoherent (h : HeaderRegs) : Prop :=
  h.thSize = fromSynchsafe h.thSizeRaw
    ∧ (h.hdrOk = true → h.ver = 2 ∨ h.ver = 3 ∨ h.ver = 4)
    ∧ (h.hdrOk = false → h.thSizeRaw = 0 ∧ h.extFlagged = false ∧ h.extSize = 0 ∧ h.hdrEnd = 0)
    ∧ (h.extOk = true → h.extFlagged = true)
    ∧ (h.extFlagged = true → (h.ver = 3 ∨ h.ver = 4) ∧ h.flags.getLsbD 6 = true)
    ∧ (h.hdrEnd ≠ 0 → h.hdrEnd.toNat = 10 + h.extConsumed.toNat
        ∧ h.dataSize.toNat + h.extSize.toNat = h.thSize.toNat)
    ∧ (h.ver = 4 → h.crcWord = 0 ∧ h.extPad = 0)
    ∧ BlockCoherent h.crcStat h.crcAddr ∧ BlockCoherent h.updStat h.updAddr
    ∧ BlockCoherent h.rstrStat h.rstrAddr

/-- The invariant every step keeps: buffer memory is in canonical form and holds no byte at or above MEM_SIZE
(R80), BUSY and DONE are never both 1 (R33, R34, R52), and the header group is coherent. -/
def Inv (s : State) : Prop :=
  Memory.wf s.mem = true ∧ Memory.within (memSize s) s.mem = true
    ∧ ¬(s.status.busy = true ∧ s.status.done = true) ∧ HeaderCoherent s.hdr

/-! ## What a command leaves -/

/-- `s` after a completion (R52) with this error, stop reason, results, header group and memory: BUSY 0 and DONE 1,
and everything else as it was. -/
def finished (s : State) (err : ErrCode) (stop : StopReason) (res : ResultRegs) (hdr : HeaderRegs) (mem : Memory) :
    State :=
  { s with
    status := { busy := false, done := true, wign := s.status.wign, err := err, stop := stop },
    res := res, hdr := hdr, mem := mem }

/-- The bytes have been written at consecutive addresses from `a`. -/
def Holds (m : Memory) (a : Nat) (bs : Bytes) : Prop := memGetRange m a bs.length = some bs

/-! ## Ranges, in the words of R86 and R88 -/

/-- "A range is valid when LEN = 0, or when BASE + LEN ≤ MEM_SIZE" (R86). -/
def Fits (s : State) (x : RangeName) : Prop :=
  (spanOf s.opr x).len = 0 ∨ (spanOf s.opr x).base + (spanOf s.opr x).len ≤ memSize s

/-- The two ranges share at least one address, and so are both non-empty (R88). -/
def Share (s : State) (x y : RangeName) : Prop :=
  ∃ a, (spanOf s.opr x).base ≤ a ∧ a < (spanOf s.opr x).base + (spanOf s.opr x).len
    ∧ (spanOf s.opr y).base ≤ a ∧ a < (spanOf s.opr y).base + (spanOf s.opr y).len

/-- The place of a range in the order SRC, DST, DESC, PAY (R86). -/
def rangeRank : RangeName → Nat
  | .src => 0
  | .dst => 1
  | .desc => 2
  | .pay => 3

/-- Every range the command uses is valid and no two of them share an address: its prologue passes (R360). -/
def Ready (i : Instr) (s : State) : Prop :=
  (∀ x ∈ rangesUsed i, Fits s x) ∧ ∀ x ∈ rangesUsed i, ∀ y ∈ rangesUsed i, x ≠ y → ¬Share s x y

/-- SRC is exactly these bytes: the host has written each of them (R83). -/
def SrcIs (s : State) (bs : Bytes) : Prop :=
  s.opr.srcLen.toNat = bs.length ∧ Holds s.mem s.opr.srcBase.toNat bs

/-- SRC begins with these bytes, all of them written. -/
def SrcStarts (s : State) (bs : Bytes) : Prop :=
  bs.length ≤ s.opr.srcLen.toNat ∧ Holds s.mem s.opr.srcBase.toNat bs

/-! ## Frame headers, as R124 to R126 lay them out -/

/-- The bytes of a frame header, field by field. `usize` is the v2.3 uncompressed size, `dli` the v2.4 data-length
indicator; a field a header does not have is empty. -/
structure HeaderLayout where
  ver    : FrameVer
  ident  : Bytes
  size   : Bytes
  f1     : Byte
  f2     : Byte
  usize  : Bytes
  group  : Bytes
  method : Bytes
  dli    : Bytes
  deriving DecidableEq, Repr

/-- The length a trailing field has: `len` when its flag is set, else 0. -/
def fieldLen (present : Bool) (len : Nat) : Nat := if present then len else 0

/-- The fields have the lengths of R124 to R126, each trailing field is there iff its flag bit is set, and the
identifier is not all zero (R128). -/
def LayoutOk (l : HeaderLayout) : Prop :=
  allZero l.ident = false ∧
  match l.ver with
  | .v2 => l.ident.length = 3 ∧ l.size.length = 3 ∧ l.f1 = 0 ∧ l.f2 = 0 ∧ l.usize = [] ∧ l.group = []
      ∧ l.method = [] ∧ l.dli = []
  | .v3 => l.ident.length = 4 ∧ l.size.length = 4 ∧ l.usize.length = fieldLen (l.f2.getLsbD 7) 4
      ∧ l.group.length = fieldLen (l.f2.getLsbD 5) 1 ∧ l.method = [] ∧ l.dli = []
  | .v4 => l.ident.length = 4 ∧ l.size.length = 4 ∧ l.usize = [] ∧ l.group.length = fieldLen (l.f2.getLsbD 6) 1
      ∧ l.method.length = fieldLen (l.f2.getLsbD 2) 1 ∧ l.dli.length = fieldLen (l.f2.getLsbD 0) 4

/-- The header as it stands in memory (R124 to R126). -/
def layoutBytes (l : HeaderLayout) : Bytes :=
  match l.ver with
  | .v2 => l.ident ++ l.size
  | .v3 => l.ident ++ l.size ++ [l.f1, l.f2] ++ l.usize ++ l.group
  | .v4 => l.ident ++ l.size ++ [l.f1, l.f2] ++ l.group ++ l.method ++ l.dli

/-- The values a header of this layout carries (R266 to R269). -/
def layoutHeader (l : HeaderLayout) : FrameHeader :=
  { ident := match l.ver with
      | .v2 => l.ident ++ [0x00]
      | _ => l.ident
    ver := l.ver
    size := match l.ver with
      | .v4 => synchsafe l.size
      | _ => be l.size
    f1 := l.f1, f2 := l.f2, nf := flagDispatch l.ver l.f1 l.f2
    gid := l.group.headD 0, em := l.method.headD 0
    dlen := match l.ver with
      | .v4 => synchsafe l.dli
      | _ => be l.usize
    hdrlen := (layoutBytes l).length }

/-- FHDR of a version. -/
def fhdrOf : FrameVer → Instr
  | .v2 => .fhdrV2
  | .v3 => .fhdrV3
  | .v4 => .fhdrV4

/-- FRAME of a version. -/
def frameOf : FrameVer → Instr
  | .v2 => .frameV2
  | .v3 => .frameV3
  | .v4 => .frameV4

/-! ## Inputs on which frame decoding ends without a frame -/

/-- Decoding a frame header of these bytes ends cleanly, with this reason and this many bytes read: nothing is
left (R262), the partial header is all zero (R263), or the identifier is all zero, where v2.3 reads on past every
zero byte (R264, R265). -/
def EndsCleanly (ver : FrameVer) (bs : Bytes) (r : StopReason) (used : Nat) : Prop :=
  (bs = [] ∧ r = .regionEnd ∧ used = 0)
    ∨ (0 < bs.length ∧ bs.length < coreLen ver ∧ allZero bs = true ∧ r = .padding ∧ used = bs.length)
    ∨ (coreLen ver ≤ bs.length ∧ allZero (bs.take (idLen ver)) = true ∧ r = .padding
        ∧ used = coreLen ver + match ver with
          | .v3 => ((bs.drop 10).takeWhile (· == 0)).length
          | _ => 0)

/-- A frame header whose payload is cut short, with a residue that is all zero: padding (R282). -/
def ZeroResidue (ver : FrameVer) (bs : Bytes) : Prop :=
  ∃ l rest, LayoutOk l ∧ l.ver = ver ∧ bs = layoutBytes l ++ rest ∧ (layoutHeader l).size < Config.frameSizeCeil
    ∧ rest.length < (layoutHeader l).size ∧ allZero rest = true

/-- The frame header is cut by the end of the input, with this identifier: inside a core that is not all zero
(R263), or inside a trailing field (R268, R269). -/
def HeaderCut (ver : FrameVer) (bs : Bytes) (id : Word) : Prop :=
  (bs.length < coreLen ver ∧ allZero bs = false ∧ id = 0)
    ∨ ∃ l, LayoutOk l ∧ l.ver = ver ∧ coreLen ver ≤ bs.length ∧ bs.length < (layoutBytes l).length
        ∧ bs = (layoutBytes l).take bs.length ∧ id = beWord (layoutHeader l).ident

/-- The frame is corrupt, with this detail and identifier: its size is at or above the ceiling (R281), its payload
is cut short with a residue that is not all zero (R282), it is a v2.4 compressed frame with no data-length
indicator (R284), or it is a stored text or comment frame shorter than its prefix (R285, R286). -/
def FrameCorrupt (ver : FrameVer) (bs : Bytes) (d : Detail) (id : Word) : Prop :=
  ∃ l rest, LayoutOk l ∧ l.ver = ver ∧ bs = layoutBytes l ++ rest ∧ id = beWord (layoutHeader l).ident
    ∧ ((Config.frameSizeCeil ≤ (layoutHeader l).size ∧ d = .sizeSanity)
      ∨ ((layoutHeader l).size < Config.frameSizeCeil
        ∧ ((rest.length < (layoutHeader l).size ∧ allZero rest = false ∧ d = .shortPayload)
          ∨ ((layoutHeader l).size ≤ rest.length
            ∧ ((ver = .v4 ∧ (layoutHeader l).nf.cmp = true ∧ (layoutHeader l).nf.dli = false ∧ d = .noDli)
              ∨ ((layoutHeader l).nf.cmp = false ∧ l.ident.head? = some 0x54 ∧ (layoutHeader l).size = 0
                  ∧ d = .textShort)
              ∨ ((layoutHeader l).nf.cmp = false ∧ l.ident.take 3 = [0x43, 0x4F, 0x4D]
                  ∧ (layoutHeader l).size < 4 ∧ d = .commentShort))))))

/-! ## Frames in a region -/

/-- A frame of a region: its header, its payload bytes as they stand, and the bytes its descriptor is about. -/
structure RegionFrame where
  layout : HeaderLayout
  stored : Bytes
  data   : Bytes
  deriving DecidableEq, Repr

/-- The frame as it stands in a region. -/
def frameBytes (f : RegionFrame) : Bytes := layoutBytes f.layout ++ f.stored

/-- The frame's payload is compressed (R283). -/
def packed (f : RegionFrame) : Bool := (layoutHeader f.layout).nf.cmp

/-- What the payload bytes decode to: what the fitted engine answers for a compressed frame, the bytes themselves
for every other (R283). -/
def delivered (f : RegionFrame) : Option Bytes := if packed f then Config.inflate f.stored else some f.stored

/-- The frame decodes: a header of this version whose size field is the stored length, below the ceiling (R281,
R282), bytes that are delivered, for a compressed frame with the indicator v2.4 asks for and in the declared length
(R283, R284), and long enough for their kind (R285, R286). -/
def FrameOk (ver : FrameVer) (f : RegionFrame) : Prop :=
  LayoutOk f.layout ∧ f.layout.ver = ver ∧ (layoutHeader f.layout).size = f.stored.length
    ∧ f.stored.length < Config.frameSizeCeil ∧ delivered f = some f.data
    ∧ (packed f = true →
      (ver = .v4 → (layoutHeader f.layout).nf.dli = true) ∧ f.data.length = (layoutHeader f.layout).dlen)
    ∧ ∃ cls, classify (layoutHeader f.layout).ident f.data = .ok cls

/-- The class of a frame's data. -/
def frameClass (f : RegionFrame) : FrameClass :=
  match classify (layoutHeader f.layout).ident f.data with
  | .ok cls => cls
  | .error _ => plainClass .generic

/-- The descriptor of a frame at region offset `p`, the region at address `dst`: PAY_ADDR is where the payload
stands, or `pay` for inflated bytes (R152, R289). -/
def frameDesc (dst pay p : Nat) (f : RegionFrame) : Bytes :=
  descBytes (layoutHeader f.layout) (frameClass f) p
    (if packed f then pay else dst + p + (layoutBytes f.layout).length) f.data.length

/-- The bytes a frame puts into PAY: its inflated payload, nothing for an uncompressed frame (R152, R323). -/
def paid (f : RegionFrame) : Bytes := if packed f then f.data else []

/-- The frames of a region, one after another. -/
def regionBytes (fs : List RegionFrame) : Bytes := fs.flatMap frameBytes

/-- How many bytes of PAY the frames take (R324). -/
def payUsed (fs : List RegionFrame) : Nat := (fs.flatMap paid).length

/-- Memory once these frames have been stored, the first of them at region offset `p` with descriptor slot `k` and
`used` bytes of PAY taken: each frame's inflated payload at PAY_BASE + used, then its descriptor at
DESC_BASE + 64·k (R323). -/
def storeFrames (o : OperandRegs) : Nat → Nat → Nat → List RegionFrame → Memory → Memory
  | _, _, _, [], m => m
  | p, k, used, f :: fs, m =>
    storeFrames o (p + (frameBytes f).length) (k + 1) (used + (paid f).length) fs
      (memSetRange (memSetRange m (o.payBase.toNat + used) (paid f)) (o.descBase.toNat + 64 * k)
        (frameDesc o.dstBase.toNat (o.payBase.toNat + used) p f))

/-- Memory once PARSE has written this region to DST and stored these frames (R322, R323). -/
def parsedMem (s : State) (region : Bytes) (fs : List RegionFrame) : Memory :=
  storeFrames s.opr 0 0 0 fs (memSetRange s.mem s.opr.dstBase.toNat region)

/-- The frames decode, and DESC and PAY have room for them. -/
def FramesFit (s : State) (ver : FrameVer) (fs : List RegionFrame) : Prop :=
  (∀ f ∈ fs, FrameOk ver f) ∧ fs.length ≤ s.opr.descCap.toNat ∧ payUsed fs ≤ s.opr.payCap.toNat

/-- What PARSE reports after these frames of a region of `n` bytes, the cursor at `used` bytes after them (R324). -/
def parseRes (n : Nat) (fs : List RegionFrame) (used : Nat) : ResultRegs :=
  { ResultRegs.zero with
    res0 := BitVec.ofNat 32 fs.length, res1 := BitVec.ofNat 32 n,
    res2 := BitVec.ofNat 32 ((regionBytes fs).length + used), res3 := BitVec.ofNat 32 (payUsed fs) }

/-- The same with the region offset of the frame header that ended decoding, a detail and an identifier (R323). -/
def parseStopRes (n : Nat) (fs : List RegionFrame) (used : Nat) (d : Detail) (id : Word) : ResultRegs :=
  { parseRes n fs used with
    errOff := BitVec.ofNat 32 (regionBytes fs).length, region := true, detail := d, errId := id }

/-! ## Basic tag headers -/

/-- The ten bytes of a basic tag header (R120): "ID3", the version, the revision, the flags, the size field. -/
def tagHeaderBytes (ver : FrameVer) (rev flags : Byte) (size : Bytes) : Bytes :=
  [0x49, 0x44, 0x33, BitVec.ofNat 8 (verNum ver), rev, flags] ++ size

/-- The header group after a tag header with no extended header (R222, R225, R236). -/
def plainHeader (ver : FrameVer) (rev flags : Byte) (size : Bytes) : HeaderRegs :=
  { HeaderRegs.zero with
    ver := BitVec.ofNat 8 (verNum ver), rev := rev, flags := flags, hdrOk := true, thSizeRaw := beWord size,
    thSize := fromSynchsafe (beWord size), dataSize := fromSynchsafe (beWord size), hdrEnd := 10 }

/-- The header group when the decode of an extended header starts: the basic header's fields, FLAGGED, and zeros
(R222, R225). -/
def extStartRegs (ver : FrameVer) (rev flags : Byte) (size : Bytes) : HeaderRegs :=
  { plainHeader ver rev flags size with dataSize := 0, hdrEnd := 0, extFlagged := true }

/-! ## Extended headers, as R122 and R123 lay them out -/

/-- The v2.3 extended header: size, flags, padding size and, with flag bit 15, the CRC (R122). -/
structure ExtV23Layout where
  size  : Bytes
  flags : Bytes
  pad   : Bytes
  crc   : Bytes
  deriving DecidableEq, Repr

/-- The fields have the lengths of R122; the CRC is there iff bit 15 of the flags is set. -/
def ExtV23Ok (x : ExtV23Layout) : Prop :=
  x.size.length = 4 ∧ x.flags.length = 2 ∧ x.pad.length = 4
    ∧ x.crc.length = fieldLen ((beWord x.flags).getLsbD 15) 4

/-- The v2.3 extended header as it stands in memory (R122). -/
def extV23Bytes (x : ExtV23Layout) : Bytes := x.size ++ x.flags ++ x.pad ++ x.crc

/-- The header group once this v2.3 extended header, of the tag at address `base`, has been decoded and its sizes
are known, the data size not yet (R226 to R228, R45 to R47). -/
def extV23Regs (base : Nat) (rev flags : Byte) (size : Bytes) (x : ExtV23Layout) : HeaderRegs :=
  { extStartRegs .v3 rev flags size with
    extOk := true, extField := beWord x.size,
    extFlags := beWord x.flags, extPad := beWord x.pad,
    extSize := if x.crc = [] then beWord x.size else 10,
    extConsumed := if x.crc = [] then 10 else 14,
    crcStat := if x.crc = [] then ⟨false, 0⟩ else ⟨true, 4⟩,
    crcAddr := if x.crc = [] then 0 else BitVec.ofNat 32 (base + 20),
    crcWord := beWord x.crc }

/-- The header group that a v2.3 extended header leaves when SRC ends after `n` bytes, before its last byte: nothing
of it up to the padding size, and all but the CRC from there on (R226, R237). -/
def cutV23Regs (rev flags : Byte) (size : Bytes) (x : ExtV23Layout) (n : Nat) : HeaderRegs :=
  if n < 20 then extStartRegs .v3 rev flags size
  else
    { extStartRegs .v3 rev flags size with
      extField := beWord x.size, extFlags := beWord x.flags, extPad := beWord x.pad }

/-- The v2.4 extended header: the size field, the flag bytes, and the payloads of the is-update, has-CRC and
has-tag-restrictions blocks, each where its flag is set (R123). -/
structure ExtV24Layout where
  size  : Bytes
  flags : Bytes
  upd   : Option Bytes
  crc   : Option Bytes
  rstr  : Option Bytes
  deriving DecidableEq, Repr

/-- The first flag byte, 0 where there is none (R230). -/
def firstFlags (x : ExtV24Layout) : Byte := x.flags.headD 0

/-- The fields have the lengths of R123: at most 255 flag bytes, one block for each flag that is set, each of at
most 128 bytes (R232). -/
def ExtV24Ok (x : ExtV24Layout) : Prop :=
  x.size.length = 4 ∧ x.flags.length ≤ 255
    ∧ x.upd.isSome = (firstFlags x).getLsbD 6 ∧ x.crc.isSome = (firstFlags x).getLsbD 5
    ∧ x.rstr.isSome = (firstFlags x).getLsbD 4
    ∧ (∀ b ∈ x.upd, b.length ≤ 128) ∧ (∀ b ∈ x.crc, b.length ≤ 128) ∧ ∀ b ∈ x.rstr, b.length ≤ 128

/-- A block as it stands in memory: its length byte, then its payload (R123). -/
def blockBytes (b : Bytes) : Bytes := BitVec.ofNat 8 b.length :: b

/-- A block that may be absent. -/
def optBlockBytes : Option Bytes → Bytes
  | none => []
  | some b => blockBytes b

/-- The v2.4 extended header as it stands in memory (R123). -/
def extV24Bytes (x : ExtV24Layout) : Bytes :=
  x.size ++ [BitVec.ofNat 8 x.flags.length] ++ x.flags ++ optBlockBytes x.upd ++ optBlockBytes x.crc
    ++ optBlockBytes x.rstr

/-- The STAT register of a block (R231). -/
def statOf : Option Bytes → BlockStat
  | none => ⟨false, 0⟩
  | some b => ⟨true, BitVec.ofNat 8 b.length⟩

/-- The ADDR register of a block whose length byte is at this address (R231). -/
def addrOf (a : Nat) : Option Bytes → Word
  | none => 0
  | some _ => BitVec.ofNat 32 (a + 1)

/-- The header group once this v2.4 extended header, of the tag at address `base`, has been decoded and its sizes
are known, the data size not yet (R230 to R234, R44 to R48). -/
def extV24Regs (base : Nat) (rev flags : Byte) (size : Bytes) (x : ExtV24Layout) : HeaderRegs :=
  { extStartRegs .v4 rev flags size with
    extOk := true, nfb := BitVec.ofNat 8 x.flags.length,
    extField := fromSynchsafe (beWord x.size), extFlags := (firstFlags x).zeroExtend 32,
    extSize := BitVec.ofNat 32 (extV24Bytes x).length, extConsumed := BitVec.ofNat 32 (extV24Bytes x).length,
    updStat := statOf x.upd, updAddr := addrOf (base + 15 + x.flags.length) x.upd,
    crcStat := statOf x.crc, crcAddr := addrOf (base + 15 + x.flags.length + (optBlockBytes x.upd).length) x.crc,
    rstrStat := statOf x.rstr,
    rstrAddr := addrOf (base + 15 + x.flags.length + (optBlockBytes x.upd).length + (optBlockBytes x.crc).length)
      x.rstr }

/-- The header group that a v2.4 extended header leaves when SRC ends after `n` bytes, before its last byte: the
size field and NFB from 15 bytes on, the flags once every flag byte is there, and each block that is there whole;
the last block never is (R230, R231, R237). -/
def cutV24Regs (base : Nat) (rev flags : Byte) (size : Bytes) (x : ExtV24Layout) (n : Nat) : HeaderRegs :=
  let p0 := 15 + x.flags.length
  let p1 := p0 + (optBlockBytes x.upd).length
  let p2 := p1 + (optBlockBytes x.crc).length
  { extStartRegs .v4 rev flags size with
    extField := if n < 15 then 0 else fromSynchsafe (beWord x.size)
    nfb := if n < 15 then 0 else BitVec.ofNat 8 x.flags.length
    extFlags := if n < p0 then 0 else (firstFlags x).zeroExtend 32
    updStat := if n < p1 then ⟨false, 0⟩ else statOf x.upd
    updAddr := if n < p1 then 0 else addrOf (base + p0) x.upd
    crcStat := if n < p2 then ⟨false, 0⟩ else statOf x.crc
    crcAddr := if n < p2 then 0 else addrOf (base + p1) x.crc }

/-- A v2.4 extended header up to a block whose flag is set and of which nothing has been read: the blocks before it
are there, that one and those after it are not (R231). -/
def ExtV24Upto (x : ExtV24Layout) : Prop :=
  x.size.length = 4 ∧ x.flags.length ≤ 255 ∧ (∀ b ∈ x.upd, b.length ≤ 128) ∧ (∀ b ∈ x.crc, b.length ≤ 128)
    ∧ x.rstr = none
    ∧ (((firstFlags x).getLsbD 6 = true ∧ x.upd = none ∧ x.crc = none)
      ∨ ((firstFlags x).getLsbD 5 = true ∧ x.upd.isSome = (firstFlags x).getLsbD 6 ∧ x.crc = none)
      ∨ ((firstFlags x).getLsbD 4 = true ∧ x.upd.isSome = (firstFlags x).getLsbD 6
        ∧ x.crc.isSome = (firstFlags x).getLsbD 5))

/-- The header group once the data size and the place of the frame region are known (R236). -/
def withRegion (h : HeaderRegs) : HeaderRegs :=
  { h with dataSize := h.thSize - h.extSize, hdrEnd := 10 + h.extConsumed }

/-- What THDR leaves once the extended header has been decoded into `h`: CORRUPT_HEADER where the data size would
be negative, else the data size and the place of the frame region (R236, R220). -/
def afterExtHeader (s : State) (h : HeaderRegs) : State :=
  if h.thSize.toNat < h.extSize.toNat then
    finished s .corruptHeader .noStop { ResultRegs.zero with detail := .dataSizeNeg, errOff := 10 } h s.mem
  else
    finished s .noError .noStop
      { ResultRegs.zero with res0 := 10 + h.extConsumed, res1 := h.thSize - h.extSize } (withRegion h) s.mem

/-! ## Tags -/

/-- The extended header of a tag, where there is one. -/
inductive ExtLayout where
  | absent
  | v23 (x : ExtV23Layout)
  | v24 (x : ExtV24Layout)
  deriving DecidableEq, Repr

/-- The headers of a tag: the fields of the basic header (R120) and the extended header. -/
structure TagLayout where
  ver   : FrameVer
  rev   : Byte
  flags : Byte
  size  : Bytes
  ext   : ExtLayout
  deriving DecidableEq, Repr

/-- The headers are those of a tag at address `base`: an extended header for versions 3 and 4 exactly when flag bit
6 is set (R225), of its version's layout. A v2.4 one ends below 2^32, so that every address it records fits its
register (log entry 8). -/
def TagOk (base : Nat) (h : TagLayout) : Prop :=
  h.size.length = 4 ∧
  match h.ext with
  | .absent => h.flags.getLsbD 6 = false ∨ h.ver = .v2
  | .v23 x => h.ver = .v3 ∧ h.flags.getLsbD 6 = true ∧ ExtV23Ok x
  | .v24 x => h.ver = .v4 ∧ h.flags.getLsbD 6 = true ∧ ExtV24Ok x ∧ base + 10 + (extV24Bytes x).length < 2 ^ 32

/-- The extended header as it stands in memory. -/
def extBytes : ExtLayout → Bytes
  | .absent => []
  | .v23 x => extV23Bytes x
  | .v24 x => extV24Bytes x

/-- The headers as they stand in memory: the bytes a decode consumes (R120, R122, R123). -/
def tagBytes (h : TagLayout) : Bytes := tagHeaderBytes h.ver h.rev h.flags h.size ++ extBytes h.ext

/-- The header group of a tag at address `base` (R222 to R236). -/
def tagRegs (base : Nat) (h : TagLayout) : HeaderRegs :=
  match h.ext with
  | .absent => plainHeader h.ver h.rev h.flags h.size
  | .v23 x => withRegion (extV23Regs base h.rev h.flags h.size x)
  | .v24 x => withRegion (extV24Regs base h.rev h.flags h.size x)

/-- The frame region that PARSE works on: resynchronized when the tag's flag bit 7 is set (R322). -/
def regionOf (flags : Byte) (xs : Bytes) : Bytes := if flags.getLsbD 7 then resynchronize xs else xs

/-- A PARSE that comes to its frame loop: its ranges pass the prologue, and SRC begins with a tag's headers and the
bytes `xs` of its frame region, as many as the tag size less the reported size of the extended header, which for
v2.3 need not be the bytes it consumes (R229); what becomes of them fits DST (R321, R322). -/
def ParseInput (s : State) (h : TagLayout) (xs : Bytes) : Prop :=
  Ready .parse s ∧ TagOk s.opr.srcBase.toNat h
    ∧ xs.length + (tagRegs s.opr.srcBase.toNat h).extSize.toNat = synchsafe h.size
    ∧ SrcStarts s (tagBytes h ++ xs) ∧ (regionOf h.flags xs).length ≤ s.opr.dstCap.toNat

end Sys2Proof.Machine
end

