-- ==== Sys2Proof/Certificates/Slice0/Obligations.lean ====
section
/-! DEFINITION. The statements for the provers, each a proposition about the machine that formalises rules of the
spec. `Ready`, `SrcIs`, `SrcStarts` and the layouts are those of Safety.lean; `finished` is the state a completion
leaves. -/

open Sys2Proof Sys2Proof.Machine

/-! ## Command words -/

/-- The eleven command words decode to the commands of the opcode map (R111). -/
def Obligations.OpcodeMapWords : Prop :=
  decode 0x00000001 = .ok .ssdec ∧ decode 0x00000002 = .ok .resync ∧ decode 0x00000003 = .ok .infl
    ∧ decode 0x00000010 = .ok .thdr
    ∧ decode 0x00000220 = .ok .fhdrV2 ∧ decode 0x00000320 = .ok .fhdrV3 ∧ decode 0x00000420 = .ok .fhdrV4
    ∧ decode 0x00000221 = .ok .frameV2 ∧ decode 0x00000321 = .ok .frameV3 ∧ decode 0x00000421 = .ok .frameV4
    ∧ decode 0x00000030 = .ok .parse

/-- Decode and encode agree: of all 2^32 words, exactly the encoding of a command decodes to it, so no bit of a
command word is dropped and no other word is a command (R110, R111, R112). -/
def Obligations.DecodeAcceptsExactlyTheEncodings : Prop :=
  ∀ (w : Word) (i : Instr), i.wf = true ∧ (decode w = .ok i ↔ w = encode i)

/-- Every word that fails a check of R112 is accepted, and the engine's step completes it with ILLEGAL_CMD and the
detail of the first failed check, touching no memory and no header register; every other word is a command. The
checks are the three of R112, on the fields of R110. That an empty agenda gives the engine its turn is the model's
choice (log entry 6). -/
def Obligations.IllegalWordsCompleteWithTheFirstFailedCheck : Prop :=
  (∀ w : Word, opOf w = w.extractLsb' 0 8 ∧ verOf w = w.extractLsb' 8 4 ∧ rsvOf w = w.extractLsb' 12 20)
    ∧ (∀ f : CmdFields,
      (f.opOk = true ↔ f.op.toNat ∈ [0x01, 0x02, 0x03, 0x10, 0x20, 0x21, 0x30])
      ∧ (f.verOk = true ↔
        if f.op = 0x20 ∨ f.op = 0x21 then f.ver = 2 ∨ f.ver = 3 ∨ f.ver = 4 else f.ver = 0)
      ∧ (f.rsvOk = true ↔ f.rsv = 0)
      ∧ (f.wf = true ↔ f.opOk = true ∧ f.verOk = true ∧ f.rsvOk = true))
    ∧ ∀ s : State, s.agenda = [] → s.status.busy = true →
      let f : CmdFields := ⟨opOf s.cmd, verOf s.cmd, rsvOf s.cmd⟩
      if f.wf = true then ∃ i, decode s.cmd = .ok i
      else step s = .next (finished s .illegalCmd .noStop
        { ResultRegs.zero with
          detail := if f.opOk = false then .badOp else if f.verOk = false then .badVer else .reservedBits }
        s.hdr s.mem)

/-! ## Steps -/

/-- The engine's step runs the decoded command: with the engine next to move, whether because nothing is left on
the agenda or because its first move is the engine's, the step is `exec` of that command (R400). The same holds in
the state that a fetched word gives. -/
def Obligations.StepRunsTheDecodedCommand : Prop :=
  (∀ (s : State) (i : Instr), s.status.busy = true → decode s.cmd = .ok i →
    (s.agenda = [] → step s = exec i s)
      ∧ ∀ rest, s.agenda = .engine :: rest → step s = exec i { s with agenda := rest })
    ∧ ∀ (s : State) (i : Instr),
      step (s.withFetchWord 32 (encode i).toNat) = exec i (s.withFetchWord 32 (encode i).toNat)

/-- With no command pending, the engine's turn changes nothing: it runs nothing by itself (R402). -/
def Obligations.IdleEngineDoesNothing : Prop :=
  ∀ s : State, s.status.busy = false →
    (s.agenda = [] → step s = .next s)
      ∧ ∀ rest, s.agenda = .engine :: rest → step s = .next { s with agenda := rest }

/-- No step of any state faults: every engine access is inside memory (R82) and PARSE's loop stays within its
bound of rounds (R325), from every state. -/
def Obligations.StepNeverFaults : Prop := ∀ (s : State) (f : Fault), step s ≠ .fault f

/-- Every command completes, in every state: BUSY 0, DONE 1, and WIGN, IE, CMD, the operand registers, MEMLAST and
the model's latch and agenda as they were (R401, R52, R36). -/
def Obligations.EveryCommandCompletes : Prop :=
  ∀ (i : Instr) (s : State), ∃ t, exec i s = .next t ∧ t.status.busy = false ∧ t.status.done = true
    ∧ t.status.wign = s.status.wign ∧ t.ie = s.ie ∧ t.cmd = s.cmd ∧ t.opr = s.opr ∧ t.memLast = s.memLast
    ∧ t.rdata = s.rdata ∧ t.agenda = s.agenda

/-- The statements of a host program stand for the moves of R160, and ACK, RANGE and RUN for the expansions of R161.
RUN on an idle machine: three steps accept the command word, run the command while the host polls
STATUS, and end the WAIT with DONE = 1, with what the command left; `a` is the state the command runs in. -/
def Obligations.HostStatementsAndWhatRunDoes : Prop :=
  (∀ (r : RegName) (v : Word), stmtMoves (.wr r v) = [.writeReg (offsetOf r) v]
      ∧ stmtMoves (.rd r) = [.readReg (offsetOf r)])
    ∧ (∀ (a : Nat) (bs : Bytes), stmtMoves (.wb a bs) =
        (List.range bs.length).map fun k => .writeMem (a + k) (byteAt bs k))
    ∧ (∀ (a : Nat) (text : String), (∀ c ∈ text.toList, c.toNat < 128) → ∃ bs : Bytes,
        stmtMoves (.ws a text) = stmtMoves (.wb a bs) ∧ bs.map (·.toNat) = text.toList.map (·.toNat))
    ∧ (∀ i : Instr, stmtMoves (.cmd i) = [.writeReg 0x008 (encode i)]
      ∧ stmtMoves (.run i) = stmtMoves (.cmd i) ++ stmtMoves .wait)
    ∧ stmtMoves .wait = [.waitDone] ∧ stmtMoves .ack = [.writeReg 0x004 0x00000006]
    ∧ (∀ base len : Word, stmtMoves (.range .src base len) = [.writeReg 0x010 base, .writeReg 0x014 len]
      ∧ stmtMoves (.range .dst base len) = [.writeReg 0x018 base, .writeReg 0x01C len]
      ∧ stmtMoves (.range .desc base len) = [.writeReg 0x020 base, .writeReg 0x024 len]
      ∧ stmtMoves (.range .pay base len) = [.writeReg 0x028 base, .writeReg 0x02C len])
    ∧ ∀ (s : State) (i : Instr) (rest : List Move), s.status.busy = false →
      s.agenda = stmtMoves (.run i) ++ rest →
      ∃ a b c, step s = .next a ∧ step a = .next b ∧ step b = .next c
        ∧ a.cmd = encode i ∧ a.status.busy = true ∧ a.status.done = false
        ∧ a.opr = s.opr ∧ a.mem = s.mem ∧ a.hdr = s.hdr ∧ a.res = s.res
        ∧ exec i { a with rdata := statusWord a } = .next b
        ∧ c = { b with rdata := statusWord b, agenda := rest } ∧ c.status.done = true

/-! ## Registers and the host's moves -/

/-- The register map: every register has the offset of R31. -/
def Obligations.RegisterOffsets : Prop :=
  ∀ p ∈ ([(.ctrl, 0x000), (.status, 0x004), (.cmd, 0x008), (.arg0, 0x00C), (.srcBase, 0x010), (.srcLen, 0x014),
      (.dstBase, 0x018), (.dstCap, 0x01C), (.descBase, 0x020), (.descCap, 0x024), (.payBase, 0x028),
      (.payCap, 0x02C), (.res0, 0x030), (.res1, 0x034), (.res2, 0x038), (.res3, 0x03C), (.errOff, 0x040),
      (.errId, 0x044), (.errInfo, 0x048), (.memLast, 0x04C), (.thInfo, 0x050), (.thSizeRaw, 0x054),
      (.thSize, 0x058), (.dataSize, 0x05C), (.hdrEnd, 0x060), (.extInfo, 0x064), (.extField, 0x068),
      (.extSize, 0x06C), (.extConsumed, 0x070), (.extFlags, 0x074), (.extPad, 0x078), (.crcStat, 0x07C),
      (.crcAddr, 0x080), (.crcWord, 0x084), (.updStat, 0x088), (.updAddr, 0x08C), (.rstrStat, 0x090),
      (.rstrAddr, 0x094)] : List (RegName × Nat)), regAt p.2 = some p.1 ∧ offsetOf p.1 = p.2

/-- The host's register moves, in every state, busy or not. A read puts the value of the register at that offset into
the read-data latch and changes nothing else (R31, R50). A write of CTRL without SRST gives IE bit 0 of the word and
changes nothing else (R32, R370, R382); a write of STATUS clears DONE where bit 1 is set and WIGN where bit 2 is, the
acknowledge after a completion, and changes nothing else (R33, R364); a write at any offset from 0x030 on, the
read-only registers and the reserved offsets, changes nothing (R31, R405). The accesses the host may make are those
of R50; `rdata` and the agenda are the model's own fields (log entries 5 and 6). -/
def Obligations.HostRegisterMoves : Prop :=
  (∀ off, accessOk off = true ↔ off % 4 = 0 ∧ off < 0x100)
  ∧ ∀ (s : State) (rest : List Move),
    (∀ off, s.agenda = .readReg off :: rest → step s = hostReadReg off { s with agenda := rest })
    ∧ (∀ off v, s.agenda = .writeReg off v :: rest → step s = hostWriteReg off v { s with agenda := rest })
    ∧ (∀ r : RegName, s.agenda = .readReg (offsetOf r) :: rest →
      step s = .next { s with rdata := regValue s r, agenda := rest })
    ∧ (∀ v : Word, v.getLsbD 1 = false → s.agenda = .writeReg 0x000 v :: rest →
      step s = .next { s with ie := v.getLsbD 0, agenda := rest })
    ∧ (∀ v : Word, s.agenda = .writeReg 0x004 v :: rest → step s = .next { s with
        agenda := rest
        status := { s.status with
          done := if v.getLsbD 1 = true then false else s.status.done
          wign := if v.getLsbD 2 = true then false else s.status.wign } })
    ∧ ∀ (off : Nat) (v : Word), accessOk off = true → 0x30 ≤ off → s.agenda = .writeReg off v :: rest →
      step s = .next { s with agenda := rest }

/-- What the host reads from each register (R31 to R48): IRQ is IE and DONE (R370); every register reads the word or
the field that holds it; and the bits of CTRL, STATUS, ERR_INFO, TH_INFO, EXT_INFO and the STAT registers are those
of R32, R33, R40, R42, R44, R47 and R48. -/
def Obligations.RegisterValuesAndFields : Prop :=
  ∀ (s : State) (b : BlockStat),
    irq s = (s.ie && s.status.done)
    ∧ (∀ q ∈ [(RegName.ctrl, ctrlWord s), (.status, statusWord s), (.cmd, s.cmd), (.arg0, s.opr.arg0),
        (.srcBase, s.opr.srcBase), (.srcLen, s.opr.srcLen), (.dstBase, s.opr.dstBase), (.dstCap, s.opr.dstCap),
        (.descBase, s.opr.descBase), (.descCap, s.opr.descCap), (.payBase, s.opr.payBase), (.payCap, s.opr.payCap),
        (.res0, s.res.res0), (.res1, s.res.res1), (.res2, s.res.res2), (.res3, s.res.res3),
        (.errOff, s.res.errOff), (.errId, s.res.errId), (.errInfo, errInfoWord s.res), (.memLast, s.memLast),
        (.thInfo, thInfoWord s.hdr), (.thSizeRaw, s.hdr.thSizeRaw), (.thSize, s.hdr.thSize),
        (.dataSize, s.hdr.dataSize), (.hdrEnd, s.hdr.hdrEnd), (.extInfo, extInfoWord s.hdr),
        (.extField, s.hdr.extField), (.extSize, s.hdr.extSize), (.extConsumed, s.hdr.extConsumed),
        (.extFlags, s.hdr.extFlags), (.extPad, s.hdr.extPad), (.crcStat, statWord s.hdr.crcStat),
        (.crcAddr, s.hdr.crcAddr), (.crcWord, s.hdr.crcWord), (.updStat, statWord s.hdr.updStat),
        (.updAddr, s.hdr.updAddr), (.rstrStat, statWord s.hdr.rstrStat), (.rstrAddr, s.hdr.rstrAddr)],
      regValue s q.1 = q.2)
    ∧ (ctrlWord s).getLsbD 0 = s.ie ∧ (ctrlWord s).getLsbD 1 = false
    ∧ (statusWord s).getLsbD 0 = s.status.busy ∧ (statusWord s).getLsbD 1 = s.status.done
    ∧ (statusWord s).getLsbD 2 = s.status.wign ∧ (statusWord s).getLsbD 3 = (s.ie && s.status.done)
    ∧ ((statusWord s).extractLsb' 8 8).toNat = errNum s.status.err
    ∧ ((statusWord s).extractLsb' 16 4).toNat = stopNum s.status.stop
    ∧ ((errInfoWord s.res).extractLsb' 0 8).toNat = detailNum s.res.detail
    ∧ (errInfoWord s.res).getLsbD 8 = s.res.region
    ∧ (thInfoWord s.hdr).extractLsb' 0 8 = s.hdr.ver ∧ (thInfoWord s.hdr).extractLsb' 8 8 = s.hdr.rev
    ∧ (thInfoWord s.hdr).extractLsb' 16 8 = s.hdr.flags ∧ (thInfoWord s.hdr).getLsbD 24 = s.hdr.hdrOk
    ∧ (extInfoWord s.hdr).getLsbD 0 = s.hdr.extFlagged ∧ (extInfoWord s.hdr).getLsbD 1 = s.hdr.extOk
    ∧ (extInfoWord s.hdr).extractLsb' 8 8 = s.hdr.nfb
    ∧ (statWord b).getLsbD 0 = b.present ∧ (statWord b).extractLsb' 8 8 = b.len

/-- Reserved offsets read 0 and ignore writes; reserved bits of defined registers read 0, and writes to them are
ignored (R49). That a read answers in the latch `rdata` and that reserved bits are computed at the read, not
stored, is the model's choice (log entries 5 and 20). -/
def Obligations.ReservedOffsetsAndBits : Prop :=
  ∀ s : State,
    (∀ off v, accessOk off = true → 0x98 ≤ off →
      hostReadReg off s = .next { s with rdata := 0 } ∧ hostWriteReg off v s = .next s)
    ∧ (ctrlWord s).extractLsb' 1 31 = 0
    ∧ (statusWord s).extractLsb' 4 4 = 0 ∧ (statusWord s).extractLsb' 20 12 = 0
    ∧ (errInfoWord s.res).extractLsb' 9 23 = 0 ∧ (thInfoWord s.hdr).extractLsb' 25 7 = 0
    ∧ (extInfoWord s.hdr).extractLsb' 2 6 = 0 ∧ (extInfoWord s.hdr).extractLsb' 16 16 = 0
    ∧ (∀ b : BlockStat, (statWord b).extractLsb' 1 7 = 0 ∧ (statWord b).extractLsb' 16 16 = 0)
    ∧ (∀ v v' : Word, v.extractLsb' 0 2 = v'.extractLsb' 0 2 → writeReg .ctrl v s = writeReg .ctrl v' s)
    ∧ ∀ v v' : Word, v.extractLsb' 1 2 = v'.extractLsb' 1 2 → writeReg .status v s = writeReg .status v' s

/-- A host write to an operand register of an idle machine: the register reads back the word written, every other
register reads as before, and nothing else changes (R35, R36). -/
def Obligations.OperandWriteReadsBack : Prop :=
  ∀ (s : State) (off : Nat) (v : Word), s.status.busy = false → accessOk off = true → 0x0C ≤ off → off ≤ 0x2C →
    ∃ o, hostWriteReg off v s = .next { s with opr := o } ∧ readOffset { s with opr := o } off = v
      ∧ ∀ off', accessOk off' = true → off' ≠ off → readOffset { s with opr := o } off' = readOffset s off'

/-- A CMD write: with BUSY = 0 it is accepted, CMD latching the word, BUSY rising and DONE falling together,
whatever the word; with BUSY = 1 it only sets WIGN. CMD reads as the last accepted word (R34). -/
def Obligations.CmdWriteIsAcceptedOrIgnored : Prop :=
  ∀ (s : State) (v : Word) (rest : List Move), s.agenda = .writeReg 0x008 v :: rest →
    step s = .next (if s.status.busy = true then
        { s with agenda := rest, status := { s.status with wign := true } }
      else { s with agenda := rest, cmd := v, status := { s.status with busy := true, done := false } })
    ∧ hostReadReg 0x008 s = .next { s with rdata := s.cmd }

/-- Writes while busy (R405): CMD and the operand registers keep their values and WIGN is set, CTRL and STATUS
writes take effect, read-only registers ignore writes, and no step after which the command still runs changes
CMD or an operand. -/
def Obligations.WritesWhileBusy : Prop :=
  ∀ s : State, s.status.busy = true →
    (∀ off v, accessOk off = true → 0x08 ≤ off → off ≤ 0x2C →
      hostWriteReg off v s = .next { s with status := { s.status with wign := true } })
    ∧ (∀ v, hostWriteReg 0x00 v s =
        .next (if v.getLsbD 1 = true then softReset (v.getLsbD 0) s else { s with ie := v.getLsbD 0 }))
    ∧ (∀ v, hostWriteReg 0x04 v s = .next { s with status :=
        { s.status with done := s.status.done && !v.getLsbD 1, wign := s.status.wign && !v.getLsbD 2 } })
    ∧ (∀ off v, accessOk off = true → 0x30 ≤ off → hostWriteReg off v s = .next s)
    ∧ ∀ t, step s = .next t → t.status.busy = true → t.cmd = s.cmd ∧ t.opr = s.opr

/-- While a command runs, its predecessor's results stand: a step after which BUSY is still 1 leaves RES0 to RES3,
ERR_OFF, ERR_ID, ERR_INFO, ERR, STOP and the header group as they were (R407, R52). MEMLAST never changes (R41). -/
def Obligations.ResultsStandUntilCompletion : Prop :=
  ∀ s t : State, step s = .next t →
    t.memLast = s.memLast
      ∧ (t.status.busy = true →
        t.res = s.res ∧ t.hdr = s.hdr ∧ t.status.err = s.status.err ∧ t.status.stop = s.status.stop)

/-- DONE rises only at a completion, and BUSY rises only by the acceptance of a CMD write, which clears DONE
(R33, R34, R52, R402). -/
def Obligations.DoneAndBusyRiseOnlyByTheirEvents : Prop :=
  ∀ s t : State, step s = .next t →
    (s.status.done = false → t.status.done = true → s.status.busy = true ∧ t.status.busy = false)
      ∧ (s.status.busy = false → t.status.busy = true →
        ∃ v rest, s.agenda = .writeReg 0x008 v :: rest ∧ t.cmd = v ∧ t.status.done = false)

/-- IRQ rises only with a completion, or when the host sets IE while DONE is pending (R370, R371). -/
def Obligations.IrqRisesOnlyByCompletionOrEnable : Prop :=
  ∀ s t : State, step s = .next t → irq s = false → irq t = true →
    (s.ie = true ∧ s.status.busy = true ∧ t.status.busy = false ∧ t.status.done = true)
      ∨ (s.status.done = true ∧ ∃ v rest, s.agenda = .writeReg 0x000 v :: rest
          ∧ v.getLsbD 0 = true ∧ v.getLsbD 1 = false)

/-- The soft reset (R391): IE takes bit 0 of the word, every other register its reset value; with BUSY = 0 no byte
of memory changes; with BUSY = 1 each byte of the ranges the aborted command writes holds a draw of its own, made
at this reset, and every other byte is unchanged. The draws are the model's free bytes at counters (log entry 2);
which bytes are drawn where a range is invalid or the word illegal is the model's reading (log entry 9). -/
def Obligations.SoftResetAbortsAndClears : Prop :=
  ∀ (s : State) (v : Word), v.getLsbD 1 = true →
    ∃ t, hostWriteReg 0x000 v s = .next t
      ∧ t.ie = v.getLsbD 0 ∧ t.status = Status.zero ∧ t.cmd = 0 ∧ t.opr = OperandRegs.zero
      ∧ t.res = ResultRegs.zero ∧ t.hdr = HeaderRegs.zero ∧ t.memLast = s.memLast
      ∧ (s.status.busy = false → t.mem = s.mem)
      ∧ (s.status.busy = true →
        (∀ a, inRanges s (runningWrites s) a = false → memGet t.mem a = memGet s.mem a)
        ∧ ∃ f : Nat → Nat,
          (∀ a, inRanges s (runningWrites s) a = true →
            s.draws ≤ f a ∧ f a < t.draws ∧ memGet t.mem a = some (Config.freeByte (f a)))
          ∧ ∀ a b, inRanges s (runningWrites s) a = true → inRanges s (runningWrites s) b = true →
            f a = f b → a = b)

/-- The reset table (R392): after power-on every register reads 0 but MEMLAST, nothing runs and no byte of memory
has been written; after a soft reset the same registers read the same but for CTRL.IE, and memory stands, apart
from the output ranges of an aborted command. The `powerOn` move and the agenda (log entries 6 and 16), memory with
nothing listed (log entry 3), MEM_SIZE as `Config.memLast` (log entry 1) and the ranges of an aborted command (log
entry 9) are the model's choices. -/
def Obligations.ResetTable : Prop :=
  (∀ r, regValue State.reset r = if r = .memLast then Config.memLast else 0)
    ∧ State.reset.status.busy = false ∧ irq State.reset = false ∧ (∀ a, memGet State.reset.mem a = none)
    ∧ (∀ off, 0x98 ≤ off → readOffset State.reset off = 0)
    ∧ (∀ (s : State) (rest : List Move), s.agenda = .powerOn :: rest → ∃ t, step s = .next t
        ∧ (∀ r, regValue t r = if r = .memLast then s.memLast else 0) ∧ t.status.busy = false
        ∧ ∀ a, memGet t.mem a = none)
    ∧ ∀ (s : State) (bit0 : Bool),
      (∀ r, regValue (softReset bit0 s) r =
        if r = .memLast then s.memLast else if r = .ctrl then BitVec.ofNat 32 bit0.toNat else 0)
      ∧ (softReset bit0 s).status.busy = false
      ∧ (∀ off, 0x98 ≤ off → readOffset (softReset bit0 s) off = 0)
      ∧ ∀ a, (s.status.busy = true → inRanges s (runningWrites s) a = false) →
        memGet (softReset bit0 s).mem a = memGet s.mem a

/-- Host accesses to one byte of buffer memory (R81, R83, R96): a read returns the byte written last; where none
was, or where the byte lies in a range the running command writes, it returns a draw; a write that does not touch
a range the running command uses changes that byte alone. A run of bytes written at an address is written byte after
byte from there, and stands where each of its bytes does (R82). -/
def Obligations.HostMemoryAccess : Prop :=
  (∀ (m : Memory) (a a' : Nat) (bs : Bytes),
    memGet (memSetRange m a bs) a' = if a ≤ a' ∧ a' < a + bs.length then bs[a' - a]? else memGet m a')
  ∧ (∀ (m : Memory) (a : Nat) (bs : Bytes), Holds m a bs ↔ ∀ k < bs.length, memGet m (a + k) = bs[k]?)
  ∧ (∀ (s : State) (a : Nat) (b : Byte) (rest : List Move),
    (s.agenda = .readMem a :: rest → step s = hostReadMem a { s with agenda := rest })
    ∧ (s.agenda = .writeMem a b :: rest → step s = hostWriteMem a b { s with agenda := rest }))
  ∧ ∀ (s : State) (a : Nat) (b : Byte), a < memSize s →
    hostReadMem a s = .next (match memGet s.mem a with
      | some x =>
        if s.status.busy = true ∧ inRanges s (runningWrites s) a = true then
          { s with rdata := (Config.freeByte s.draws).zeroExtend 32, draws := s.draws + 1 }
        else { s with rdata := x.zeroExtend 32 }
      | none => { s with rdata := (Config.freeByte s.draws).zeroExtend 32, draws := s.draws + 1 })
    ∧ (¬(s.status.busy = true ∧ inRanges s (runningUses s) a = true) →
      ∃ m, hostWriteMem a b s = .next { s with mem := m } ∧ memGet m a = some b
        ∧ ∀ a', a' ≠ a → memGet m a' = memGet s.mem a')

/-- The host duties (R406): a step is refused exactly when its move is a register access that is not to an aligned
offset below 0x100, a memory access at or above MEM_SIZE, or, while BUSY = 1, a write to a byte of a range the
running command uses. The ranges of the running command are those of the decoded word, none for an illegal one, and a
byte is in a range that contains its address; MEM_SIZE is MEMLAST + 1 (R41, R87, R360). -/
def Obligations.OnlyHostDutiesAreRefused : Prop :=
  (∀ s : State, memSize s = s.memLast.toNat + 1
    ∧ (∀ i, decode s.cmd = .ok i → runningUses s = rangesUsed i ∧ runningWrites s = rangesWritten i)
    ∧ ((∀ i, decode s.cmd ≠ .ok i) → runningUses s = [] ∧ runningWrites s = [])
    ∧ ∀ (xs : List RangeName) (a : Nat), inRanges s xs a = true ↔ a < memSize s ∧
        ∃ x ∈ xs, (spanOf s.opr x).base ≤ a ∧ a < (spanOf s.opr x).base + (spanOf s.opr x).len)
  ∧ ∀ (s : State) (x : Refusal), step s = .refused x ↔
    ∃ m rest, s.agenda = m :: rest ∧
      ((∃ off, (m = .readReg off ∨ ∃ v, m = .writeReg off v) ∧ ¬(off % 4 = 0 ∧ off < 0x100)
          ∧ x = .hostRegisterAccess off)
        ∨ (∃ a, (m = .readMem a ∨ ∃ b, m = .writeMem a b) ∧ memSize s ≤ a ∧ x = .hostMemoryAddress a)
        ∨ (∃ a b, m = .writeMem a b ∧ a < memSize s ∧ s.status.busy = true
          ∧ inRanges s (runningUses s) a = true ∧ x = .hostWriteWhileBusy a))

/-! ## The prologue -/

/-- The range check (R86): the first invalid range the command uses, in the order SRC, DST, DESC, PAY, ends it
with RANGE and the detail of that range, ERR_OFF 0; sums are unbounded and DESC's length is 64 × DESC_CAP. Memory
and the header group are untouched. The ranges each command uses are those it reads and those it writes, the two
columns of the table of R87. -/
def Obligations.FirstInvalidRangeEndsTheCommand : Prop :=
  (∀ o : OperandRegs, spanOf o .src = ⟨o.srcBase.toNat, o.srcLen.toNat⟩
      ∧ spanOf o .dst = ⟨o.dstBase.toNat, o.dstCap.toNat⟩
      ∧ spanOf o .desc = ⟨o.descBase.toNat, 64 * o.descCap.toNat⟩
      ∧ spanOf o .pay = ⟨o.payBase.toNat, o.payCap.toNat⟩)
    ∧ (∀ q ∈ ([(.ssdec, [], []), (.resync, [.src], [.dst]), (.infl, [.src], [.dst]), (.thdr, [.src], []),
        (.fhdrV2, [.src], [.desc]), (.fhdrV3, [.src], [.desc]), (.fhdrV4, [.src], [.desc]),
        (.frameV2, [.src], [.desc, .pay]), (.frameV3, [.src], [.desc, .pay]), (.frameV4, [.src], [.desc, .pay]),
        (.parse, [.src, .dst], [.dst, .desc, .pay])] : List (Instr × List RangeName × List RangeName)),
      rangesWritten q.1 = q.2.2 ∧ ∀ x, x ∈ rangesUsed q.1 ↔ x ∈ q.2.1 ∨ x ∈ q.2.2)
    ∧ ∀ (i : Instr) (s : State) (x : RangeName), x ∈ rangesUsed i → ¬Fits s x →
      (∀ y ∈ rangesUsed i, rangeRank y < rangeRank x → Fits s y) →
      exec i s = .next (finished s .range .noStop
        { ResultRegs.zero with detail := match x with
            | .src => .rangeSrc
            | .dst => .rangeDst
            | .desc => .rangeDesc
            | .pay => .rangePay } s.hdr s.mem)

/-- The overlap check (R88): with every used range valid, two used ranges that share an address end the command
with OVERLAP, ERR_OFF 0; memory and the header group are untouched. -/
def Obligations.OverlappingRangesEndTheCommand : Prop :=
  ∀ (i : Instr) (s : State) (x y : RangeName), x ∈ rangesUsed i → y ∈ rangesUsed i → x ≠ y →
    (∀ z ∈ rangesUsed i, Fits s z) → Share s x y →
    exec i s = .next (finished s .overlap .noStop { ResultRegs.zero with detail := .overlapD } s.hdr s.mem)

/-! ## The integer codec -/

/-- `fromSynchsafe` (R180): the low seven bits of each byte, packed, the first byte most significant; the result
is below 2^28, and bits 31, 23, 15 and 7 do not matter. A synchsafe field of four bytes has the value of its
big-endian word (R133). -/
def Obligations.SynchsafeDecodeArithmetic : Prop :=
  ∀ w : Word,
    (fromSynchsafe w).toNat = w.toNat / 2 ^ 24 % 128 * 2 ^ 21 + w.toNat / 2 ^ 16 % 128 * 2 ^ 14
      + w.toNat / 2 ^ 8 % 128 * 2 ^ 7 + w.toNat % 128
    ∧ (fromSynchsafe w).toNat < 2 ^ 28
    ∧ (∀ v : Word, v &&& 0x7F7F7F7F = w &&& 0x7F7F7F7F → fromSynchsafe v = fromSynchsafe w)
    ∧ ∀ a b c d : Byte, synchsafe [a, b, c, d] =
      a.toNat % 128 * 2 ^ 21 + b.toNat % 128 * 2 ^ 14 + c.toNat % 128 * 2 ^ 7 + d.toNat % 128

/-- The synchsafe law (R15): decoding undoes encoding on [0, 2^28), and the encoder forces the high bit of each
byte to 0 and discards bits 31:28. -/
def Obligations.SynchsafeLaw : Prop :=
  (∀ x : Word, x.toNat < 2 ^ 28 → fromSynchsafe (toSynchsafe x) = x)
    ∧ (∀ x : Word, toSynchsafe x &&& 0x80808080 = 0)
    ∧ ∀ x y : Word, x.extractLsb' 0 28 = y.extractLsb' 0 28 → toSynchsafe x = toSynchsafe y

/-- SSDEC (R181): RES0 is the synchsafe value of ARG0, in every state; nothing but the completion update
happens. -/
def Obligations.SsdecResult : Prop :=
  decode 0x00000001 = .ok .ssdec
    ∧ (∀ s : State, exec .ssdec s =
      .next (finished s .noError .noStop { ResultRegs.zero with res0 := fromSynchsafe s.opr.arg0 } s.hdr s.mem))
    ∧ fromSynchsafe 0 = 0 ∧ fromSynchsafe 0x7F7F7F7F = 0x0FFFFFFF ∧ fromSynchsafe 0xFFFFFFFF = 0x0FFFFFFF
    ∧ fromSynchsafe 0x80808080 = 0 ∧ fromSynchsafe 0x00000215 = 0x00000115

/-- `Resynchronize` (R182) keeps, in order, exactly the bytes that are not a 0x00 between 0xFF and a byte that is
0x00 or has its top three bits set; what is dropped is decided on the input alone, and the output is no longer. -/
def Obligations.ResynchronizeDropsExactlyTheStuffedZeros : Prop :=
  ∀ x : Bytes,
    resynchronize x = (List.range x.length).filterMap (fun i =>
      if 0 < i ∧ i + 1 < x.length ∧ byteAt x (i - 1) = 0xFF ∧ byteAt x i = 0x00
          ∧ (byteAt x (i + 1) = 0x00 ∨ byteAt x (i + 1) &&& 0xE0 = 0xE0) then none else x[i]?)
    ∧ (resynchronize x).length ≤ x.length

/-- The unsync law (R184): resynchronizing undoes unsynchronizing, for every byte sequence. -/
def Obligations.UnsyncLaw : Prop := ∀ x : Bytes, resynchronize (unsynchronize x) = x

/-- RESYNC (R183) of written bytes: RES0 the length of the resynchronized bytes, RES1 how many were dropped, in
every case; the bytes at DST_BASE, or CAPACITY with DST unwritten where they do not fit. -/
def Obligations.ResyncResult : Prop :=
  decode 0x00000002 = .ok .resync ∧
  ∀ (s : State) (xs : Bytes), Ready .resync s → SrcIs s xs →
    exec .resync s = .next (
      let y := resynchronize xs
      let r := { ResultRegs.zero with
        res0 := BitVec.ofNat 32 y.length, res1 := BitVec.ofNat 32 (xs.length - y.length) }
      if s.opr.dstCap.toNat < y.length then
        finished s .capacity .noStop { r with detail := .dstFull } s.hdr s.mem
      else finished s .noError .noStop r s.hdr (memSetRange s.mem s.opr.dstBase.toNat y))

/-- INFL (R192) of written bytes, whatever the fitted engine answers: INFLATE_FAIL, INFLATE_LEN and DST_FULL in
this order, each with RES0 0 and DST unwritten; else the decompressed bytes at DST_BASE and their length in RES0. -/
def Obligations.InflResult : Prop :=
  decode 0x00000003 = .ok .infl ∧
  ∀ (s : State) (c : Bytes), Ready .infl s → SrcIs s c →
    exec .infl s = .next (match Config.inflate c with
      | none =>
        finished s .corruptFrame .noStop { ResultRegs.zero with detail := .inflateFail } s.hdr s.mem
      | some d =>
        if d.length ≠ s.opr.arg0.toNat then
          finished s .corruptFrame .noStop { ResultRegs.zero with detail := .inflateLen } s.hdr s.mem
        else if s.opr.dstCap.toNat < s.opr.arg0.toNat then
          finished s .capacity .noStop { ResultRegs.zero with detail := .dstFull } s.hdr s.mem
        else finished s .noError .noStop { ResultRegs.zero with res0 := s.opr.arg0 } s.hdr
          (memSetRange s.mem s.opr.dstBase.toNat d))

/-! ## The header extractor -/

/-- The basic header's errors (R222, R237), of THDR and of PARSE alike: a bad marker or fewer than three bytes is
NOT_A_TAG, a good marker with fewer than ten bytes is TRUNCATED at the SRC length, a version byte other than 2, 3
and 4 is INVALID_VERSION at offset 3 with VER, REV and FLAGS written. -/
def Obligations.BasicHeaderErrors : Prop :=
  ∀ (i : Instr) (s : State), i = .thdr ∨ i = .parse → Ready i s →
    ((s.opr.srcLen.toNat < 3 ∨ ∃ m, m.length = 3 ∧ SrcStarts s m ∧ m ≠ [0x49, 0x44, 0x33]) →
      exec i s = .next (finished s .notATag .noStop { ResultRegs.zero with detail := .marker } HeaderRegs.zero
        s.mem))
    ∧ (SrcStarts s [0x49, 0x44, 0x33] → s.opr.srcLen.toNat < 10 →
      exec i s = .next (finished s .truncated .noStop
        { ResultRegs.zero with detail := .shortHeader, errOff := s.opr.srcLen } HeaderRegs.zero s.mem))
    ∧ ∀ (ver rev flags : Byte) (size : Bytes), size.length = 4 →
      SrcStarts s ([0x49, 0x44, 0x33, ver, rev, flags] ++ size) → ver ≠ 2 → ver ≠ 3 → ver ≠ 4 →
      exec i s = .next (finished s .invalidVersion .noStop { ResultRegs.zero with detail := .version, errOff := 3 }
        { HeaderRegs.zero with ver := ver, rev := rev, flags := flags } s.mem)

/-- THDR of a tag without an extended header, v2.2 with any flags among them (R222, R225, R236): the header group,
RES0 10 and RES1 the data size, which is the tag size. -/
def Obligations.ThdrBasicHeader : Prop :=
  ∀ (s : State) (ver : FrameVer) (rev flags : Byte) (size : Bytes), Ready .thdr s → size.length = 4 →
    SrcStarts s (tagHeaderBytes ver rev flags size) → (flags.getLsbD 6 = false ∨ ver = .v2) →
    exec .thdr s = .next (finished s .noError .noStop
      { ResultRegs.zero with res0 := 10, res1 := fromSynchsafe (beWord size) } (plainHeader ver rev flags size)
      s.mem)

/-- THDR of a v2.3 extended header (R226 to R228, R236): every field recorded, the CRC tracked when its flag is
set, the reported size 10 then and the size field otherwise, and CORRUPT_HEADER when the data size would be
negative. -/
def Obligations.ThdrExtendedHeaderV23 : Prop :=
  ∀ (s : State) (rev flags : Byte) (size : Bytes) (x : ExtV23Layout), Ready .thdr s → size.length = 4 →
    flags.getLsbD 6 = true → ExtV23Ok x →
    SrcStarts s (tagHeaderBytes .v3 rev flags size ++ extV23Bytes x) →
    exec .thdr s = .next (afterExtHeader s (extV23Regs s.opr.srcBase.toNat rev flags size x))

/-- THDR of a v2.4 extended header (R230 to R234, R236): the blocks recorded by length and address in their order,
the reported size the bytes decoded whatever the size field says, and CORRUPT_HEADER when the data size would be
negative. SRC ends below 2^32, so that every recorded address fits its register. -/
def Obligations.ThdrExtendedHeaderV24 : Prop :=
  ∀ (s : State) (rev flags : Byte) (size : Bytes) (x : ExtV24Layout), Ready .thdr s → size.length = 4 →
    flags.getLsbD 6 = true → ExtV24Ok x → s.opr.srcBase.toNat + s.opr.srcLen.toNat < 2 ^ 32 →
    SrcStarts s (tagHeaderBytes .v4 rev flags size ++ extV24Bytes x) →
    exec .thdr s = .next (afterExtHeader s (extV24Regs s.opr.srcBase.toNat rev flags size x))

/-- An extended header cut by the end of SRC, anywhere in it (R226, R230, R231, R237): TRUNCATED with SHORT_EXT at
the SRC length, the header group holding the fields decoded before the cut and zeros in the rest. For v2.4 the
addresses of the blocks before the cut are stated where SRC ends below 2^32 (log entry 8). -/
def Obligations.CutExtendedHeaderIsTruncated : Prop :=
  ∀ (s : State) (rev flags : Byte) (size bs : Bytes), Ready .thdr s → size.length = 4 →
    flags.getLsbD 6 = true → SrcIs s bs → 10 ≤ bs.length →
    let r := { ResultRegs.zero with detail := .shortExt, errOff := s.opr.srcLen }
    (∀ x, ExtV23Ok x → bs.length < (tagHeaderBytes .v3 rev flags size ++ extV23Bytes x).length →
      bs = (tagHeaderBytes .v3 rev flags size ++ extV23Bytes x).take bs.length →
      exec .thdr s = .next (finished s .truncated .noStop r (cutV23Regs rev flags size x bs.length) s.mem))
    ∧ ∀ x, ExtV24Ok x → bs.length < (tagHeaderBytes .v4 rev flags size ++ extV24Bytes x).length →
      bs = (tagHeaderBytes .v4 rev flags size ++ extV24Bytes x).take bs.length →
      let h := cutV24Regs s.opr.srcBase.toNat rev flags size x bs.length
      ∃ t, exec .thdr s = .next t ∧ t.status.err = .truncated ∧ t.status.stop = .noStop ∧ t.res = r ∧ t.mem = s.mem
        ∧ t.hdr = { h with updAddr := t.hdr.updAddr, crcAddr := t.hdr.crcAddr }
        ∧ (s.opr.srcBase.toNat + s.opr.srcLen.toNat < 2 ^ 32 → t = finished s .truncated .noStop r h s.mem)

/-- A v2.4 block whose length byte is above 128, the first, the second or the third block, after the blocks before
it (R231, R232, R237): CORRUPT_HEADER with EXT_BLOCK_LEN at the tag offset of that length byte, whether or not any
payload byte is there, the header group holding every field and block decoded before it and zeros in the rest. -/
def Obligations.LongBlockIsCorruptHeader : Prop :=
  ∀ (s : State) (rev flags l : Byte) (size : Bytes) (x : ExtV24Layout), Ready .thdr s → size.length = 4 →
    flags.getLsbD 6 = true → ExtV24Upto x → 128 < l.toNat →
    SrcStarts s (tagHeaderBytes .v4 rev flags size ++ extV24Bytes x ++ [l]) →
    exec .thdr s = .next (finished s .corruptHeader .noStop
      { ResultRegs.zero with
        detail := .extBlockLen, errOff := BitVec.ofNat 32 (10 + (extV24Bytes x).length) }
      { extV24Regs s.opr.srcBase.toNat rev flags size x with extOk := false, extSize := 0, extConsumed := 0 } s.mem)

/-! ## The frame-header decoder -/

/-- The flag dispatch (R129, R267): each bit of NFLAGS comes from the raw flag bit its version's column names. The
positions are the ones the spec supplies from general knowledge (log entry 12). Each bit of the byte is the flag of
its name. -/
def Obligations.FlagDispatchPositions : Prop :=
  (∀ n : NFlags, ∀ k < 8, (nflagsByte n).getLsbD k =
    ([n.dli, n.uns, n.enc, n.cmp, n.grp, n.ro, n.fap, n.tap] : List Bool).getD k false)
  ∧ ∀ f1 f2 : Byte,
    nflagsByte (flagDispatch .v2 f1 f2) = 0
    ∧ (∀ k < 8, (nflagsByte (flagDispatch .v3 f1 f2)).getLsbD k =
        ([false, false, f2.getLsbD 6, f2.getLsbD 7, f2.getLsbD 5, f1.getLsbD 5, f1.getLsbD 6,
          f1.getLsbD 7] : List Bool).getD k false)
    ∧ ∀ k < 8, (nflagsByte (flagDispatch .v4 f1 f2)).getLsbD k =
        ([f2.getLsbD 0, f2.getLsbD 1, f2.getLsbD 2, f2.getLsbD 3, f2.getLsbD 6, f1.getLsbD 4, f1.getLsbD 5,
          f1.getLsbD 6] : List Bool).getD k false

/-- A descriptor (R150, R289) is 64 bytes with its fields at the offsets of R150, numbers big-endian (R10). KIND is
0 GENERIC, 1 TEXT, 2 COMMENT, 3 HEADER_ONLY (R151), and VER is 2, 3 or 4. -/
def Obligations.DescriptorLayout : Prop :=
  ([.generic, .text, .comment, .headerOnly] : List FrameKind).map kindNum = [0, 1, 2, 3]
  ∧ ([.v2, .v3, .v4] : List FrameVer).map verNum = [2, 3, 4]
  ∧ (be [] = 0 ∧ ∀ (bs : Bytes) (b : Byte), be (bs ++ [b]) = 256 * be bs + b.toNat
      ∧ beWord bs = BitVec.ofNat 32 (be bs))
  ∧ ∀ (hd : FrameHeader) (cls : FrameClass) (off addr len : Nat), hd.ident.length = 4 → cls.lang.length = 3 →
    let b := descBytes hd cls off addr len
    b.length = 64 ∧ slice b 0 4 = hd.ident ∧ (byteAt b 4).toNat = kindNum cls.kind
    ∧ (byteAt b 5).toNat = verNum hd.ver ∧ byteAt b 6 = BitVec.ofNat 8 hd.hdrlen ∧ byteAt b 7 = nflagsByte hd.nf
    ∧ byteAt b 8 = hd.f1 ∧ byteAt b 9 = hd.f2 ∧ byteAt b 10 = hd.gid ∧ byteAt b 11 = hd.em
    ∧ be (slice b 12 16) = off % 2 ^ 32 ∧ be (slice b 16 20) = hd.size % 2 ^ 32
    ∧ be (slice b 20 24) = hd.dlen % 2 ^ 32 ∧ be (slice b 24 28) = addr % 2 ^ 32
    ∧ be (slice b 28 32) = len % 2 ^ 32 ∧ byteAt b 32 = cls.tenc ∧ slice b 33 36 = cls.lang
    ∧ be (slice b 36 40) = cls.f1 % 2 ^ 32 ∧ be (slice b 40 44) = cls.f2 % 2 ^ 32
    ∧ be (slice b 44 48) = cls.f3 % 2 ^ 32 ∧ be (slice b 48 52) = cls.f4 % 2 ^ 32
    ∧ allZero (slice b 52 64) = true

/-- FHDR of each version, on any frame header laid out as R124 to R126 say (R260, R266 to R269): the HEADER_ONLY
descriptor of exactly its fields at DESC_BASE, RES0 the header's length, RES1 1, STOP FRAME; with no room for a
descriptor CAPACITY and nothing written. That ERR_ID is 0 with CAPACITY is the model's reading (log entry 22). -/
def Obligations.FhdrWritesTheHeaderDescriptor : Prop :=
  ∀ (s : State) (l : HeaderLayout), LayoutOk l → Ready (fhdrOf l.ver) s → SrcStarts s (layoutBytes l) →
    exec (fhdrOf l.ver) s = .next (
      if s.opr.descCap = 0 then
        finished s .capacity .capacity { ResultRegs.zero with detail := .descFull } s.hdr s.mem
      else finished s .noError .frame
        { ResultRegs.zero with res0 := BitVec.ofNat 32 (layoutBytes l).length, res1 := 1 } s.hdr
        (memSetRange s.mem s.opr.descBase.toNat
          (descBytes (layoutHeader l) ⟨.headerOnly, 0, [0, 0, 0], 0, 0, 0, 0⟩ 0 0 0)))

/-- END and PADDING, of FHDR and FRAME alike (R262 to R265, R260, R280): no error, the bytes read in RES0, no
descriptor. A core is 6 bytes with a 3-byte identifier in v2.2, and 10 with 4 in v2.3 and v2.4. -/
def Obligations.EndAndPaddingStops : Prop :=
  ([.v2, .v3, .v4] : List FrameVer).map (fun v => (coreLen v, idLen v)) = [(6, 3), (10, 4), (10, 4)]
  ∧ ∀ (ver : FrameVer) (i : Instr) (s : State) (bs : Bytes) (r : StopReason) (used : Nat),
    i = fhdrOf ver ∨ i = frameOf ver → Ready i s → SrcIs s bs → EndsCleanly ver bs r used →
    exec i s = .next (finished s .noError r { ResultRegs.zero with res0 := BitVec.ofNat 32 used } s.hdr s.mem)

/-- A frame header cut by the end of SRC, of FHDR and FRAME alike (R263, R268, R269): TRUNCATED with
SHORT_FRAME_HEADER at offset 0, STOP TRUNCATED, ERR_ID the identifier where it had been read. -/
def Obligations.CutFrameHeaderIsTruncated : Prop :=
  ∀ (ver : FrameVer) (i : Instr) (s : State) (bs : Bytes) (id : Word),
    i = fhdrOf ver ∨ i = frameOf ver → Ready i s → SrcIs s bs → HeaderCut ver bs id →
    exec i s = .next (finished s .truncated .truncated
      { ResultRegs.zero with detail := .shortFrameHeader, errId := id } s.hdr s.mem)

/-! ## The frame decoder -/

/-- FRAME of a corrupt frame (R281, R282, R284 to R286, R280): CORRUPT_FRAME with the detail of the check that
failed, STOP CORRUPT, ERR_ID the identifier, nothing written. The size ceiling is 2^20, a literal the spec calls
unaudited (log entry 13). -/
def Obligations.CorruptFrameIsReported : Prop :=
  Config.frameSizeCeil = 2 ^ 20 ∧
  ∀ (ver : FrameVer) (s : State) (bs : Bytes) (d : Detail) (id : Word), Ready (frameOf ver) s → SrcIs s bs →
    FrameCorrupt ver bs d id →
    exec (frameOf ver) s = .next (finished s .corruptFrame .corrupt { ResultRegs.zero with detail := d, errId := id }
      s.hdr s.mem)

/-- FRAME of a payload cut short with an all-zero residue, the empty one among them: PADDING with RES0 the SRC
length (R282, R280). -/
def Obligations.ZeroResidueIsPadding : Prop :=
  ∀ (ver : FrameVer) (s : State) (bs : Bytes), Ready (frameOf ver) s → SrcIs s bs → ZeroResidue ver bs →
    exec (frameOf ver) s = .next (finished s .noError .padding { ResultRegs.zero with res0 := s.opr.srcLen }
      s.hdr s.mem)

/-- FRAME of an uncompressed frame, of each version (R280, R283, R285 to R290): the descriptor of its header and its
payload's class, PAY_ADDR where the payload stands in SRC, RES0 the bytes consumed, RES1 1, STOP FRAME; with no
room for a descriptor CAPACITY and nothing written. That ERR_ID is 0 with CAPACITY is the model's reading (log entry
22). -/
def Obligations.FrameWritesTheStoredFrameDescriptor : Prop :=
  ∀ (s : State) (ver : FrameVer) (f : RegionFrame), FrameOk ver f → packed f = false → Ready (frameOf ver) s →
    SrcStarts s (frameBytes f) →
    exec (frameOf ver) s = .next (
      if s.opr.descCap = 0 then
        finished s .capacity .capacity { ResultRegs.zero with detail := .descFull } s.hdr s.mem
      else finished s .noError .frame
        { ResultRegs.zero with res0 := BitVec.ofNat 32 (frameBytes f).length, res1 := 1 } s.hdr
        (memSetRange s.mem s.opr.descBase.toNat (frameDesc s.opr.srcBase.toNat 0 0 f)))

/-- FRAME of a compressed frame, whatever the fitted engine answers (R280, R283, R284, R290): an inflate failure or
a payload too short for its kind is CORRUPT_FRAME; then DESC_FULL, then PAY_FULL, each with nothing written; else
the inflated payload at PAY_BASE, the descriptor that points to it, and its length in RES2. That ERR_ID is 0 with
CAPACITY is the model's reading (log entry 22). -/
def Obligations.FrameInflatesTheCompressedFrame : Prop :=
  ∀ (s : State) (l : HeaderLayout) (raw : Bytes), LayoutOk l → Ready (frameOf l.ver) s →
    (layoutHeader l).nf.cmp = true → (l.ver = .v4 → (layoutHeader l).nf.dli = true) →
    (layoutHeader l).size = raw.length → raw.length < Config.frameSizeCeil →
    SrcStarts s (layoutBytes l ++ raw) →
    exec (frameOf l.ver) s = .next (
      let hd := layoutHeader l
      let corrupt (d : Detail) : State :=
        finished s .corruptFrame .corrupt { ResultRegs.zero with detail := d, errId := beWord hd.ident } s.hdr s.mem
      match Config.inflate raw with
      | none => corrupt .inflateFail
      | some d =>
        if d.length ≠ hd.dlen then corrupt .inflateLen
        else
          match classify hd.ident d with
          | .error dd => corrupt dd
          | .ok cls =>
            if s.opr.descCap = 0 then
              finished s .capacity .capacity { ResultRegs.zero with detail := .descFull } s.hdr s.mem
            else if s.opr.payCap.toNat < d.length then
              finished s .capacity .capacity { ResultRegs.zero with detail := .payFull } s.hdr s.mem
            else finished s .noError .frame
              { ResultRegs.zero with
                res0 := BitVec.ofNat 32 (hd.hdrlen + raw.length), res1 := 1, res2 := BitVec.ofNat 32 d.length }
              s.hdr
              (memSetRange (memSetRange s.mem s.opr.payBase.toNat d) s.opr.descBase.toNat
                (descBytes hd cls 0 s.opr.payBase.toNat d.length)))

/-- Classification (R285 to R287): an identifier that starts with `T` is a text frame and the test for it comes
first; one that starts with `COM` is a comment, whose description ends at the first 0x00 after the four-byte prefix
and is the whole rest where there is none; every other identifier is generic. Payloads shorter than the prefix
fail. -/
def Obligations.ClassificationOfPayloads : Prop :=
  ∀ a b c e : Byte,
    (a = 0x54 → classify [a, b, c, e] [] = .error .textShort
      ∧ ∀ enc text, classify [a, b, c, e] (enc :: text) =
        .ok ⟨.text, enc, [0, 0, 0], 1, text.length, 0, 0⟩)
    ∧ ([a, b, c] = [0x43, 0x4F, 0x4D] →
      (∀ d : Bytes, d.length < 4 → classify [a, b, c, e] d = .error .commentShort)
      ∧ ∀ (enc x y z : Byte) (desc text : Bytes), (∀ w ∈ desc, w ≠ 0) →
        classify [a, b, c, e] ([enc, x, y, z] ++ desc ++ [0x00] ++ text) =
          .ok ⟨.comment, enc, [x, y, z], 4, desc.length, desc.length + 5, text.length⟩
        ∧ classify [a, b, c, e] ([enc, x, y, z] ++ desc) =
          .ok ⟨.comment, enc, [x, y, z], 4, desc.length, desc.length + 4, 0⟩)
    ∧ (a ≠ 0x54 → [a, b, c] ≠ [0x43, 0x4F, 0x4D] → ∀ d, classify [a, b, c, e] d =
        .ok ⟨.generic, 0, [0, 0, 0], 0, 0, 0, 0⟩)

/-! ## The tag reader -/

/-- PARSE enumerates a tag (R229, R320 to R324): for a tag with or without an extended header whose frame region,
resynchronized when flag bit 7 says so, is any list of frames, uncompressed and compressed ones mixed, followed by
nothing or by padding, the region stands at DST_BASE, the inflated payloads one after another from PAY_BASE,
descriptor k at DESC_BASE + 64·k describes frame k, and RES0 to RES3, STOP, ERR_OFF, ERR_INFO and the header group
say so. Whether a compressed frame inflates is the fitted engine's (log entry 4). -/
def Obligations.ParseEnumeratesTheFrames : Prop :=
  ∀ (s : State) (h : TagLayout) (xs tail : Bytes) (fs : List RegionFrame) (r : StopReason) (used : Nat),
    ParseInput s h xs → FramesFit s h.ver fs → regionOf h.flags xs = regionBytes fs ++ tail →
    (EndsCleanly h.ver tail r used ∨ (ZeroResidue h.ver tail ∧ r = .padding ∧ used = tail.length)) →
    let region := regionOf h.flags xs
    exec .parse s = .next (finished s .noError r
      (if r = .padding then parseStopRes region.length fs used .noDetail 0 else parseRes region.length fs used)
      (tagRegs s.opr.srcBase.toNat h) (parsedMem s region fs))

/-- PARSE recovers from a bad frame (R323, R356): a cut frame header or a corrupt frame after any list of frames,
uncompressed and compressed ones mixed, ends the enumeration with ERR NONE, STOP TRUNCATED or CORRUPT, the detail,
the identifier and the region offset of the failing header, and every earlier descriptor and payload in place. -/
def Obligations.ParseKeepsTheFramesBeforeABadOne : Prop :=
  ∀ (s : State) (h : TagLayout) (xs tail : Bytes) (fs : List RegionFrame) (d : Detail) (id : Word),
    ParseInput s h xs → FramesFit s h.ver fs → regionOf h.flags xs = regionBytes fs ++ tail →
    ((tail ≠ [] ∧ HeaderCut h.ver tail id ∧ d = .shortFrameHeader) ∨ FrameCorrupt h.ver tail d id) →
    let region := regionOf h.flags xs
    exec .parse s = .next (finished s .noError (if d = .shortFrameHeader then .truncated else .corrupt)
      (parseStopRes region.length fs 0 d id) (tagRegs s.opr.srcBase.toNat h) (parsedMem s region fs))

/-- PARSE with no descriptor left for a frame (R323, R324): CAPACITY with DESC_FULL at the frame's region offset,
its identifier, STOP CAPACITY, and RES0 to RES3 valid with every descriptor and payload before it in place. -/
def Obligations.ParseStopsWhenDescriptorsRunOut : Prop :=
  ∀ (s : State) (h : TagLayout) (xs more : Bytes) (fs : List RegionFrame) (f : RegionFrame),
    ParseInput s h xs → FramesFit s h.ver fs → FrameOk h.ver f → fs.length = s.opr.descCap.toNat →
    regionOf h.flags xs = regionBytes fs ++ frameBytes f ++ more →
    let region := regionOf h.flags xs
    exec .parse s = .next (finished s .capacity .capacity
      (parseStopRes region.length fs 0 .descFull (beWord (layoutHeader f.layout).ident))
      (tagRegs s.opr.srcBase.toNat h) (parsedMem s region fs))

/-- PARSE comes to a compressed frame after any list of frames, whatever the fitted engine answers (R323, R324): a
failed inflate, a wrong length or a payload too short for its kind is recovered as CORRUPT; DESC_FULL comes before
PAY_FULL, which counts the PAY bytes of the frames before it; a frame that ends the region and fits leaves its
inflated payload at PAY_BASE plus those bytes, a descriptor that points there, their sum in RES3 and STOP END. -/
def Obligations.ParseInflatesACompressedFrame : Prop :=
  ∀ (s : State) (h : TagLayout) (xs raw more : Bytes) (fs : List RegionFrame) (l : HeaderLayout),
    ParseInput s h xs → FramesFit s h.ver fs → regionOf h.flags xs = regionBytes fs ++ (layoutBytes l ++ raw) ++ more →
    LayoutOk l → l.ver = h.ver → (layoutHeader l).nf.cmp = true →
    (l.ver = .v4 → (layoutHeader l).nf.dli = true) → (layoutHeader l).size = raw.length →
    raw.length < Config.frameSizeCeil →
    let region := regionOf h.flags xs
    let hd := layoutHeader l
    let stopped (e : ErrCode) (r : StopReason) (d : Detail) : Prop :=
      exec .parse s = .next (finished s e r (parseStopRes region.length fs 0 d (beWord hd.ident))
        (tagRegs s.opr.srcBase.toNat h) (parsedMem s region fs))
    match Config.inflate raw with
    | none => stopped .noError .corrupt .inflateFail
    | some d =>
      if d.length ≠ hd.dlen then stopped .noError .corrupt .inflateLen
      else
        match classify hd.ident d with
        | .error dd => stopped .noError .corrupt dd
        | .ok cls =>
          if fs.length = s.opr.descCap.toNat then stopped .capacity .capacity .descFull
          else if s.opr.payCap.toNat < payUsed fs + d.length then stopped .capacity .capacity .payFull
          else more = [] → exec .parse s = .next (finished s .noError .regionEnd
            { ResultRegs.zero with
              res0 := BitVec.ofNat 32 (fs.length + 1), res1 := BitVec.ofNat 32 region.length,
              res2 := BitVec.ofNat 32 region.length, res3 := BitVec.ofNat 32 (payUsed fs + d.length) }
            (tagRegs s.opr.srcBase.toNat h)
            (memSetRange (memSetRange (parsedMem s region fs) (s.opr.payBase.toNat + payUsed fs) d)
              (s.opr.descBase.toNat + 64 * fs.length)
              (descBytes hd cls (regionBytes fs).length (s.opr.payBase.toNat + payUsed fs) d.length)))

/-- PARSE decodes the tag header as THDR does (R321, R322): where THDR ends in an error, PARSE ends in the very same
state; where it succeeds, PARSE checks the region against SRC (SHORT_REGION), then its resynchronized bytes against
DST (DST_FULL), with THDR's header group; and past both checks, however the enumeration ends, it leaves THDR's
header group, the region's length in RES1 and its bytes at DST_BASE, with an error only where that is CAPACITY. The
two runs start in one state. Where they read header bytes that nothing has written, or record the address 2^32, that
they agree is the model's choice: its draws are opaque constants at a counter, so both runs draw the same values (log
entries 2 and 8), where the spec leaves every draw independent (R83). Flag bit 7 is the unsynchronization flag of log
entry 12. -/
def Obligations.ParseDecodesTheHeaderAsThdr : Prop :=
  ∀ s th : State, Ready .parse s → exec .thdr s = .next th →
    (th.status.err ≠ .noError → exec .parse s = .next th)
    ∧ (th.status.err = .noError →
      (s.opr.srcLen.toNat < th.res.res0.toNat + th.res.res1.toNat →
        exec .parse s = .next (finished th .truncated .noStop
          { ResultRegs.zero with detail := .shortRegion, errOff := s.opr.srcLen } th.hdr s.mem))
      ∧ ∀ xs : Bytes, Holds s.mem (s.opr.srcBase.toNat + th.res.res0.toNat) xs →
        xs.length = th.res.res1.toNat → th.res.res0.toNat + xs.length ≤ s.opr.srcLen.toNat →
        let region := regionOf th.hdr.flags xs
        if s.opr.dstCap.toNat < region.length then
          exec .parse s = .next (finished th .capacity .noStop
            { ResultRegs.zero with res1 := BitVec.ofNat 32 region.length, detail := .dstFull } th.hdr s.mem)
        else ∃ t, exec .parse s = .next t ∧ t.hdr = th.hdr ∧ t.res.res1 = BitVec.ofNat 32 region.length
          ∧ Holds t.mem s.opr.dstBase.toNat region
          ∧ (t.status.err = .noError ∨ (t.status.err = .capacity ∧ t.status.stop = .capacity)))

/-! ## What a command leaves alone, and what it can report -/

/-- Only the registers of its row of R53: the header group is written by THDR and PARSE alone, a result register
that a command does not name reads 0 after it (R37), and a command that ends with RANGE or OVERLAP writes no
header group and no memory. -/
def Obligations.CommandsWriteOnlyTheirRegisters : Prop :=
  ∀ (i : Instr) (s t : State), exec i s = .next t →
    (i ≠ .thdr → i ≠ .parse → t.hdr = s.hdr)
    ∧ (i = .ssdec ∨ i = .infl → t.res.res1 = 0 ∧ t.res.res2 = 0 ∧ t.res.res3 = 0)
    ∧ (i = .resync ∨ i = .thdr ∨ (∃ v, i = fhdrOf v) → t.res.res2 = 0 ∧ t.res.res3 = 0)
    ∧ ((∃ v, i = frameOf v) → t.res.res3 = 0)
    ∧ (t.status.err = .range ∨ t.status.err = .overlap → t.hdr = s.hdr ∧ t.mem = s.mem)

/-- The memory frame of every command but PARSE (R53): SSDEC and THDR store nothing; RESYNC and INFL store to the
RES0 bytes from DST_BASE and, ending in an error, nothing; FHDR stores to the RES1 descriptors from DESC_BASE, and
FRAME to those and to the RES2 bytes from PAY_BASE. Every other byte reads as before. -/
def Obligations.CommandsStoreOnlyTheirOutputs : Prop :=
  ∀ (i : Instr) (s t : State) (a : Nat), exec i s = .next t →
    (i = .ssdec ∨ i = .thdr → memGet t.mem a = memGet s.mem a)
    ∧ (i = .resync ∨ i = .infl →
      t.status.err ≠ .noError ∨ ¬(s.opr.dstBase.toNat ≤ a ∧ a < s.opr.dstBase.toNat + t.res.res0.toNat) →
      memGet t.mem a = memGet s.mem a)
    ∧ ((∃ v, i = fhdrOf v) →
      ¬(s.opr.descBase.toNat ≤ a ∧ a < s.opr.descBase.toNat + 64 * t.res.res1.toNat) →
      memGet t.mem a = memGet s.mem a)
    ∧ ((∃ v, i = frameOf v) →
      ¬(s.opr.descBase.toNat ≤ a ∧ a < s.opr.descBase.toNat + 64 * t.res.res1.toNat) →
      ¬(s.opr.payBase.toNat ≤ a ∧ a < s.opr.payBase.toNat + t.res.res2.toNat) →
      memGet t.mem a = memGet s.mem a)

/-- The memory frame of PARSE (R53, R320 to R324): a PARSE that ends with an error and STOP NONE, before its
enumeration, stores nothing; any other stores to the RES1 bytes from DST_BASE, the RES0 descriptors from DESC_BASE
and the RES3 bytes from PAY_BASE, and every other byte reads as before, whatever ends it. -/
def Obligations.ParseStoresOnlyItsOutputs : Prop :=
  ∀ (s t : State) (a : Nat), exec .parse s = .next t →
    (t.status.err ≠ .noError → t.status.stop = .noStop → memGet t.mem a = memGet s.mem a)
    ∧ (¬(s.opr.dstBase.toNat ≤ a ∧ a < s.opr.dstBase.toNat + t.res.res1.toNat) →
      ¬(s.opr.descBase.toNat ≤ a ∧ a < s.opr.descBase.toNat + 64 * t.res.res0.toNat) →
      ¬(s.opr.payBase.toNat ≤ a ∧ a < s.opr.payBase.toNat + t.res.res3.toNat) →
      memGet t.mem a = memGet s.mem a)

/-- The errors each command can end with (R350), by the numbers of R350. -/
def Obligations.ErrorsByCommand : Prop :=
  ([.noError, .notATag, .invalidVersion, .corruptHeader, .corruptFrame, .truncated, .capacity, .range, .overlap,
      .illegalCmd] : List ErrCode).map errNum = List.range 10
    ∧ ∀ (i : Instr) (s t : State), exec i s = .next t → errNum t.status.err ∈
      match i with
      | .ssdec => [0]
      | .resync => [0, 6, 7, 8]
      | .infl => [0, 4, 6, 7, 8]
      | .thdr => [0, 1, 2, 3, 5, 7]
      | .fhdrV2 => [0, 5, 6, 7, 8]
      | .fhdrV3 => [0, 5, 6, 7, 8]
      | .fhdrV4 => [0, 5, 6, 7, 8]
      | .frameV2 => [0, 4, 5, 6, 7, 8]
      | .frameV3 => [0, 4, 5, 6, 7, 8]
      | .frameV4 => [0, 4, 5, 6, 7, 8]
      | .parse => [0, 1, 2, 3, 5, 6, 7, 8]

/-- The stop reasons (R356), by their numbers: commands that decode no frame leave STOP NONE; FHDR and FRAME stop
with FRAME exactly when they made a descriptor, and with TRUNCATED, CORRUPT or CAPACITY exactly when that is their
error; PARSE without an error stops with END, PADDING, CORRUPT or TRUNCATED, and with one, with NONE or CAPACITY. -/
def Obligations.StopReasonsByCommand : Prop :=
  ([.noStop, .frame, .regionEnd, .padding, .corrupt, .truncated, .capacity] : List StopReason).map stopNum
      = List.range 7
    ∧ ∀ (i : Instr) (s t : State), exec i s = .next t →
      (i = .ssdec ∨ i = .resync ∨ i = .infl ∨ i = .thdr → t.status.stop = .noStop)
      ∧ ((∃ v, i = fhdrOf v ∨ i = frameOf v) →
        (t.status.stop = .frame ↔ t.res.res1 = 1) ∧ (t.status.stop = .truncated ↔ t.status.err = .truncated)
        ∧ (t.status.stop = .corrupt ↔ t.status.err = .corruptFrame)
        ∧ (t.status.stop = .capacity ↔ t.status.err = .capacity)
        ∧ (t.status.stop = .noStop ↔ t.status.err = .range ∨ t.status.err = .overlap))
      ∧ (i = .parse →
        (t.status.err = .noError → t.status.stop ∈ [StopReason.regionEnd, .padding, .corrupt, .truncated])
        ∧ (t.status.err ≠ .noError → t.status.stop ∈ [StopReason.noStop, .capacity]))

/-- Every error comes with a detail of its row of R352, by number, and a command without an error has detail NONE,
but for a PARSE that recovered from a frame-level failure. The numbers are those of R352. Without an error and with
STOP NONE, FRAME or END, ERR_OFF and ERR_ID are 0 (R38). -/
def Obligations.DetailsByError : Prop :=
  ([.noDetail, .marker, .version, .extBlockLen, .dataSizeNeg, .shortHeader, .shortExt, .shortRegion,
      .shortFrameHeader, .sizeSanity, .shortPayload, .noDli, .inflateFail, .inflateLen, .textShort, .commentShort,
      .dstFull, .descFull, .payFull, .badOp, .badVer, .reservedBits, .rangeSrc, .rangeDst, .rangeDesc, .rangePay,
      .overlapD] : List Detail).map detailNum = List.range 27
  ∧ ∀ (i : Instr) (s t : State), exec i s = .next t →
    (t.status.err ≠ .noError → detailNum t.res.detail ∈
      match t.status.err with
      | .noError => []
      | .notATag => [1]
      | .invalidVersion => [2]
      | .corruptHeader => [3, 4]
      | .truncated => [5, 6, 7, 8]
      | .corruptFrame => [9, 10, 11, 12, 13, 14, 15]
      | .capacity => [16, 17, 18]
      | .illegalCmd => [19, 20, 21]
      | .range => [22, 23, 24, 25]
      | .overlap => [26])
    ∧ (t.status.err = .noError →
      if i = .parse ∧ (t.status.stop = .corrupt ∨ t.status.stop = .truncated) then
        detailNum t.res.detail ∈ [8, 9, 10, 11, 12, 13, 14, 15]
      else t.res.detail = .noDetail)
    ∧ (t.status.err = .noError → t.status.stop ∈ [StopReason.noStop, .frame, .regionEnd] →
      t.res.errOff = 0 ∧ t.res.errId = 0 ∧ t.res.region = false)

/-! ## The invariant -/

/-- Every step keeps the invariant, from every state that meets it: buffer memory canonical and inside MEM_SIZE
(R80), BUSY and DONE never both 1 (R33, R34, R52), and the header group coherent (R42 to R48, R236, R237). -/
def Obligations.StepKeepsInv : Prop := ∀ s t : State, Inv s → step s = .next t → Inv t

/-- The invariant holds after power-on reset (R392). -/
def Obligations.ResetMeetsInv : Prop := Inv State.reset
end

