-- ==== Sys2Proof/Laws/Memory.lean ====
section
/-! SUPPORT. The laws of buffer memory: a read after a write, what a write leaves alone, and that every memory
operation keeps the canonical form and the bound MEM_SIZE. -/

namespace Sys2Proof.Machine

open Sys2Proof (Word Byte Bytes)

/-! ## One byte -/

@[simp] theorem memGet_nil (a : Nat) : memGet [] a = none := rfl

theorem memGet_memSet_self (m : Memory) (a : Nat) (b : Byte) : memGet (memSet m a b) a = some b := by
  induction m with
  | nil => simp [memSet, memGet]
  | cons c rest ih =>
    obtain ⟨k, v⟩ := c
    simp only [memSet]
    split
    · simp [memGet]
    · split
      · simp [memGet]
      · rename_i h1 h2
        simp only [memGet, if_neg (Ne.symm h2), ih]

theorem memGet_memSet_other (m : Memory) {a a' : Nat} (b : Byte) (h : a' ≠ a) :
    memGet (memSet m a b) a' = memGet m a' := by
  induction m with
  | nil => simp [memSet, memGet, Ne.symm h]
  | cons c rest ih =>
    obtain ⟨k, v⟩ := c
    simp only [memSet]
    split
    · simp [memGet, Ne.symm h]
    · split
      · rename_i h1 h2
        subst h2
        simp [memGet, Ne.symm h]
      · simp only [memGet, ih]

/-- A read after a write, at any two addresses. -/
theorem memGet_memSet (m : Memory) (a a' : Nat) (b : Byte) :
    memGet (memSet m a b) a' = if a' = a then some b else memGet m a' := by
  split
  · rename_i h; subst h; exact memGet_memSet_self m a' b
  · rename_i h; exact memGet_memSet_other m b h

/-! ## Consecutive bytes -/

theorem memGet_memSetRange_below (m : Memory) (bs : Bytes) {a a' : Nat} (h : a' < a) :
    memGet (memSetRange m a bs) a' = memGet m a' := by
  induction bs generalizing m a with
  | nil => rfl
  | cons b bs ih => simp only [memSetRange]; rw [ih _ (by omega), memGet_memSet_other _ _ (by omega)]

theorem memGet_memSetRange_outside (m : Memory) (bs : Bytes) {a a' : Nat} (h : a' < a ∨ a + bs.length ≤ a') :
    memGet (memSetRange m a bs) a' = memGet m a' := by
  induction bs generalizing m a with
  | nil => rfl
  | cons b bs ih =>
    simp only [List.length_cons] at h
    simp only [memSetRange]
    rw [ih _ (by omega), memGet_memSet_other _ _ (by omega)]

theorem memGet_memSetRange_inside (m : Memory) (bs : Bytes) {a i : Nat} (h : i < bs.length) :
    memGet (memSetRange m a bs) (a + i) = some bs[i] := by
  induction bs generalizing m a i with
  | nil => simp at h
  | cons b bs ih =>
    simp only [memSetRange]
    cases i with
    | zero => simp [memGet_memSetRange_below _ _ (Nat.lt_succ_self a), memGet_memSet_self]
    | succ i =>
      have h' : i < bs.length := by simpa using h
      have := ih (memSet m a b) (a := a + 1) h'
      rw [show a + (i + 1) = a + 1 + i by omega, this]
      simp

theorem memGetRange_eq_some {m : Memory} {a n : Nat} {bs : Bytes} :
    memGetRange m a n = some bs ↔ bs.length = n ∧ ∀ i (h : i < bs.length), memGet m (a + i) = some bs[i] := by
  induction n generalizing a bs with
  | zero =>
    simp only [memGetRange, Option.some.injEq]
    constructor
    · rintro rfl; simp
    · rintro ⟨h, -⟩; exact (List.length_eq_zero_iff.mp h).symm
  | succ n ih =>
    simp only [memGetRange]
    constructor
    · intro h
      split at h
      · rename_i b bs' hb hbs
        obtain rfl := Option.some.inj h
        obtain ⟨hl, hi⟩ := ih.mp hbs
        refine ⟨by simp [hl], fun i h => ?_⟩
        cases i with
        | zero => simpa using hb
        | succ i =>
          have := hi i (by simpa using h)
          rw [show a + (i + 1) = a + 1 + i by omega, this]
          simp
      · simp at h
    · rintro ⟨hl, hi⟩
      cases bs with
      | nil => simp at hl
      | cons b bs =>
        have h0 : memGet m a = some b := hi 0 (by simp)
        have h1 : memGetRange m (a + 1) n = some bs := ih.mpr
          ⟨by simpa using hl, fun i h => by
            have := hi (i + 1) (by simpa using h)
            rw [show a + 1 + i = a + (i + 1) by omega, this]
            simp⟩
        simp [h0, h1]

theorem memGetRange_length {m : Memory} {a n : Nat} {bs : Bytes} (h : memGetRange m a n = some bs) :
    bs.length = n := (memGetRange_eq_some.mp h).1

/-- What has just been written reads back. -/
theorem memGetRange_memSetRange_self (m : Memory) (a : Nat) (bs : Bytes) :
    memGetRange (memSetRange m a bs) a bs.length = some bs :=
  memGetRange_eq_some.mpr ⟨rfl, fun _ h => memGet_memSetRange_inside m bs h⟩

/-- A write to other addresses leaves a run of bytes alone. -/
theorem memGetRange_memSetRange_disjoint (m : Memory) {a n c : Nat} {bs ws : Bytes}
    (h : memGetRange m a n = some bs) (hd : a + n ≤ c ∨ c + ws.length ≤ a) :
    memGetRange (memSetRange m c ws) a n = some bs := by
  obtain ⟨hl, hi⟩ := memGetRange_eq_some.mp h
  exact memGetRange_eq_some.mpr
    ⟨hl, fun i hlt => by rw [memGet_memSetRange_outside _ _ (by omega)]; exact hi i hlt⟩

/-- Part of a run of written bytes. -/
theorem memGetRange_part {m : Memory} {a n : Nat} {bs : Bytes} (h : memGetRange m a n = some bs)
    (i k : Nat) (hk : i + k ≤ n) : memGetRange m (a + i) k = some ((bs.drop i).take k) := by
  obtain ⟨hl, hi⟩ := memGetRange_eq_some.mp h
  refine memGetRange_eq_some.mpr ⟨by simp; omega, fun j hj => ?_⟩
  have hj' : j < k := by simp at hj; omega
  rw [Nat.add_assoc, hi (i + j) (by omega)]
  simp

/-! ## The canonical form -/

theorem memSet_lower {m : Memory} {a : Nat} {b : Byte} {k : Nat} (hm : ∀ c ∈ m, k < c.1) (ha : k < a) :
    ∀ c ∈ memSet m a b, k < c.1 := by
  induction m with
  | nil => simpa [memSet] using ha
  | cons c rest ih =>
    obtain ⟨k', v⟩ := c
    have hk' : k < k' := hm (k', v) (by simp)
    have hrest : ∀ c ∈ rest, k < c.1 := fun c hc => hm c (by simp [hc])
    simp only [memSet]
    split
    · rintro c hc
      simp only [List.mem_cons] at hc
      rcases hc with rfl | rfl | hc
      exacts [ha, hk', hrest c hc]
    · split
      · rintro c hc
        simp only [List.mem_cons] at hc
        rcases hc with rfl | hc
        exacts [ha, hrest c hc]
      · rintro c hc
        simp only [List.mem_cons] at hc
        rcases hc with rfl | hc
        exacts [hk', ih hrest c hc]

theorem memSet_wf {m : Memory} (a : Nat) (b : Byte) (h : Memory.wf m = true) : Memory.wf (memSet m a b) = true := by
  simp only [Memory.wf, decide_eq_true_eq] at h ⊢
  induction m with
  | nil => simp [memSet]
  | cons c rest ih =>
    obtain ⟨k, v⟩ := c
    obtain ⟨hk, hrest⟩ := List.pairwise_cons.mp h
    simp only [memSet]
    split
    · rename_i hak
      refine List.pairwise_cons.mpr ⟨?_, h⟩
      intro c hc
      simp only [List.mem_cons] at hc
      rcases hc with rfl | hc
      · exact hak
      · exact Nat.lt_trans hak (hk c hc)
    · split
      · rename_i h1 h2
        subst h2
        exact List.pairwise_cons.mpr ⟨hk, hrest⟩
      · rename_i h1 h2
        exact List.pairwise_cons.mpr ⟨memSet_lower hk (by simp only; omega), ih hrest⟩

theorem memSetRange_wf {m : Memory} (a : Nat) (bs : Bytes) (h : Memory.wf m = true) :
    Memory.wf (memSetRange m a bs) = true := by
  induction bs generalizing m a with
  | nil => exact h
  | cons b bs ih => exact ih _ (memSet_wf a b h)

theorem memSet_within {ms : Nat} {m : Memory} {a : Nat} (b : Byte) (ha : a < ms)
    (h : Memory.within ms m = true) : Memory.within ms (memSet m a b) = true := by
  simp only [Memory.within, List.all_eq_true, decide_eq_true_eq] at h ⊢
  induction m with
  | nil => simpa [memSet] using ha
  | cons c rest ih =>
    obtain ⟨k, v⟩ := c
    have hk : k < ms := h (k, v) (by simp)
    have hrest : ∀ c ∈ rest, c.1 < ms := fun c hc => h c (by simp [hc])
    simp only [memSet]
    split
    · rintro c hc
      simp only [List.mem_cons] at hc
      rcases hc with rfl | rfl | hc
      exacts [ha, hk, hrest c hc]
    · split
      · rintro c hc
        simp only [List.mem_cons] at hc
        rcases hc with rfl | hc
        exacts [ha, hrest c hc]
      · rintro c hc
        simp only [List.mem_cons] at hc
        rcases hc with rfl | hc
        exacts [hk, ih hrest c hc]

theorem memSetRange_within {ms : Nat} {m : Memory} {a : Nat} (bs : Bytes) (ha : bs.length = 0 ∨ a + bs.length ≤ ms)
    (h : Memory.within ms m = true) : Memory.within ms (memSetRange m a bs) = true := by
  induction bs generalizing m a with
  | nil => exact h
  | cons b bs ih =>
    simp only [List.length_cons] at ha
    exact ih (by omega) (memSet_within b (by omega) h)

end Sys2Proof.Machine
end

