-- ==== Sys2Proof/Laws/State.lean ====
section
/-! SUPPORT. One lemma per field per named update of the state and of a running command, each true by unfolding
once, so that no later proof opens a record update. -/

namespace Sys2Proof.Machine

open Sys2Proof (Word Byte Bytes)

/-! ## `startRun` -/

@[simp] theorem startRun_mem (s : State) : (startRun s).mem = s.mem := rfl
@[simp] theorem startRun_draws (s : State) : (startRun s).draws = s.draws := rfl
@[simp] theorem startRun_res (s : State) : (startRun s).res = ResultRegs.zero := rfl
@[simp] theorem startRun_err (s : State) : (startRun s).err = .noError := rfl
@[simp] theorem startRun_stop (s : State) : (startRun s).stop = .noStop := rfl
@[simp] theorem startRun_hdr (s : State) : (startRun s).hdr = s.hdr := rfl

/-! ## `complete` (R52) -/

@[simp] theorem complete_ie (s : State) (r : Run) : (complete s r).ie = s.ie := rfl
@[simp] theorem complete_cmd (s : State) (r : Run) : (complete s r).cmd = s.cmd := rfl
@[simp] theorem complete_opr (s : State) (r : Run) : (complete s r).opr = s.opr := rfl
@[simp] theorem complete_memLast (s : State) (r : Run) : (complete s r).memLast = s.memLast := rfl
@[simp] theorem complete_rdata (s : State) (r : Run) : (complete s r).rdata = s.rdata := rfl
@[simp] theorem complete_agenda (s : State) (r : Run) : (complete s r).agenda = s.agenda := rfl
@[simp] theorem complete_mem (s : State) (r : Run) : (complete s r).mem = r.mem := rfl
@[simp] theorem complete_draws (s : State) (r : Run) : (complete s r).draws = r.draws := rfl
@[simp] theorem complete_res (s : State) (r : Run) : (complete s r).res = r.res := rfl
@[simp] theorem complete_hdr (s : State) (r : Run) : (complete s r).hdr = r.hdr := rfl
@[simp] theorem complete_busy (s : State) (r : Run) : (complete s r).status.busy = false := rfl
@[simp] theorem complete_done (s : State) (r : Run) : (complete s r).status.done = true := rfl
@[simp] theorem complete_wign (s : State) (r : Run) : (complete s r).status.wign = s.status.wign := rfl
@[simp] theorem complete_err (s : State) (r : Run) : (complete s r).status.err = r.err := rfl
@[simp] theorem complete_stop (s : State) (r : Run) : (complete s r).status.stop = r.stop := rfl

/-! ## `acceptCommand` (R34) -/

@[simp] theorem acceptCommand_cmd (w : Word) (s : State) : (acceptCommand w s).cmd = w := rfl
@[simp] theorem acceptCommand_busy (w : Word) (s : State) : (acceptCommand w s).status.busy = true := rfl
@[simp] theorem acceptCommand_done (w : Word) (s : State) : (acceptCommand w s).status.done = false := rfl
@[simp] theorem acceptCommand_wign (w : Word) (s : State) :
    (acceptCommand w s).status.wign = s.status.wign := rfl
@[simp] theorem acceptCommand_err (w : Word) (s : State) : (acceptCommand w s).status.err = s.status.err := rfl
@[simp] theorem acceptCommand_stop (w : Word) (s : State) :
    (acceptCommand w s).status.stop = s.status.stop := rfl
@[simp] theorem acceptCommand_ie (w : Word) (s : State) : (acceptCommand w s).ie = s.ie := rfl
@[simp] theorem acceptCommand_opr (w : Word) (s : State) : (acceptCommand w s).opr = s.opr := rfl
@[simp] theorem acceptCommand_res (w : Word) (s : State) : (acceptCommand w s).res = s.res := rfl
@[simp] theorem acceptCommand_hdr (w : Word) (s : State) : (acceptCommand w s).hdr = s.hdr := rfl
@[simp] theorem acceptCommand_mem (w : Word) (s : State) : (acceptCommand w s).mem = s.mem := rfl
@[simp] theorem acceptCommand_memLast (w : Word) (s : State) : (acceptCommand w s).memLast = s.memLast := rfl
@[simp] theorem acceptCommand_draws (w : Word) (s : State) : (acceptCommand w s).draws = s.draws := rfl
@[simp] theorem acceptCommand_agenda (w : Word) (s : State) : (acceptCommand w s).agenda = s.agenda := rfl
@[simp] theorem acceptCommand_rdata (w : Word) (s : State) : (acceptCommand w s).rdata = s.rdata := rfl

/-! ## `writeStatus` (R33) -/

@[simp] theorem writeStatus_busy (v : Word) (s : State) : (writeStatus v s).status.busy = s.status.busy := rfl
@[simp] theorem writeStatus_done (v : Word) (s : State) :
    (writeStatus v s).status.done = (s.status.done && !v.getLsbD 1) := rfl
@[simp] theorem writeStatus_wign (v : Word) (s : State) :
    (writeStatus v s).status.wign = (s.status.wign && !v.getLsbD 2) := rfl
@[simp] theorem writeStatus_err (v : Word) (s : State) : (writeStatus v s).status.err = s.status.err := rfl
@[simp] theorem writeStatus_stop (v : Word) (s : State) : (writeStatus v s).status.stop = s.status.stop := rfl
@[simp] theorem writeStatus_mem (v : Word) (s : State) : (writeStatus v s).mem = s.mem := rfl
@[simp] theorem writeStatus_hdr (v : Word) (s : State) : (writeStatus v s).hdr = s.hdr := rfl
@[simp] theorem writeStatus_memLast (v : Word) (s : State) : (writeStatus v s).memLast = s.memLast := rfl

/-! ## `resetRegisters` (R392) and `abortRunning` (R391) -/

@[simp] theorem resetRegisters_mem (s : State) : (resetRegisters s).mem = s.mem := rfl
@[simp] theorem resetRegisters_draws (s : State) : (resetRegisters s).draws = s.draws := rfl
@[simp] theorem resetRegisters_memLast (s : State) : (resetRegisters s).memLast = s.memLast := rfl
@[simp] theorem resetRegisters_rdata (s : State) : (resetRegisters s).rdata = s.rdata := rfl
@[simp] theorem resetRegisters_agenda (s : State) : (resetRegisters s).agenda = s.agenda := rfl
@[simp] theorem resetRegisters_ie (s : State) : (resetRegisters s).ie = false := rfl
@[simp] theorem resetRegisters_status (s : State) : (resetRegisters s).status = Status.zero := rfl
@[simp] theorem resetRegisters_cmd (s : State) : (resetRegisters s).cmd = 0 := rfl
@[simp] theorem resetRegisters_opr (s : State) : (resetRegisters s).opr = OperandRegs.zero := rfl
@[simp] theorem resetRegisters_res (s : State) : (resetRegisters s).res = ResultRegs.zero := rfl
@[simp] theorem resetRegisters_hdr (s : State) : (resetRegisters s).hdr = HeaderRegs.zero := rfl

/-- The abort changes memory and the draw counter and nothing else. -/
theorem abortRunning_eq (s : State) :
    abortRunning s = { s with mem := (abortRunning s).mem, draws := (abortRunning s).draws } := by
  unfold abortRunning
  split <;> rfl

@[simp] theorem abortRunning_memLast (s : State) : (abortRunning s).memLast = s.memLast := by
  rw [abortRunning_eq]
@[simp] theorem abortRunning_agenda (s : State) : (abortRunning s).agenda = s.agenda := by
  rw [abortRunning_eq]
@[simp] theorem abortRunning_rdata (s : State) : (abortRunning s).rdata = s.rdata := by
  rw [abortRunning_eq]

@[simp] theorem softReset_ie (b : Bool) (s : State) : (softReset b s).ie = b := rfl
@[simp] theorem softReset_status (b : Bool) (s : State) : (softReset b s).status = Status.zero := rfl
@[simp] theorem softReset_cmd (b : Bool) (s : State) : (softReset b s).cmd = 0 := rfl
@[simp] theorem softReset_opr (b : Bool) (s : State) : (softReset b s).opr = OperandRegs.zero := rfl
@[simp] theorem softReset_res (b : Bool) (s : State) : (softReset b s).res = ResultRegs.zero := rfl
@[simp] theorem softReset_hdr (b : Bool) (s : State) : (softReset b s).hdr = HeaderRegs.zero := rfl
@[simp] theorem softReset_mem (b : Bool) (s : State) : (softReset b s).mem = (abortRunning s).mem := rfl
@[simp] theorem softReset_memLast (b : Bool) (s : State) : (softReset b s).memLast = s.memLast := by
  simp [softReset]
@[simp] theorem softReset_agenda (b : Bool) (s : State) : (softReset b s).agenda = s.agenda := by
  simp [softReset]

@[simp] theorem powerOnReset_mem (s : State) : (powerOnReset s).mem = [] := rfl
@[simp] theorem powerOnReset_status (s : State) : (powerOnReset s).status = Status.zero := rfl
@[simp] theorem powerOnReset_hdr (s : State) : (powerOnReset s).hdr = HeaderRegs.zero := rfl
@[simp] theorem powerOnReset_memLast (s : State) : (powerOnReset s).memLast = s.memLast := rfl
@[simp] theorem powerOnReset_agenda (s : State) : (powerOnReset s).agenda = s.agenda := rfl

@[simp] theorem memSize_complete (s : State) (r : Run) : memSize (complete s r) = memSize s := rfl

end Sys2Proof.Machine
end

