-- ==== Sys2Proof/Laws/Ops.lean ====
section
/-! SUPPORT. How a command's pseudocode runs: one equation per engine operation, the rule for sequences, and a
small Hoare rule (`Sat`) that says of a program that it never gets stuck and what it leaves. -/

namespace Sys2Proof.Machine

open Sys2Proof (Word Byte Bytes)

/-! ## Equations -/

@[simp] theorem eng_pure {α : Type} (x : α) (r : Run) : (pure x : Eng α) r = .ok x r := rfl

theorem eng_bind {α β : Type} (m : Eng α) (f : α → Eng β) (r : Run) :
    (m >>= f) r = match m r with
      | .ok x r' => f x r'
      | .error e r' => .error e r' := by
  show EStateM.bind m f r = _
  unfold EStateM.bind
  cases m r <;> rfl

theorem eng_bind_ok {α β : Type} {m : Eng α} {f : α → Eng β} {r r' : Run} {x : α} (h : m r = .ok x r') :
    (m >>= f) r = f x r' := by rw [eng_bind, h]

theorem eng_bind_error {α β : Type} {m : Eng α} {f : α → Eng β} {r r' : Run} {e : Ending}
    (h : m r = .error e r') : (m >>= f) r = .error e r' := by rw [eng_bind, h]

@[simp] theorem modifyRun_apply (f : Run → Run) (r : Run) : modifyRun f r = .ok () (f r) := rfl

@[simp] theorem putRes0_apply (n : Nat) (r : Run) :
    putRes0 n r = .ok () { r with res := { r.res with res0 := BitVec.ofNat 32 n } } := rfl
@[simp] theorem putRes1_apply (n : Nat) (r : Run) :
    putRes1 n r = .ok () { r with res := { r.res with res1 := BitVec.ofNat 32 n } } := rfl
@[simp] theorem putRes2_apply (n : Nat) (r : Run) :
    putRes2 n r = .ok () { r with res := { r.res with res2 := BitVec.ofNat 32 n } } := rfl
@[simp] theorem putRes3_apply (n : Nat) (r : Run) :
    putRes3 n r = .ok () { r with res := { r.res with res3 := BitVec.ofNat 32 n } } := rfl
@[simp] theorem putStop_apply (c : StopReason) (r : Run) : putStop c r = .ok () { r with stop := c } := rfl
@[simp] theorem putErrId_apply (w : Word) (r : Run) :
    putErrId w r = .ok () { r with res := { r.res with errId := w } } := rfl
@[simp] theorem putErrOff_apply (n : Nat) (r : Run) :
    putErrOff n r = .ok () { r with res := { r.res with errOff := BitVec.ofNat 32 n } } := rfl
@[simp] theorem putDetail_apply (d : Detail) (r : Run) :
    putDetail d r = .ok () { r with res := { r.res with detail := d } } := rfl
@[simp] theorem putRegion_apply (r : Run) :
    putRegion r = .ok () { r with res := { r.res with region := true } } := rfl
@[simp] theorem putHdr_apply (f : HeaderRegs → HeaderRegs) (r : Run) :
    putHdr f r = .ok () { r with hdr := f r.hdr } := rfl

@[simp] theorem raise_apply {α : Type} (e : ErrCode) (d : Detail) (off : Nat) (r : Run) :
    (raise e d off : Eng α) r =
      .error .raised { r with err := e, res := { r.res with detail := d, errOff := BitVec.ofNat 32 off } } := rfl

@[simp] theorem addrWord_apply {a : Nat} (h : a < 2 ^ 32) (r : Run) :
    addrWord a r = .ok (BitVec.ofNat 32 a) r := if_pos h

/-- A byte that has been written reads as it was written and nothing else changes. -/
theorem readByte_written {ms a : Nat} {b : Byte} {r : Run} (ha : a < ms) (h : memGet r.mem a = some b) :
    readByte ms a r = .ok b r := by simp [readByte, ha, h]

/-- Bytes that have been written read as they were written and nothing else changes (R82). -/
theorem readBytes_written {ms a n : Nat} {bs : Bytes} {r : Run} (ha : n = 0 ∨ a + n ≤ ms)
    (h : memGetRange r.mem a n = some bs) : readBytes ms a n r = .ok bs r := by
  induction n generalizing a bs with
  | zero => simp only [memGetRange, Option.some.injEq] at h; subst h; rfl
  | succ n ih =>
    simp only [memGetRange] at h
    split at h
    · rename_i b bs' hb hbs
      obtain rfl := Option.some.inj h
      simp only [readBytes]
      rw [eng_bind_ok (readByte_written (by omega) hb), eng_bind_ok (ih (by omega) hbs)]
      rfl
    · simp at h

/-- A write inside memory writes exactly its bytes (R82). -/
theorem writeBytes_apply {ms a : Nat} {bs : Bytes} {r : Run} (ha : bs.length = 0 ∨ a + bs.length ≤ ms) :
    writeBytes ms a bs r = .ok () { r with mem := memSetRange r.mem a bs } := by
  induction bs generalizing a r with
  | nil => rfl
  | cons b bs ih =>
    simp only [List.length_cons] at ha
    simp only [writeBytes, memSetRange]
    rw [eng_bind_ok (show writeByte ms a b r = .ok () { r with mem := memSet r.mem a b } from if_pos (by omega)),
      ih (by omega)]

/-! ## The prologue (R360) -/

theorem prologue_ok {ms : Nat} {o : OperandRegs} {uses : List RangeName} (h : rangeError ms o uses = none)
    (r : Run) : prologue ms o uses r = .ok () r := by simp [prologue, h]

theorem prologue_error {ms : Nat} {o : OperandRegs} {uses : List RangeName} {e : ErrCode} {d : Detail}
    (h : rangeError ms o uses = some (e, d)) (r : Run) : prologue ms o uses r = raise e d 0 r := by
  simp [prologue, h]

/-- A range is valid when it is empty or ends at or below MEM_SIZE (R86). -/
theorem spanValid_iff {ms : Nat} {r : Span} : spanValid ms r = true ↔ r.len = 0 ∨ r.base + r.len ≤ ms := by
  simp [spanValid]

/-- A used range of a command that passed the checks ends inside memory, unless it is empty. -/
theorem rangeError_none_valid {ms : Nat} {o : OperandRegs} {uses : List RangeName}
    (h : rangeError ms o uses = none) {x : RangeName} (hx : x ∈ uses) :
    (spanOf o x).len = 0 ∨ (spanOf o x).base + (spanOf o x).len ≤ ms := by
  unfold rangeError at h
  split at h
  · simp at h
  · rename_i hf
    have := List.find?_eq_none.mp hf x (by cases x <;> simp)
    exact spanValid_iff.mp (by simpa [hx] using this)

/-- Two used ranges of a command that passed the checks share no address. -/
theorem rangeError_none_disjoint {ms : Nat} {o : OperandRegs} {uses : List RangeName}
    (h : rangeError ms o uses = none) {q : RangeName × RangeName} (hq : q ∈ overlapPairs)
    (h1 : q.1 ∈ uses) (h2 : q.2 ∈ uses) :
    (spanOf o q.1).len = 0 ∨ (spanOf o q.2).len = 0 ∨
      (spanOf o q.1).base + (spanOf o q.1).len ≤ (spanOf o q.2).base ∨
      (spanOf o q.2).base + (spanOf o q.2).len ≤ (spanOf o q.1).base := by
  unfold rangeError at h
  split at h
  · simp at h
  · split at h
    · simp at h
    · rename_i hs
      by_contra hc
      apply hs
      simp only [someOverlap, List.any_eq_true]
      refine ⟨q, hq, ?_⟩
      simp only [spansOverlap, h1, h2, List.contains_eq_mem, decide_true, Bool.true_and, Bool.and_eq_true,
        bne_iff_ne, ne_eq, decide_eq_true_eq]
      omega

/-! ## Running a command -/

theorem runCommand_ok {s : State} {prog : Eng Unit} {r : Run} (h : prog (startRun s) = .ok () r) :
    runCommand s prog = .next (complete s r) := by simp [runCommand, h]

theorem runCommand_raised {s : State} {prog : Eng Unit} {r : Run} (h : prog (startRun s) = .error .raised r) :
    runCommand s prog = .next (complete s r) := by simp [runCommand, h]

/-- A command that answers a next state completed: at its last line or at a `raise`. -/
theorem runCommand_next {s t : State} {prog : Eng Unit} (h : runCommand s prog = .next t) :
    ∃ r, t = complete s r ∧ (prog (startRun s) = .ok () r ∨ prog (startRun s) = .error .raised r) := by
  unfold runCommand at h
  split at h
  · rename_i r heq; exact ⟨r, by cases h; rfl, .inl heq⟩
  · rename_i r heq; exact ⟨r, by cases h; rfl, .inr heq⟩
  · simp at h

/-- A command never refuses. -/
theorem runCommand_not_refused (s : State) (prog : Eng Unit) (x : Refusal) : runCommand s prog ≠ .refused x := by
  unfold runCommand
  split <;> simp

/-! ## What a program leaves: `Sat P m Q E` -/

/-- From every run with P, the program does not get stuck; where it goes on with a value, Q holds of both, and
where it raises, E holds of what it leaves. -/
def Sat {α : Type} (P : Run → Prop) (m : Eng α) (Q : α → Run → Prop) (E : Run → Prop) : Prop :=
  ∀ r, P r → match m r with
    | .ok x r' => Q x r'
    | .error .raised r' => E r'
    | .error (.stuck _) _ => False

theorem Sat.pure {α : Type} {P : Run → Prop} {Q : α → Run → Prop} {E : Run → Prop} {x : α}
    (h : ∀ r, P r → Q x r) : Sat P (Pure.pure x : Eng α) Q E := fun r hr => h r hr

theorem Sat.bind {α β : Type} {P : Run → Prop} {m : Eng α} {R : α → Run → Prop} {f : α → Eng β}
    {Q : β → Run → Prop} {E : Run → Prop} (hm : Sat P m R E) (hf : ∀ x, Sat (R x) (f x) Q E) :
    Sat P (m >>= f) Q E := by
  intro r hr
  have := hm r hr
  rw [eng_bind]
  cases h : m r with
  | ok x r' => rw [h] at this; exact hf x r' this
  | error e r' =>
    rw [h] at this
    cases e with
    | raised => exact this
    | stuck f => exact this

theorem Sat.mono {α : Type} {P P' : Run → Prop} {m : Eng α} {Q Q' : α → Run → Prop} {E E' : Run → Prop}
    (h : Sat P m Q E) (hP : ∀ r, P' r → P r) (hQ : ∀ x r, Q x r → Q' x r) (hE : ∀ r, E r → E' r) :
    Sat P' m Q' E' := by
  intro r hr
  have := h r (hP r hr)
  cases hm : m r with
  | ok x r' => rw [hm] at this; exact hQ x r' this
  | error e r' =>
    rw [hm] at this
    cases e with
    | raised => exact hE r' this
    | stuck f => exact this

theorem Sat.ite {α : Type} {P : Run → Prop} {c : Prop} [Decidable c] {m m' : Eng α} {Q : α → Run → Prop}
    {E : Run → Prop} (ht : c → Sat P m Q E) (hf : ¬c → Sat P m' Q E) : Sat P (if c then m else m') Q E := by
  split
  · exact ht ‹_›
  · exact hf ‹_›

theorem Sat.modify {P : Run → Prop} {f : Run → Run} {Q : Unit → Run → Prop} {E : Run → Prop}
    (h : ∀ r, P r → Q () (f r)) : Sat P (modifyRun f) Q E := fun r hr => h r hr

theorem Sat.raise {α : Type} {P : Run → Prop} {e : ErrCode} {d : Detail} {off : Nat} {Q : α → Run → Prop}
    {E : Run → Prop}
    (h : ∀ r, P r → E { r with err := e, res := { r.res with detail := d, errOff := BitVec.ofNat 32 off } }) :
    Sat P (Machine.raise e d off : Eng α) Q E := fun r hr => h r hr

theorem Sat.prologue {P : Run → Prop} {ms : Nat} {o : OperandRegs} {uses : List RangeName}
    {Q : Unit → Run → Prop} {E : Run → Prop} (hok : rangeError ms o uses = none → ∀ r, P r → Q () r)
    (herr : ∀ e d, rangeError ms o uses = some (e, d) → ∀ r, P r →
      E { r with err := e, res := { r.res with detail := d, errOff := BitVec.ofNat 32 0 } }) :
    Sat P (prologue ms o uses) Q E := by
  intro r hr
  cases h : rangeError ms o uses with
  | none => rw [prologue_ok h]; exact hok h r hr
  | some q => obtain ⟨e, d⟩ := q; rw [prologue_error h]; exact herr e d h r hr

/-- Reading inside memory goes on; only the draw counter can change. -/
theorem Sat.readByte {P : Run → Prop} {ms a : Nat} {Q : Byte → Run → Prop} {E : Run → Prop} (ha : a < ms)
    (h : ∀ r b k, P r → Q b { r with draws := k }) : Sat P (readByte ms a) Q E := by
  intro r hr
  simp only [Machine.readByte, if_pos ha]
  cases hg : memGet r.mem a with
  | some b => exact h r b r.draws hr
  | none => exact h r (Config.freeByte r.draws) _ hr

/-- Reading inside memory goes on with as many bytes; only the draw counter can change. -/
theorem Sat.readBytes {P : Run → Prop} {ms a n : Nat} {Q : Bytes → Run → Prop} {E : Run → Prop}
    (ha : n = 0 ∨ a + n ≤ ms) (h : ∀ r bs k, bs.length = n → P r → Q bs { r with draws := k }) :
    Sat P (readBytes ms a n) Q E := by
  induction n generalizing a P Q with
  | zero => exact fun r hr => h r [] r.draws rfl hr
  | succ n ih =>
    refine Sat.bind (R := fun _ r => ∃ r₀ k, P r₀ ∧ r = { r₀ with draws := k })
      (Sat.readByte (by omega) fun r b k hr => ⟨r, k, hr, rfl⟩) fun b => ?_
    refine Sat.bind (R := fun bs r => bs.length = n ∧ ∃ r₀ k, P r₀ ∧ r = { r₀ with draws := k })
      (ih (by omega) ?_) fun bs => ?_
    · rintro r bs k hl ⟨r₀, k₀, hr₀, rfl⟩
      exact ⟨hl, r₀, k, hr₀, rfl⟩
    · refine Sat.pure ?_
      rintro r ⟨hl, r₀, k, hr₀, rfl⟩
      exact h r₀ (b :: bs) k (by simp [hl]) hr₀

/-- Writing inside memory goes on and writes exactly its bytes. -/
theorem Sat.writeBytes {P : Run → Prop} {ms a : Nat} {bs : Bytes} {Q : Unit → Run → Prop} {E : Run → Prop}
    (ha : bs.length = 0 ∨ a + bs.length ≤ ms) (h : ∀ r, P r → Q () { r with mem := memSetRange r.mem a bs }) :
    Sat P (writeBytes ms a bs) Q E := by
  intro r hr
  rw [writeBytes_apply ha]
  exact h r hr

theorem Sat.addrWord {P : Run → Prop} {a : Nat} {Q : Word → Run → Prop} {E : Run → Prop}
    (h : ∀ r w k, P r → Q w { r with draws := k }) : Sat P (addrWord a) Q E := by
  intro r hr
  by_cases ha : a < 2 ^ 32
  · rw [addrWord_apply ha]; exact h r _ r.draws hr
  · simp only [Machine.addrWord, if_neg ha]; exact h r _ _ hr

/-- A program that never gets stuck makes its command complete, in a state of which the program's post-condition
holds. -/
theorem Sat.completes {s : State} {prog : Eng Unit} {Q : Run → Prop}
    (h : Sat (fun r => r = startRun s) prog (fun _ r => Q r) Q) :
    ∃ r, runCommand s prog = .next (complete s r) ∧ Q r := by
  have := h (startRun s) rfl
  cases hp : prog (startRun s) with
  | ok x r => rw [hp] at this; exact ⟨r, runCommand_ok hp, this⟩
  | error e r =>
    rw [hp] at this
    cases e with
    | raised => exact ⟨r, runCommand_raised hp, this⟩
    | stuck f => exact this.elim

/-- What holds after every ending of a program holds of the state its command completes in. -/
theorem Sat.of_next {s t : State} {prog : Eng Unit} {Q : Run → Prop}
    (h : Sat (fun r => r = startRun s) prog (fun _ r => Q r) Q) (hn : runCommand s prog = .next t) :
    ∃ r, t = complete s r ∧ Q r := by
  obtain ⟨r, hr, hq⟩ := Sat.completes h
  rw [hr] at hn
  exact ⟨r, by cases hn; rfl, hq⟩

end Sys2Proof.Machine
end

