-- ==== Sys2Proof/Laws/Frame.lean ====
section
/-! SUPPORT. What frame decoding can do, said once: the rules for programs that only read (`Reads`), and everything
`frameHeaderDecode` and `frameDecode` can answer on any bytes. -/

namespace Sys2Proof.Machine

open Sys2Proof (Word Byte Bytes Instr)

/-! ## Programs that only read -/

/-- From every run the program goes on with a value of which G holds, and nothing but the draw counter changes. -/
def Reads {α : Type} (m : Eng α) (G : α → Prop) : Prop := ∀ r, ∃ x k, m r = .ok x { r with draws := k } ∧ G x

theorem Reads.pure {α : Type} {G : α → Prop} {x : α} (h : G x) : Reads (Pure.pure x : Eng α) G :=
  fun r => ⟨x, r.draws, rfl, h⟩

theorem Reads.bind {α β : Type} {m : Eng α} {f : α → Eng β} {G : α → Prop} {H : β → Prop} (hm : Reads m G)
    (hf : ∀ x, G x → Reads (f x) H) : Reads (m >>= f) H := by
  intro r
  obtain ⟨x, k, hx, hg⟩ := hm r
  obtain ⟨y, k', hy, hh⟩ := hf x hg { r with draws := k }
  exact ⟨y, k', by rw [eng_bind_ok hx, hy], hh⟩

theorem Reads.mono {α : Type} {m : Eng α} {G H : α → Prop} (h : Reads m G) (hi : ∀ x, G x → H x) : Reads m H :=
  fun r => let ⟨x, k, hx, hg⟩ := h r; ⟨x, k, hx, hi x hg⟩

theorem Reads.ite {α : Type} {c : Prop} [Decidable c] {m m' : Eng α} {G : α → Prop} (ht : c → Reads m G)
    (hf : ¬c → Reads m' G) : Reads (if c then m else m') G := by
  split
  · exact ht ‹_›
  · exact hf ‹_›

theorem Reads.readByte {ms a : Nat} (ha : a < ms) : Reads (readByte ms a) (fun _ => True) := by
  intro r
  simp only [Machine.readByte, if_pos ha]
  cases memGet r.mem a with
  | some b => exact ⟨b, r.draws, rfl, trivial⟩
  | none => exact ⟨_, _, rfl, trivial⟩

theorem Reads.readBytes {ms a n : Nat} (ha : n = 0 ∨ a + n ≤ ms) :
    Reads (readBytes ms a n) (fun bs => bs.length = n) := by
  induction n generalizing a with
  | zero => exact Reads.pure rfl
  | succ n ih =>
    refine Reads.bind (Reads.readByte (by omega)) fun b _ => ?_
    refine Reads.bind (ih (by omega)) fun bs hb => ?_
    exact Reads.pure (by simp [hb])

/-- A program that only reads, inside a program that writes. -/
theorem Reads.sat {α : Type} {m : Eng α} {G : α → Prop} (h : Reads m G) {P : Run → Prop}
    {Q : α → Run → Prop} {E : Run → Prop} (hq : ∀ r x k, G x → P r → Q x { r with draws := k }) : Sat P m Q E := by
  intro r hr
  obtain ⟨x, k, hx, hg⟩ := h r
  rw [hx]
  exact hq r x k hg hr

/-! ## The frame header -/

/-- What `frameHeaderDecode` can answer over n bytes (R261 to R269): a header of the version's core length at least,
all of it inside the input; END where nothing is left; PADDING inside the input; or TRUNCATED. -/
def HeaderOutcome (n : Nat) (ver : FrameVer) : Decoded FrameHeader → Prop
  | .got hd => coreLen ver ≤ hd.hdrlen ∧ hd.hdrlen ≤ n ∧ hd.ver = ver ∧ hd.ident.length = 4
  | .stop r c => c ≤ n ∧ (r = .regionEnd ∧ n = 0 ∧ c = 0 ∨ r = .padding)
  | .fail k d _ => k = .truncated ∧ d = .shortFrameHeader

theorem coreLen_ge (ver : FrameVer) : 6 ≤ coreLen ver ∧ coreLen ver ≤ 10 := by cases ver <;> simp [coreLen]

theorem identOf_length {ver : FrameVer} {c : Bytes} (h : c.length = coreLen ver) : (identOf ver c).length = 4 := by
  cases ver <;> simp_all [identOf, coreId, slice, idLen, coreLen]

theorem Reads.drainZeros {ms a n k q : Nat} (ha : k = 0 ∨ a + q + k ≤ ms) (hq : q + k ≤ n) :
    Reads (drainZeros ms a k q) (fun p => p ≤ n) := by
  induction k generalizing q with
  | zero => exact Reads.pure (by omega)
  | succ k ih =>
    refine Reads.bind (Reads.readByte (by omega)) fun b _ => ?_
    exact Reads.ite (fun _ => ih (by omega) (by omega)) (fun _ => Reads.pure (by omega))

theorem Reads.trailingField {ms a n len q : Nat} {present : Bool} (ha : n = 0 ∨ a + n ≤ ms) (hq : q ≤ n) :
    Reads (trailingField ms a n present len q) (fun o => ∀ p, o = some p → q ≤ p.2 ∧ p.2 ≤ n) := by
  unfold Machine.trailingField
  refine Reads.ite (fun _ => Reads.ite (fun _ => Reads.pure (by simp)) fun h => ?_)
    (fun _ => Reads.pure (by simp [hq]))
  refine Reads.bind (Reads.readBytes (by omega)) fun b _ => Reads.pure ?_
  rintro p hp
  cases hp
  simp
  omega

/-- Everything `frameHeaderDecode` can answer, on any bytes. -/
theorem Reads.frameHeaderDecode {ms a n : Nat} {ver : FrameVer} (ha : n = 0 ∨ a + n ≤ ms) :
    Reads (frameHeaderDecode ms a n ver) (HeaderOutcome n ver) := by
  have hc := coreLen_ge ver
  unfold Machine.frameHeaderDecode
  refine Reads.ite (fun h => Reads.pure ⟨by omega, .inl ⟨rfl, h, rfl⟩⟩) fun hn => Reads.ite (fun hlt => ?_) fun hge => ?_
  · refine Reads.bind (Reads.readBytes (by omega)) fun p _ => ?_
    exact Reads.ite (fun _ => Reads.pure ⟨Nat.le_refl _, .inr rfl⟩) (fun _ => Reads.pure ⟨rfl, rfl⟩)
  · refine Reads.bind (Reads.readBytes (by omega)) fun c hcl => ?_
    have hid := identOf_length hcl
    refine Reads.ite (fun _ => ?_) fun _ => ?_
    · unfold paddingStop
      cases ver with
      | v3 =>
        exact Reads.bind (Reads.drainZeros (n := n) (by omega) (by omega)) fun q hq => Reads.pure ⟨hq, .inr rfl⟩
      | v2 => exact Reads.pure ⟨by omega, .inr rfl⟩
      | v4 => exact Reads.pure ⟨by omega, .inr rfl⟩
    · cases ver with
      | v2 => exact Reads.pure ⟨Nat.le_refl _, Nat.le_of_not_lt hge, rfl, hid⟩
      | v3 =>
        refine Reads.bind (Reads.trailingField (n := n) ha (Nat.le_of_not_lt hge)) fun o ho => ?_
        match o, ho with
        | none, _ => exact Reads.pure ⟨rfl, rfl⟩
        | some (u, q), ho =>
          have h1 := ho _ rfl
          refine Reads.bind (Reads.trailingField (n := n) ha h1.2) fun o ho => ?_
          match o, ho with
          | none, _ => exact Reads.pure ⟨rfl, rfl⟩
          | some (g, q'), ho =>
            have h2 := ho _ rfl
            exact Reads.pure ⟨Nat.le_trans h1.1 h2.1, h2.2, rfl, hid⟩
      | v4 =>
        refine Reads.bind (Reads.trailingField (n := n) ha (Nat.le_of_not_lt hge)) fun o ho => ?_
        match o, ho with
        | none, _ => exact Reads.pure ⟨rfl, rfl⟩
        | some (g, q), ho =>
          have h1 := ho _ rfl
          refine Reads.bind (Reads.trailingField (n := n) ha h1.2) fun o ho => ?_
          match o, ho with
          | none, _ => exact Reads.pure ⟨rfl, rfl⟩
          | some (e, q'), ho =>
            have h2 := ho _ rfl
            refine Reads.bind (Reads.trailingField (n := n) ha h2.2) fun o ho => ?_
            match o, ho with
            | none, _ => exact Reads.pure ⟨rfl, rfl⟩
            | some (d, q''), ho =>
              have h3 := ho _ rfl
              exact Reads.pure ⟨Nat.le_trans h1.1 (Nat.le_trans h2.1 h3.1), h3.2, rfl, hid⟩

/-! ## The frame -/

/-- The details of a CORRUPT_FRAME (R352). -/
def corruptDetails : List Detail :=
  [.sizeSanity, .shortPayload, .noDli, .inflateFail, .inflateLen, .textShort, .commentShort]

/-- What `frameDecode` can answer over n bytes (R281 to R288): a frame of at least six bytes inside the input,
END where nothing is left, PADDING inside the input, TRUNCATED, or CORRUPT_FRAME with a detail of its own. -/
def FrameOutcome (n : Nat) (ver : FrameVer) : Decoded Frame → Prop
  | .got fr => 6 ≤ fr.consumed ∧ fr.consumed ≤ n ∧ fr.hd.ver = ver ∧ fr.hd.ident.length = 4 ∧ fr.cls.lang.length = 3
  | .stop r c => c ≤ n ∧ (r = .regionEnd ∧ n = 0 ∧ c = 0 ∨ r = .padding)
  | .fail k d _ => k = .truncated ∧ d = .shortFrameHeader ∨ k = .corruptFrame ∧ d ∈ corruptDetails

theorem inflateChecked_error {inflate : InflateFn} {c : Bytes} {n : Nat} {d : Detail}
    (h : inflateChecked inflate c n = .error d) : d = .inflateFail ∨ d = .inflateLen := by
  unfold inflateChecked at h
  split at h
  · cases h; exact .inl rfl
  · split at h
    · cases h
    · cases h; exact .inr rfl

/-- Checked inflation answers bytes of exactly the expected length (R191). -/
theorem inflateChecked_ok {inflate : InflateFn} {c d : Bytes} {n : Nat} (h : inflateChecked inflate c n = .ok d) :
    inflate c = some d ∧ d.length = n := by
  unfold inflateChecked at h
  split at h
  · cases h
  · split at h
    · cases h; exact ⟨by assumption, by assumption⟩
    · cases h

theorem decodePayload_error {inflate : InflateFn} {hd : FrameHeader} {raw : Bytes} {d : Detail}
    (h : decodePayload inflate hd raw = .error d) : d ∈ corruptDetails := by
  unfold decodePayload at h
  split at h
  · split at h
    · cases h; simp [corruptDetails]
    · split at h
      · rename_i he
        cases h
        rcases inflateChecked_error he with rfl | rfl <;> simp [corruptDetails]
      · cases h
  · cases h

theorem commentClass_lang {d : Bytes} (h : 4 ≤ d.length) : (commentClass d).lang.length = 3 := by
  unfold commentClass
  split <;> simp [slice] <;> omega

theorem classify_error {ident d : Bytes} {dd : Detail} (h : classify ident d = .error dd) : dd ∈ corruptDetails := by
  unfold classify at h
  split at h
  · split at h
    · cases h; simp [corruptDetails]
    · cases h
  · split at h
    · split at h
      · cases h; simp [corruptDetails]
      · cases h
    · cases h

theorem classify_lang {ident d : Bytes} {cls : FrameClass} (h : classify ident d = .ok cls) :
    cls.lang.length = 3 := by
  unfold classify at h
  split at h
  · split at h
    · cases h
    · cases h; rfl
  · split at h
    · split at h
      · cases h
      · cases h; exact commentClass_lang (by omega)
    · cases h; rfl

/-- Everything a payload that is all there can come to. -/
theorem finishFrame_outcome {inflate : InflateFn} {hd : FrameHeader} {stored n : Nat} {ver : FrameVer} {raw : Bytes}
    (hv : hd.ver = ver) (hid : hd.ident.length = 4) (h6 : 6 ≤ hd.hdrlen) (hn : hd.hdrlen + hd.size ≤ n) :
    FrameOutcome n ver (finishFrame inflate hd stored raw) := by
  unfold finishFrame
  split
  · rename_i h; exact .inr ⟨rfl, decodePayload_error h⟩
  · split
    · rename_i h; exact .inr ⟨rfl, classify_error h⟩
    · rename_i h; exact ⟨Nat.le_trans h6 (Nat.le_add_right _ _), hn, hv, hid, classify_lang h⟩

/-- Everything `frameDecode` can answer, on any bytes. -/
theorem Reads.frameDecode {inflate : InflateFn} {ms a n : Nat} {ver : FrameVer} (ha : n = 0 ∨ a + n ≤ ms) :
    Reads (frameDecode inflate ms a n ver) (FrameOutcome n ver) := by
  unfold Machine.frameDecode
  refine Reads.bind (Reads.frameHeaderDecode ha) fun o ho => ?_
  match o, ho with
  | .stop r c, ho => exact Reads.pure ho
  | .fail k d id, ho => exact Reads.pure (.inl ho)
  | .got hd, ⟨h1, h2, h3, h4⟩ =>
    have hc := coreLen_ge ver
    refine Reads.ite (fun _ => Reads.pure (.inr ⟨rfl, by simp [corruptDetails]⟩)) fun _ =>
      Reads.ite (fun _ => ?_) fun hs => ?_
    · refine Reads.bind (Reads.readBytes (by omega)) fun rest _ => ?_
      exact Reads.ite (fun _ => Reads.pure ⟨Nat.le_refl _, .inr rfl⟩)
        (fun _ => Reads.pure (.inr ⟨rfl, by simp [corruptDetails]⟩))
    · refine Reads.bind (Reads.readBytes (by omega)) fun raw _ => ?_
      exact Reads.pure (finishFrame_outcome h3 h4 (by omega) (by omega))

/-! ## The descriptor -/

theorem bytesBe_length (v n : Nat) : (bytesBe v n).length = n := by
  induction n with
  | zero => rfl
  | succ n ih => simp [bytesBe, ih]

/-- A descriptor is 64 bytes (R150). -/
theorem descBytes_length {hd : FrameHeader} {cls : FrameClass} (hid : hd.ident.length = 4)
    (hl : cls.lang.length = 3) (off addr len : Nat) : (descBytes hd cls off addr len).length = 64 := by
  simp [descBytes, bytesBe_length, hid, hl]

end Sys2Proof.Machine
end

