-- ==== Sys2Proof/Laws/Header.lean ====
section
/-! SUPPORT. What decoding a tag header can do, said once: the rules for programs that read memory and write the
header group (`HdrSat`), and everything `tagHeaderDecode` can answer or raise on any bytes. -/

namespace Sys2Proof.Machine

open Sys2Proof (Word Byte Bytes Instr)

/-- The errors of `tagHeaderDecode` with their details (R220, R352). -/
def headerErrors : List (ErrCode × Detail) :=
  [(.notATag, .marker), (.truncated, .shortHeader), (.invalidVersion, .version), (.truncated, .shortExt),
    (.corruptHeader, .extBlockLen), (.corruptHeader, .dataSizeNeg)]

/-- From every run whose header group satisfies C, the program goes on with a value and a header group that satisfy
D, or raises an error of `headerErrors` over a coherent header group; besides the header group only the draw
counter and what the raise records change. -/
def HdrSat {α : Type} (C : HeaderRegs → Prop) (m : Eng α) (D : α → HeaderRegs → Prop) : Prop :=
  ∀ r, C r.hdr → match m r with
    | .ok x r' => ∃ k h, r' = { r with draws := k, hdr := h } ∧ D x h
    | .error .raised r' => ∃ k h e d off,
        r' = { r with draws := k, hdr := h, err := e, res := { r.res with detail := d, errOff := off } }
          ∧ (e, d) ∈ headerErrors ∧ HeaderCoherent h
    | .error (.stuck _) _ => False

theorem HdrSat.pure {α : Type} {C : HeaderRegs → Prop} {D : α → HeaderRegs → Prop} {x : α} (h : ∀ g, C g → D x g) :
    HdrSat C (Pure.pure x : Eng α) D := fun r hr => ⟨r.draws, r.hdr, rfl, h _ hr⟩

theorem HdrSat.bind {α β : Type} {C : HeaderRegs → Prop} {m : Eng α} {f : α → Eng β}
    {D : α → HeaderRegs → Prop} {F : β → HeaderRegs → Prop} (hm : HdrSat C m D) (hf : ∀ x, HdrSat (D x) (f x) F) :
    HdrSat C (m >>= f) F := by
  intro r hr
  have h1 := hm r hr
  cases hc : m r with
  | ok x r' =>
    rw [hc] at h1
    obtain ⟨k, h, rfl, hd⟩ := h1
    rw [eng_bind_ok hc]
    have h2 := hf x { r with draws := k, hdr := h } hd
    cases hc' : f x { r with draws := k, hdr := h } with
    | ok y r'' =>
      rw [hc'] at h2
      obtain ⟨k', h', rfl, hd'⟩ := h2
      exact ⟨k', h', rfl, hd'⟩
    | error e r'' =>
      rw [hc'] at h2
      cases e with
      | raised =>
        obtain ⟨k', h', e, d, off, rfl, he, hh⟩ := h2
        exact ⟨k', h', e, d, off, rfl, he, hh⟩
      | stuck => exact h2
  | error e r' =>
    rw [hc] at h1
    rw [eng_bind_error hc]
    cases e with
    | raised => exact h1
    | stuck => exact h1

theorem HdrSat.ite {α : Type} {c : Prop} [Decidable c] {C : HeaderRegs → Prop} {m m' : Eng α}
    {D : α → HeaderRegs → Prop} (ht : c → HdrSat C m D) (hf : ¬c → HdrSat C m' D) :
    HdrSat C (if c then m else m') D := by
  split
  · exact ht ‹_›
  · exact hf ‹_›

theorem HdrSat.reads {α : Type} {C : HeaderRegs → Prop} {m : Eng α} {G : α → Prop} {D : α → HeaderRegs → Prop}
    (h : Reads m G) (hd : ∀ x g, G x → C g → D x g) : HdrSat C m D := by
  intro r hr
  obtain ⟨x, k, hx, hg⟩ := h r
  rw [hx]
  exact ⟨k, r.hdr, rfl, hd x _ hg hr⟩

theorem Reads.addrWord (a : Nat) : Reads (addrWord a) (fun _ => True) := by
  intro r
  by_cases h : a < 2 ^ 32
  · exact ⟨_, r.draws, addrWord_apply h r, trivial⟩
  · exact ⟨_, _, if_neg h, trivial⟩

theorem HdrSat.put {C : HeaderRegs → Prop} {D : HeaderRegs → Prop} {f : HeaderRegs → HeaderRegs}
    (h : ∀ g, C g → D (f g)) : HdrSat C (putHdr f) (fun _ => D) := fun r hr => ⟨r.draws, f r.hdr, rfl, h _ hr⟩

theorem HdrSat.raise {α : Type} {C : HeaderRegs → Prop} {D : α → HeaderRegs → Prop} {e : ErrCode} {d : Detail}
    {off : Nat} (he : (e, d) ∈ headerErrors) (h : ∀ g, C g → HeaderCoherent g) :
    HdrSat C (Machine.raise e d off : Eng α) D := fun r hr =>
  ⟨r.draws, r.hdr, e, d, BitVec.ofNat 32 off, rfl, he, h _ hr⟩

/-- `need` goes on where the bytes are there and raises TRUNCATED where they are not (R221). -/
theorem HdrSat.need {α : Type} {C : HeaderRegs → Prop} {D : α → HeaderRegs → Prop} {n k : Nat} {d : Detail}
    {f : Unit → Eng α} (he : (ErrCode.truncated, d) ∈ headerErrors) (hc : ∀ g, C g → HeaderCoherent g)
    (hf : k ≤ n → HdrSat C (f ()) D) : HdrSat C (need n k d >>= f) D := by
  unfold Machine.need
  split
  · exact HdrSat.bind (D := fun _ _ => False) (HdrSat.raise he hc) fun _ r hr => hr.elim
  · rename_i h
    exact HdrSat.bind (D := fun _ => C) (HdrSat.pure fun _ hg => hg) fun _ => hf (by omega)

/-- A fact that the precondition gives may be used. -/
theorem HdrSat.fact {α : Type} {C : HeaderRegs → Prop} {D : α → HeaderRegs → Prop} {m : Eng α} {p : Prop}
    (hp : ∀ g, C g → p) (h : p → HdrSat C m D) : HdrSat C m D := fun r hr => h (hp _ hr) r hr

/-- A read, then what follows for every value it can have. -/
theorem HdrSat.read {α β : Type} {C : HeaderRegs → Prop} {D : β → HeaderRegs → Prop} {m : Eng α} {G : α → Prop}
    {f : α → Eng β} (hm : Reads m G) (hf : ∀ x, G x → HdrSat C (f x) D) : HdrSat C (m >>= f) D := by
  refine HdrSat.bind (D := fun x g => G x ∧ C g) (HdrSat.reads hm fun x g hx hg => ⟨hx, hg⟩) fun x r hr => ?_
  exact hf x hr.1 r hr.2

/-- A write to the header group, then what follows. -/
theorem HdrSat.write {α : Type} {C C' : HeaderRegs → Prop} {D : α → HeaderRegs → Prop}
    {w : HeaderRegs → HeaderRegs} {f : Unit → Eng α} (hw : ∀ g, C g → C' (w g)) (hf : HdrSat C' (f ()) D) :
    HdrSat C (putHdr w >>= f) D :=
  HdrSat.bind (D := fun _ => C') (HdrSat.put hw) fun _ => hf

theorem HdrSat.weaken {α : Type} {C : HeaderRegs → Prop} {m : Eng α} {D D' : α → HeaderRegs → Prop}
    (h : HdrSat C m D) (hd : ∀ x g, D x g → D' x g) : HdrSat C m D' := by
  intro r hr
  have h1 := h r hr
  cases hm : m r with
  | ok x r' =>
    rw [hm] at h1
    obtain ⟨k, g, he, hg⟩ := h1
    exact ⟨k, g, he, hd x g hg⟩
  | error e r' =>
    rw [hm] at h1
    cases e with
    | raised => exact h1
    | stuck => exact h1

theorem HdrSat.mono {α : Type} {C C' : HeaderRegs → Prop} {m : Eng α} {D : α → HeaderRegs → Prop}
    (h : HdrSat C m D) (hc : ∀ g, C' g → C g) : HdrSat C' m D := fun r hr => h r (hc _ hr)

/-! ## The extended header -/

/-- The header group while the extended header is being decoded: the basic header of this version, flags and size
field, FLAGGED and not OK, no size and no position yet. -/
def ExtRunning (ver : FrameVer) (flags : Byte) (raw : Word) (h : HeaderRegs) : Prop :=
  h.ver = BitVec.ofNat 8 (verNum ver) ∧ h.flags = flags ∧ flags.getLsbD 6 = true ∧ ver ≠ .v2 ∧ h.hdrOk = true
    ∧ h.thSizeRaw = raw ∧ h.thSize = fromSynchsafe raw ∧ h.dataSize = 0 ∧ h.hdrEnd = 0 ∧ h.extFlagged = true
    ∧ h.extOk = false ∧ h.extSize = 0 ∧ h.extConsumed = 0 ∧ (ver = .v4 → h.crcWord = 0 ∧ h.extPad = 0)
    ∧ BlockCoherent h.crcStat h.crcAddr ∧ BlockCoherent h.updStat h.updAddr ∧ BlockCoherent h.rstrStat h.rstrAddr

theorem ExtRunning.coherent {ver : FrameVer} {flags : Byte} {raw : Word} {h : HeaderRegs}
    (hr : ExtRunning ver flags raw h) : HeaderCoherent h := by
  obtain ⟨hv, hf, hf6, hn2, hok, hraw, hsz, hds, hend, hfl, heok, hes, hec, hv4, hb1, hb2, hb3⟩ := hr
  refine ⟨by rw [hsz, hraw], fun _ => ?_, fun h => ?_, fun h => ?_, fun _ => ?_, fun h => ?_, fun h => ?_, hb1, hb2, hb3⟩
  · cases ver <;> simp_all [verNum]
  · simp [hok] at h
  · exact hfl
  · refine ⟨?_, by rw [hf]; exact hf6⟩
    cases ver <;> simp_all [verNum]
  · exact absurd hend h
  · apply hv4
    cases ver <;> simp_all [verNum]

theorem blockCoherent_block {l : Byte} {a : Word} (h : l.toNat ≤ Config.extBlockMax) : BlockCoherent ⟨true, l⟩ a :=
  ⟨by simp, h⟩

theorem be_lt_four {f : Bytes} (h : f.length = 4) : be f < 2 ^ 32 := by
  match f, h with
  | [a, b, c, d], _ =>
    have := a.isLt; have := b.isLt; have := c.isLt; have := d.isLt
    simp only [be, List.foldl]
    omega

/-- Everything the v2.3 extended header can come to (R226 to R228). -/
theorem HdrSat.extV23 {ms base n : Nat} {flags : Byte} {raw : Word} (ha : n = 0 ∨ base + n ≤ ms) :
    HdrSat (ExtRunning .v3 flags raw) (extV23 ms base n)
      (fun o h => ExtRunning .v3 flags raw h ∧ 10 + o.2 ≤ n ∧ o.2 ≤ 14 ∧ o.1 < 2 ^ 32) := by
  unfold Machine.extV23
  refine HdrSat.need (by simp [headerErrors]) (fun _ => ExtRunning.coherent) fun hn => ?_
  refine HdrSat.read (Reads.readBytes (by omega)) fun f hf => ?_
  refine HdrSat.write (C' := ExtRunning .v3 flags raw) (fun g hg => hg) ?_
  refine HdrSat.read (Reads.readBytes (by omega)) fun ef _ => ?_
  refine HdrSat.write (C' := ExtRunning .v3 flags raw) (fun g hg => hg) ?_
  refine HdrSat.read (Reads.readBytes (by omega)) fun pad _ => ?_
  refine HdrSat.write (C' := ExtRunning .v3 flags raw) (fun g hg => ?_) ?_
  · obtain ⟨hv, hf, hf6, hn2, hok, hraw, hsz, hds, hend, hfl, heok, hes, hec, -, hb⟩ := hg
    exact ⟨hv, hf, hf6, hn2, hok, hraw, hsz, hds, hend, hfl, heok, hes, hec, by simp, hb⟩
  refine HdrSat.ite (fun _ => ?_) fun _ => HdrSat.pure fun g hg => ⟨hg, by simp; omega, by simp, be_lt_four hf⟩
  refine HdrSat.need (by simp [headerErrors]) (fun _ => ExtRunning.coherent) fun hn => ?_
  refine HdrSat.bind (D := fun _ => ExtRunning .v3 flags raw) ?_ fun _ =>
    HdrSat.pure fun g hg => ⟨hg, by simp; omega, by simp, by decide⟩
  refine HdrSat.read (Reads.readBytes (by omega)) fun c _ => ?_
  refine HdrSat.read (Reads.addrWord _) fun a _ => ?_
  refine HdrSat.put fun g hg => ?_
  obtain ⟨hv, hf, hf6, hn2, hok, hraw, hsz, hds, hend, hfl, heok, hes, hec, -, -, hb⟩ := hg
  exact ⟨hv, hf, hf6, hn2, hok, hraw, hsz, hds, hend, hfl, heok, hes, hec, by simp,
    blockCoherent_block (by decide), hb⟩

/-- Everything one v2.4 block can come to (R231, R232). -/
theorem HdrSat.extBlock {ms base n p : Nat} {flag : Bool} {put : BlockStat → Word → HeaderRegs → HeaderRegs}
    {flags : Byte} {raw : Word} (ha : n = 0 ∨ base + n ≤ ms) (hp : p ≤ n)
    (hput : ∀ g l a, l.toNat ≤ Config.extBlockMax → ExtRunning .v4 flags raw g →
      ExtRunning .v4 flags raw (put ⟨true, l⟩ a g)) :
    HdrSat (ExtRunning .v4 flags raw) (extBlock ms base n flag put p)
      (fun q h => ExtRunning .v4 flags raw h ∧ p ≤ q ∧ q ≤ n ∧ q ≤ p + 129) := by
  unfold Machine.extBlock
  refine HdrSat.ite (fun _ => ?_) fun _ => HdrSat.pure fun g hg => ⟨hg, by omega, hp, by omega⟩
  refine HdrSat.need (by simp [headerErrors]) (fun _ => ExtRunning.coherent) fun hn => ?_
  refine HdrSat.read (Reads.readByte (by omega)) fun l _ => ?_
  refine HdrSat.ite (fun _ => HdrSat.raise (by simp [headerErrors]) fun _ => ExtRunning.coherent) fun hl => ?_
  refine HdrSat.need (by simp [headerErrors]) (fun _ => ExtRunning.coherent) fun hn => ?_
  refine HdrSat.read (Reads.addrWord _) fun a _ => ?_
  have hl' : l.toNat ≤ Config.extBlockMax := Nat.le_of_not_lt hl
  refine HdrSat.write (hput · l a hl') ?_
  exact HdrSat.pure fun g hg => ⟨hg, by omega, hn, by simp [Config.extBlockMax] at hl'; omega⟩

/-- Everything the v2.4 extended header can come to (R230 to R234). -/
theorem HdrSat.extV24 {ms base n : Nat} {flags : Byte} {raw : Word} (ha : n = 0 ∨ base + n ≤ ms) :
    HdrSat (ExtRunning .v4 flags raw) (extV24 ms base n)
      (fun o h => ExtRunning .v4 flags raw h ∧ 10 + o.2 ≤ n ∧ o.2 ≤ 1000 ∧ o.1 = o.2) := by
  unfold Machine.extV24
  refine HdrSat.need (by simp [headerErrors]) (fun _ => ExtRunning.coherent) fun hn => ?_
  refine HdrSat.read (Reads.readBytes (by omega)) fun f _ => ?_
  refine HdrSat.write (C' := ExtRunning .v4 flags raw) (fun g hg => hg) ?_
  refine HdrSat.read (Reads.readByte (by omega)) fun nfb _ => ?_
  have hnfb := nfb.isLt
  refine HdrSat.write (C' := ExtRunning .v4 flags raw) (fun g hg => hg) ?_
  refine HdrSat.need (by simp [headerErrors]) (fun _ => ExtRunning.coherent) fun hn2 => ?_
  refine HdrSat.read (m := firstFlagByte ms base nfb.toNat) (G := fun _ => True)
    (Reads.ite (fun h => Reads.readByte (by omega)) (fun _ => Reads.pure trivial)) fun f0 _ => ?_
  refine HdrSat.write (C' := ExtRunning .v4 flags raw) (fun g hg => hg) ?_
  refine HdrSat.bind (D := fun q h => ExtRunning .v4 flags raw h ∧ 15 + nfb.toNat ≤ q ∧ q ≤ n ∧ q ≤ 15 + nfb.toNat + 387) ?_
    fun q => HdrSat.pure fun g hg => ⟨hg.1, by simp only; omega, by simp only; omega, rfl⟩
  unfold extV24Blocks
  refine HdrSat.bind (HdrSat.extBlock ha hn2 ?_) fun p1 => ?_
  · rintro g l a hl ⟨hv, hf, hf6, hn2, hok, hraw, hsz, hds, hend, hfl, heok, hes, hec, h4, hb1, hb2, hb3⟩
    exact ⟨hv, hf, hf6, hn2, hok, hraw, hsz, hds, hend, hfl, heok, hes, hec, h4, hb1, blockCoherent_block hl, hb3⟩
  refine HdrSat.fact (fun g hg => hg.2) fun ⟨h1, h2, h3⟩ => HdrSat.mono ?_ fun g hg => hg.1
  refine HdrSat.bind (HdrSat.extBlock ha h2 ?_) fun p2 => ?_
  · rintro g l a hl ⟨hv, hf, hf6, hn2, hok, hraw, hsz, hds, hend, hfl, heok, hes, hec, h4, hb1, hb2, hb3⟩
    exact ⟨hv, hf, hf6, hn2, hok, hraw, hsz, hds, hend, hfl, heok, hes, hec, h4, blockCoherent_block hl, hb2, hb3⟩
  refine HdrSat.fact (fun g hg => hg.2) fun ⟨h4, h5, h6⟩ => HdrSat.mono ?_ fun g hg => hg.1
  have := HdrSat.extBlock (ms := ms) (base := base) (n := n) (p := p2)
    (flag := f0.getLsbD Config.v24ExtRestrictBit) (put := fun b a h => { h with rstrStat := b, rstrAddr := a })
    (flags := flags) (raw := raw) ha h5 (by
      rintro g l a hl ⟨hv, hf, hf6, hn2, hok, hraw, hsz, hds, hend, hfl, heok, hes, hec, h4, hb1, hb2, hb3⟩
      exact ⟨hv, hf, hf6, hn2, hok, hraw, hsz, hds, hend, hfl, heok, hes, hec, h4, hb1, hb2, blockCoherent_block hl⟩)
  exact this.weaken fun q g ⟨hg, hq⟩ => ⟨hg, by omega, by omega, by omega⟩

/-! ## The whole tag header -/

/-- The header group once every check has passed, with what `tagHeaderDecode` returns (R236). -/
def HeaderDone (n : Nat) (t : TagHeader) (h : HeaderRegs) : Prop :=
  HeaderCoherent h ∧ 10 ≤ t.start ∧ t.start ≤ n ∧ t.start ≤ 1010 ∧ t.ds < 2 ^ 28
    ∧ h.hdrEnd = BitVec.ofNat 32 t.start ∧ h.dataSize = BitVec.ofNat 32 t.ds ∧ h.flags = t.flags

/-- `fromSynchsafe` is below 2^28 (R180). -/
theorem fromSynchsafe_lt (w : Word) : (fromSynchsafe w).toNat < 2 ^ 28 := by
  have h : (fromSynchsafe w).extractLsb' 28 4 = 0 := by
    apply BitVec.eq_of_getLsbD_eq
    intro i hi
    simp only [fromSynchsafe, BitVec.getLsbD_extractLsb', BitVec.getLsbD_or, BitVec.getLsbD_shiftLeft,
      BitVec.getLsbD_setWidth, BitVec.zeroExtend]
    have : i = 0 ∨ i = 1 ∨ i = 2 ∨ i = 3 := by omega
    rcases this with rfl | rfl | rfl | rfl <;> simp
  have h2 := congrArg BitVec.toNat h
  simp only [BitVec.extractLsb'_toNat, Nat.shiftRight_eq_div_pow] at h2
  have := (fromSynchsafe w).isLt
  simp at h2
  omega

theorem verOfByte_some {b : Byte} {ver : FrameVer} (h : verOfByte b = some ver) : b = BitVec.ofNat 8 (verNum ver) := by
  have hb : b = BitVec.ofNat 8 b.toNat := by simp
  unfold verOfByte at h
  split at h <;> rename_i hn <;> try cases h
  all_goals rw [hb, hn]; rfl

theorem blockCoherent_zero : BlockCoherent ⟨false, 0⟩ 0 := ⟨fun _ => ⟨rfl, rfl⟩, by decide⟩

theorem headerCoherent_zero : HeaderCoherent HeaderRegs.zero := by
  refine ⟨by decide, by decide, by decide, by decide, by decide, by decide, by decide, ?_, ?_, ?_⟩ <;>
    exact blockCoherent_zero

/-- The basic header alone, no extended header and no size yet. -/
def basicRegs (ver rev flags : Byte) (ok : Bool) (raw : Word) : HeaderRegs :=
  { HeaderRegs.zero with
    ver := ver, rev := rev, flags := flags, hdrOk := ok, thSizeRaw := raw, thSize := fromSynchsafe raw }

theorem fromSynchsafe_zero : fromSynchsafe 0 = 0 := by decide

/-- The extended header, where there is one: its sizes, over a header group in order (R225). -/
theorem HdrSat.extHeader {ms base n : Nat} {ver : FrameVer} {rev flags : Byte} {raw : Word}
    (ha : n = 0 ∨ base + n ≤ ms) (hn : 10 ≤ n) :
    HdrSat (· = basicRegs (BitVec.ofNat 8 (verNum ver)) rev flags true raw) (extHeader ms base n ver flags)
      (fun o h => 10 + o.2 ≤ n ∧ o.2 ≤ 1000 ∧ o.1 < 2 ^ 32 ∧ h.hdrEnd = 0 ∧ h.thSize = fromSynchsafe raw
        ∧ h.thSizeRaw = raw ∧ h.hdrOk = true ∧ h.flags = flags ∧ HeaderCoherent h) := by
  unfold Machine.extHeader
  refine HdrSat.ite (fun hf => ?_) fun _ => ?_
  · simp only [Bool.and_eq_true, bne_iff_ne, ne_eq] at hf
    refine HdrSat.write (C' := ExtRunning ver flags raw) (fun g hg => ?_) ?_
    · subst hg
      exact ⟨rfl, rfl, hf.1, hf.2, rfl, rfl, rfl, rfl, rfl, rfl, rfl, rfl, rfl, fun _ => ⟨rfl, rfl⟩,
        blockCoherent_zero, blockCoherent_zero, blockCoherent_zero⟩
    refine HdrSat.bind (D := fun o h => ExtRunning ver flags raw h ∧ 10 + o.2 ≤ n ∧ o.2 ≤ 1000 ∧ o.1 < 2 ^ 32) ?_
      fun o => ?_
    · cases ver with
      | v2 => exact absurd rfl hf.2
      | v3 => exact (HdrSat.extV23 ha).weaken fun o g hg => ⟨hg.1, hg.2.1, by omega, hg.2.2.2⟩
      | v4 => exact (HdrSat.extV24 ha).weaken fun o g hg => ⟨hg.1, hg.2.1, hg.2.2.1, by omega⟩
    · refine HdrSat.fact (fun g hg => hg.2) fun ⟨h1, h2, h3⟩ => HdrSat.mono ?_ fun g hg => hg.1
      refine HdrSat.write (C' := fun g => g.hdrEnd = 0 ∧ g.thSize = fromSynchsafe raw ∧ g.thSizeRaw = raw
          ∧ g.hdrOk = true ∧ g.flags = flags ∧ HeaderCoherent g) (fun g hg => ?_)
        (HdrSat.pure fun g hg => ⟨h1, h2, h3, hg⟩)
      obtain ⟨c1, c2, c3, c4, c5, c6, c7, c8⟩ := hg.coherent
      obtain ⟨hv, hf, hf6, hn2, hok, hraw, hsz, hds, hend, hfl, heok, hes, hec, h4, hb⟩ := hg
      exact ⟨hend, hsz, hraw, hok, hf, c1, c2, c3, fun _ => hfl, c5, c6, c7, c8⟩
  · refine HdrSat.pure ?_
    rintro g rfl
    refine ⟨hn, by simp, by simp, rfl, rfl, rfl, rfl, rfl, rfl, fun _ => ?_, by simp [basicRegs], by simp [basicRegs, HeaderRegs.zero],
      by simp [basicRegs, HeaderRegs.zero], by simp [basicRegs, HeaderRegs.zero], by simp [basicRegs, HeaderRegs.zero],
      blockCoherent_zero, blockCoherent_zero, blockCoherent_zero⟩
    cases ver <;> simp [basicRegs, verNum]

/-- Everything `tagHeaderDecode` can answer or raise, on any bytes (R221 to R237). -/
theorem HdrSat.tagHeaderDecode {ms base n : Nat} (ha : n = 0 ∨ base + n ≤ ms) :
    HdrSat (fun _ => True) (tagHeaderDecode ms base n) (HeaderDone n) := by
  unfold Machine.tagHeaderDecode
  refine HdrSat.write (C' := (· = HeaderRegs.zero)) (fun _ _ => rfl) ?_
  have hz : ∀ g : HeaderRegs, g = HeaderRegs.zero → HeaderCoherent g := by rintro _ rfl; exact headerCoherent_zero
  refine HdrSat.ite (fun _ => HdrSat.raise (by simp [headerErrors]) hz) fun h3 => ?_
  refine HdrSat.read (Reads.readBytes (by omega)) fun m _ => ?_
  refine HdrSat.ite (fun _ => HdrSat.raise (by simp [headerErrors]) hz) fun _ => ?_
  refine HdrSat.need (by simp [headerErrors]) hz fun h10 => ?_
  refine HdrSat.read (Reads.readBytes (by omega)) fun h _ => ?_
  refine HdrSat.write (C' := (· = basicRegs (byteAt h 3) (byteAt h 4) (byteAt h 5) false 0))
    (by rintro _ rfl; simp only [basicRegs, HeaderRegs.zero]; rw [fromSynchsafe_zero]) ?_
  split
  · refine HdrSat.raise (by simp [headerErrors]) ?_
    rintro g rfl
    refine ⟨rfl, by simp [basicRegs], by simp [basicRegs, HeaderRegs.zero], by simp [basicRegs, HeaderRegs.zero],
      by simp [basicRegs, HeaderRegs.zero], by simp [basicRegs, HeaderRegs.zero], by simp [basicRegs, HeaderRegs.zero],
      blockCoherent_zero, blockCoherent_zero, blockCoherent_zero⟩
  · rename_i ver hver
    rw [verOfByte_some hver]
    refine HdrSat.write (C' := (· = basicRegs (BitVec.ofNat 8 (verNum ver)) (byteAt h 4) (byteAt h 5) true (beWord (slice h 6 10))))
      (by rintro _ rfl; rfl) ?_
    refine HdrSat.bind (HdrSat.extHeader ha h10) fun o => ?_
    obtain ⟨es, eu⟩ := o
    refine HdrSat.fact (p := 10 + eu ≤ n ∧ eu ≤ 1000 ∧ es < 2 ^ 32) (fun g hg => ⟨hg.1, hg.2.1, hg.2.2.1⟩)
      fun ⟨h1, h2, h3⟩ => HdrSat.mono ?_ fun g hg => hg.2.2.2
    have hlt := fromSynchsafe_lt (beWord (slice h 6 10))
    refine HdrSat.write (C' := fun g => HeaderCoherent g ∧ g.hdrEnd = 0 ∧ g.thSize = fromSynchsafe (beWord (slice h 6 10))
        ∧ g.hdrOk = true ∧ g.flags = byteAt h 5 ∧ g.extSize = BitVec.ofNat 32 es ∧ g.extConsumed = BitVec.ofNat 32 eu) ?_ ?_
    · rintro g ⟨hend, hsz, hraw, hok, hfl, c1, c2, c3, c4, c5, c6, c7, c8⟩
      refine ⟨⟨c1, c2, fun hh => ?_, c4, c5, fun hh => absurd hend hh, c7, c8⟩, hend, hsz, hok, hfl, rfl, rfl⟩
      simp [hok] at hh
    · refine HdrSat.ite (fun _ => HdrSat.raise (by simp [headerErrors]) fun g hg => hg.1) fun hge => ?_
      refine HdrSat.write (C' := HeaderDone n ⟨ver, byteAt h 5, 10 + eu, (fromSynchsafe (beWord (slice h 6 10))).toNat - es⟩) ?_
        (HdrSat.pure fun g hg => hg)
      rintro g ⟨⟨c1, c2, c3, c4, c5, c6, c7, c8⟩, hend, hsz, hok, hfl, hes, heu⟩
      refine ⟨⟨c1, c2, fun hh => by simp [hok] at hh, c4, c5, fun _ => ⟨?_, ?_⟩, c7, c8⟩, by simp, h1, by simp; omega,
        by simp; omega, rfl, rfl, hfl⟩
      · simp only [heu, BitVec.toNat_ofNat]; omega
      · simp only [hes, hsz, BitVec.toNat_ofNat]; omega

end Sys2Proof.Machine
end

