-- ==== Sys2Proof/Laws/Ranges.lean ====
section
/-! SUPPORT. From the words of R86 and R88 (`Fits`, `Share`, `Ready`) to the range checks of the prologue, and what
a command that passed them may touch. -/

namespace Sys2Proof.Machine

open Sys2Proof (Word Byte Bytes Instr)

theorem fits_iff {s : State} {x : RangeName} : Fits s x ↔ spanValid (memSize s) (spanOf s.opr x) = true :=
  spanValid_iff.symm

/-- Every name of a range is in the order in which ranges are checked. -/
theorem mem_rangeOrder (x : RangeName) : x ∈ [RangeName.src, .dst, .desc, .pay] := by cases x <;> simp

theorem firstInvalid_none {s : State} {uses : List RangeName} (h : ∀ x ∈ uses, Fits s x) :
    firstInvalid (memSize s) s.opr uses = none := by
  simp only [firstInvalid, List.find?_eq_none, Bool.and_eq_true, Bool.not_eq_true', not_and, Bool.not_eq_false]
  intro x _ hx
  exact fits_iff.mp (h x (by simpa using hx))

/-- Two ranges overlap as the prologue tests it exactly when they share an address (R88). -/
theorem spansOverlap_iff {s : State} {x y : RangeName} :
    spansOverlap (spanOf s.opr x) (spanOf s.opr y) = true ↔ Share s x y := by
  simp only [spansOverlap, Bool.and_eq_true, bne_iff_ne, ne_eq, decide_eq_true_eq, Share]
  constructor
  · rintro ⟨⟨hx, hy⟩, h1, h2⟩
    exact ⟨max (spanOf s.opr x).base (spanOf s.opr y).base, by omega⟩
  · rintro ⟨a, h⟩
    omega

theorem Share.symm {s : State} {x y : RangeName} (h : Share s x y) : Share s y x := by
  obtain ⟨a, h⟩ := h
  exact ⟨a, by omega⟩

/-- Any two different ranges are tested for overlap, in one order or the other. -/
theorem overlapPairs_complete {x y : RangeName} (h : x ≠ y) : (x, y) ∈ overlapPairs ∨ (y, x) ∈ overlapPairs := by
  cases x <;> cases y <;> simp [overlapPairs] at h ⊢

/-- A command that is `Ready` passes its prologue (R360). -/
theorem Ready.rangeError {i : Instr} {s : State} (h : Ready i s) :
    rangeError (memSize s) s.opr (rangesUsed i) = none := by
  have hs : someOverlap s.opr (rangesUsed i) = false := by
    rw [Bool.eq_false_iff]
    intro hs
    simp only [someOverlap, List.any_eq_true, Bool.and_eq_true, List.contains_eq_mem, decide_eq_true_eq] at hs
    obtain ⟨⟨x, y⟩, hq, ⟨hx, hy⟩, ho⟩ := hs
    refine h.2 x hx y hy ?_ (spansOverlap_iff.mp ho)
    rintro rfl
    cases x <;> simp [overlapPairs] at hq
  simp [Machine.rangeError, firstInvalid_none h.1, hs]

/-- And a command that passes its prologue is `Ready`. -/
theorem ready_of_rangeError {i : Instr} {s : State}
    (h : Machine.rangeError (memSize s) s.opr (rangesUsed i) = none) : Ready i s := by
  refine ⟨fun x hx => rangeError_none_valid h hx, ?_⟩
  rintro x hx y hy hxy ⟨a, ha⟩
  rcases overlapPairs_complete hxy with hq | hq
  · have := rangeError_none_disjoint h hq hx hy
    simp only at this
    omega
  · have := rangeError_none_disjoint h hq hy hx
    simp only at this
    omega

theorem Ready.valid {i : Instr} {s : State} (h : Ready i s) {x : RangeName} (hx : x ∈ rangesUsed i) :
    (spanOf s.opr x).len = 0 ∨ (spanOf s.opr x).base + (spanOf s.opr x).len ≤ memSize s := h.1 x hx

/-- Two ranges that share no address lie one after the other, or one of them is empty. -/
theorem disjoint_of_not_share {s : State} {x y : RangeName} (h : ¬Share s x y) :
    (spanOf s.opr x).len = 0 ∨ (spanOf s.opr y).len = 0 ∨
      (spanOf s.opr x).base + (spanOf s.opr x).len ≤ (spanOf s.opr y).base ∨
      (spanOf s.opr y).base + (spanOf s.opr y).len ≤ (spanOf s.opr x).base := by
  by_contra hc
  exact h ⟨max (spanOf s.opr x).base (spanOf s.opr y).base, by omega⟩

theorem Ready.disjoint {i : Instr} {s : State} (h : Ready i s) {x y : RangeName} (hx : x ∈ rangesUsed i)
    (hy : y ∈ rangesUsed i) (hxy : x ≠ y) :
    (spanOf s.opr x).len = 0 ∨ (spanOf s.opr y).len = 0 ∨
      (spanOf s.opr x).base + (spanOf s.opr x).len ≤ (spanOf s.opr y).base ∨
      (spanOf s.opr y).base + (spanOf s.opr y).len ≤ (spanOf s.opr x).base :=
  disjoint_of_not_share (h.2 x hx y hy hxy)

theorem spanOf_src (o : OperandRegs) : spanOf o .src = ⟨o.srcBase.toNat, o.srcLen.toNat⟩ := rfl
theorem spanOf_dst (o : OperandRegs) : spanOf o .dst = ⟨o.dstBase.toNat, o.dstCap.toNat⟩ := rfl
theorem spanOf_desc (o : OperandRegs) : spanOf o .desc = ⟨o.descBase.toNat, 64 * o.descCap.toNat⟩ := rfl
theorem spanOf_pay (o : OperandRegs) : spanOf o .pay = ⟨o.payBase.toNat, o.payCap.toNat⟩ := rfl

/-- Reading written bytes that stand in SRC. -/
theorem readBytes_src {i : Instr} {s : State} {r : Run} {bs : Bytes} (h : Ready i s) (hi : .src ∈ rangesUsed i)
    (hb : SrcStarts s bs) (hm : r.mem = s.mem) :
    readBytes (memSize s) s.opr.srcBase.toNat bs.length r = .ok bs r := by
  have hv := h.valid hi
  refine readBytes_written ?_ (by rw [hm]; exact hb.2)
  have := hb.1
  simp only [spanOf_src] at hv
  omega

theorem SrcIs.starts {s : State} {bs : Bytes} (h : SrcIs s bs) : SrcStarts s bs := ⟨h.1.ge, h.2⟩

/-- A run of written bytes holds its parts. -/
theorem Holds.part {m : Memory} {a : Nat} {bs : Bytes} (h : Holds m a bs) (i k : Nat) (hk : i + k ≤ bs.length) :
    Holds m (a + i) ((bs.drop i).take k) := by
  have := memGetRange_part h i k hk
  unfold Holds
  rwa [show ((bs.drop i).take k).length = k by simp; omega]

theorem Holds.append_left {m : Memory} {a : Nat} {bs cs : Bytes} (h : Holds m a (bs ++ cs)) : Holds m a bs := by
  have := h.part 0 bs.length (by simp)
  simpa using this

theorem Holds.append_right {m : Memory} {a : Nat} {bs cs : Bytes} (h : Holds m a (bs ++ cs)) :
    Holds m (a + bs.length) cs := by
  have := h.part bs.length cs.length (by simp)
  simpa using this

/-- Written bytes still stand after a write elsewhere. -/
theorem Holds.after {m : Memory} {a c : Nat} {bs ws : Bytes} (h : Holds m a bs)
    (hd : a + bs.length ≤ c ∨ c + ws.length ≤ a) : Holds (memSetRange m c ws) a bs :=
  memGetRange_memSetRange_disjoint m h hd

/-- What has just been written stands. -/
theorem Holds.written (m : Memory) (a : Nat) (bs : Bytes) : Holds (memSetRange m a bs) a bs :=
  memGetRange_memSetRange_self m a bs

theorem SrcStarts.append_left {s : State} {bs cs : Bytes} (h : SrcStarts s (bs ++ cs)) : SrcStarts s bs :=
  ⟨by have := h.1; simp at this; omega, h.2.append_left⟩

/-- Every command begins with its prologue: where the range checks raise, the command completes with that error and
nothing else (R360, R361). -/
theorem exec_rangeError {i : Instr} {s : State} {e : ErrCode} {d : Detail}
    (h : Machine.rangeError (memSize s) s.opr (rangesUsed i) = some (e, d)) :
    exec i s = .next (finished s e .noStop { ResultRegs.zero with detail := d } s.hdr s.mem) := by
  have key : ∀ rest : Eng Unit, runCommand s (prologue (memSize s) s.opr (rangesUsed i) >>= fun _ => rest) =
      .next (finished s e .noStop { ResultRegs.zero with detail := d } s.hdr s.mem) := by
    intro rest
    rw [runCommand_raised (by rw [eng_bind, prologue_error h, raise_apply])]
    rfl
  cases i
  · exact key (putRes0 _)
  all_goals exact key _

/-- A `Ready` command goes on past its prologue. -/
theorem Ready.run {i : Instr} {s : State} (h : Ready i s) (rest : Eng Unit) :
    runCommand s (prologue (memSize s) s.opr (rangesUsed i) >>= fun _ => rest) = runCommand s rest := by
  simp only [runCommand, eng_bind_ok (prologue_ok h.rangeError _)]

end Sys2Proof.Machine
end

