-- ==== Sys2Proof/Laws/Layout.lean ====
section
/-! SUPPORT. What frame decoding answers on bytes that stand in memory as a layout of Safety.lean: a header or a
frame that is all there, one that is cut, one that ends cleanly, one that is corrupt (R262 to R288). -/

namespace Sys2Proof.Machine

open Sys2Proof (Word Byte Bytes Instr)

/-! ## Reading runs of bytes that stand -/

theorem readBytes_holds {ms a : Nat} {bs : Bytes} {r : Run} (h : Holds r.mem a bs)
    (ha : bs.length = 0 ∨ a + bs.length ≤ ms) : readBytes ms a bs.length r = .ok bs r := readBytes_written ha h

theorem Holds.middle {m : Memory} {a : Nat} {p f q : Bytes} (h : Holds m a (p ++ f ++ q)) :
    Holds m (a + p.length) f := h.append_left.append_right

/-- The first bytes of a run that the input cuts after n bytes. -/
theorem Holds.prefix {m : Memory} {a n : Nat} {bs p q : Bytes} (h : Holds m a bs) (hb : bs = (p ++ q).take n)
    (hp : p.length ≤ n) : Holds m a p := by
  rw [hb, List.take_append, List.take_of_length_le hp] at h
  exact h.append_left

/-- A trailing field that stands is read. -/
theorem trailingField_held {ms a n len q : Nat} {present : Bool} {f : Bytes} {r : Run}
    (hl : f.length = fieldLen present len) (hh : Holds r.mem (a + q) f) (hn : q + f.length ≤ n)
    (hm : n = 0 ∨ a + n ≤ ms) : trailingField ms a n present len q r = .ok (some (f, q + f.length)) r := by
  unfold trailingField
  cases present with
  | false => simp only [fieldLen, Bool.false_eq_true, if_false, List.length_eq_zero_iff] at hl; subst hl; rfl
  | true =>
    simp only [fieldLen, if_true] at hl
    subst hl
    rw [if_pos rfl, if_neg (by omega), eng_bind_ok (readBytes_holds hh (by omega))]
    rfl

/-- A trailing field that the input cuts. -/
theorem trailingField_cut {ms a n len q : Nat} {present : Bool} {f : Bytes} {r : Run}
    (hl : f.length = fieldLen present len) (hq : q ≤ n) (hn : n < q + f.length) :
    trailingField ms a n present len q r = .ok none r := by
  unfold trailingField
  cases present with
  | false => simp only [fieldLen, Bool.false_eq_true, if_false] at hl; omega
  | true =>
    simp only [fieldLen, if_true] at hl
    rw [if_pos rfl, if_pos (by omega)]
    rfl

/-! ## The core of a layout -/

/-- The bytes of a header's core (R124 to R126). -/
def layoutCore (l : HeaderLayout) : Bytes :=
  match l.ver with
  | .v2 => l.ident ++ l.size
  | _ => l.ident ++ l.size ++ [l.f1, l.f2]

theorem layoutCore_length {l : HeaderLayout} (h : LayoutOk l) : (layoutCore l).length = coreLen l.ver := by
  obtain ⟨ver, ident, size, f1, f2, usize, group, method, dli⟩ := l
  cases ver <;> simp_all [LayoutOk, layoutCore, coreLen]

/-- A header is its core and then its trailing fields. -/
theorem layoutBytes_eq (l : HeaderLayout) : layoutBytes l = layoutCore l ++ match l.ver with
    | .v2 => []
    | .v3 => l.usize ++ l.group
    | .v4 => l.group ++ l.method ++ l.dli := by
  obtain ⟨ver, ident, size, f1, f2, usize, group, method, dli⟩ := l
  cases ver <;> simp [layoutBytes, layoutCore]

theorem length_three {b : Bytes} (h : b.length = 3) : ∃ x y z, b = [x, y, z] := by
  match b, h with
  | [x, y, z], _ => exact ⟨x, y, z, rfl⟩

theorem length_four {b : Bytes} (h : b.length = 4) : ∃ x y z w, b = [x, y, z, w] := by
  match b, h with
  | [x, y, z, w], _ => exact ⟨x, y, z, w, rfl⟩

/-- What the core alone says of a header: everything but its trailing fields. -/
theorem coreHeader_layout {l : HeaderLayout} (h : LayoutOk l) :
    coreId l.ver (layoutCore l) = l.ident ∧ coreHeader l.ver (layoutCore l) =
      { layoutHeader l with gid := 0, em := 0, dlen := 0, hdrlen := coreLen l.ver } := by
  obtain ⟨ver, ident, size, f1, f2, usize, group, method, dli⟩ := l
  cases ver with
  | v2 =>
    obtain ⟨-, hi, hs, hf1, hf2, -⟩ := h
    obtain ⟨a, b, c, rfl⟩ := length_three hi
    obtain ⟨d, e, f, rfl⟩ := length_three hs
    simp only at hf1 hf2
    subst hf1 hf2
    simp [coreId, layoutCore, slice, idLen, coreHeader, layoutHeader, identOf, coreSize, coreFlags]
  | v3 =>
    obtain ⟨-, hi, hs, -⟩ := h
    obtain ⟨a, b, c, x, rfl⟩ := length_four hi
    obtain ⟨d, e, f, y, rfl⟩ := length_four hs
    simp [coreId, layoutCore, slice, idLen, coreHeader, layoutHeader, identOf, coreSize, coreFlags, byteAt]
  | v4 =>
    obtain ⟨-, hi, hs, -⟩ := h
    obtain ⟨a, b, c, x, rfl⟩ := length_four hi
    obtain ⟨d, e, f, y, rfl⟩ := length_four hs
    simp [coreId, layoutCore, slice, idLen, coreHeader, layoutHeader, identOf, coreSize, coreFlags, byteAt]

@[simp] theorem layoutHeader_hdrlen (l : HeaderLayout) : (layoutHeader l).hdrlen = (layoutBytes l).length := rfl
@[simp] theorem layoutHeader_ver (l : HeaderLayout) : (layoutHeader l).ver = l.ver := rfl

theorem layoutHeader_ident (l : HeaderLayout) : ∃ q, (layoutHeader l).ident = l.ident ++ q := by
  obtain ⟨ver, ident, size, f1, f2, usize, group, method, dli⟩ := l
  cases ver
  · exact ⟨[0], rfl⟩
  · exact ⟨[], by simp [layoutHeader]⟩
  · exact ⟨[], by simp [layoutHeader]⟩

/-- A reported identifier has four bytes. -/
theorem layoutHeader_ident_length {l : HeaderLayout} (h : LayoutOk l) : (layoutHeader l).ident.length = 4 := by
  have hc := congrArg FrameHeader.ident (coreHeader_layout h).2
  exact hc ▸ identOf_length (layoutCore_length h)

theorem layoutBytes_ge {l : HeaderLayout} (h : LayoutOk l) : 6 ≤ (layoutBytes l).length := by
  rw [layoutBytes_eq l, List.length_append, layoutCore_length h]
  have := (coreLen_ge l.ver).1
  omega

/-- Each trailing field of a layout is there exactly when its normalised flag is set. -/
theorem LayoutOk.trailers {l : HeaderLayout} (h : LayoutOk l) :
    (l.ver = .v3 → l.usize.length = fieldLen (layoutHeader l).nf.cmp 4
      ∧ l.group.length = fieldLen (layoutHeader l).nf.grp 1)
    ∧ (l.ver = .v4 → l.group.length = fieldLen (layoutHeader l).nf.grp 1
      ∧ l.method.length = fieldLen (layoutHeader l).nf.enc 1
      ∧ l.dli.length = fieldLen (layoutHeader l).nf.dli 4) := by
  obtain ⟨ver, ident, size, f1, f2, usize, group, method, dli⟩ := l
  constructor <;> rintro rfl
  · exact ⟨h.2.2.2.1, h.2.2.2.2.1⟩
  · exact ⟨h.2.2.2.2.1, h.2.2.2.2.2.1, h.2.2.2.2.2.2⟩

theorem byteAt_zero (b : Bytes) : byteAt b 0 = b.headD 0 := by cases b <;> rfl

/-- A core that stands complete is read, and decoding goes on by what follows it. -/
theorem frameHeaderDecode_core {ms a n : Nat} {l : HeaderLayout} {r : Run} (h : LayoutOk l)
    (hh : Holds r.mem a (layoutCore l)) (hn : coreLen l.ver ≤ n) (hm : n = 0 ∨ a + n ≤ ms) :
    frameHeaderDecode ms a n l.ver r =
      (match l.ver with
      | .v2 => (pure (.got (coreHeader l.ver (layoutCore l))) : Eng (Decoded FrameHeader))
      | .v3 => trailersV23 ms a n (coreHeader l.ver (layoutCore l))
      | .v4 => trailersV24 ms a n (coreHeader l.ver (layoutCore l))) r := by
  have hc := coreLen_ge l.ver
  have hlen := layoutCore_length h
  unfold frameHeaderDecode
  rw [if_neg (by omega), if_neg (by omega),
    eng_bind_ok (show readBytes ms a (coreLen l.ver) r = .ok (layoutCore l) r from
      hlen ▸ readBytes_holds hh (by omega)),
    (coreHeader_layout h).1, if_neg (by rw [h.1]; simp)]
  all_goals (cases l.ver <;> rfl)

/-! ## Frame headers -/

/-- A header that stands complete decodes to its fields (R264 to R269). -/
theorem frameHeaderDecode_layout {ms a n : Nat} {l : HeaderLayout} {r : Run} (h : LayoutOk l)
    (hh : Holds r.mem a (layoutBytes l)) (hn : (layoutBytes l).length ≤ n) (hm : n = 0 ∨ a + n ≤ ms) :
    frameHeaderDecode ms a n l.ver r = .ok (.got (layoutHeader l)) r := by
  have hlen := layoutCore_length h
  have ht := h.trailers
  rw [layoutBytes_eq l] at hh hn
  simp only [List.length_append, hlen] at hn
  rw [frameHeaderDecode_core h hh.append_left (by omega) hm, (coreHeader_layout h).2]
  have hf := hh.append_right
  rw [hlen] at hf
  obtain ⟨ver, ident, size, f1, f2, usize, group, method, dli⟩ := l
  cases ver with
  | v2 =>
    obtain ⟨-, hi, hs, -, -, hu, hg, he, hd⟩ := h
    simp only at hi hs hu hg he hd
    subst hu hg he hd
    simp [layoutHeader, layoutBytes, coreLen, hi, hs, be]
  | v3 =>
    obtain ⟨-, hi, hs, -, -, he, hd⟩ := h
    obtain ⟨hu, hg⟩ := ht.1 rfl
    simp only at hi hs he hd hf hn
    simp only [List.length_append] at hn
    simp only [trailersV23]
    rw [eng_bind_ok (trailingField_held (f := usize) hu hf.append_left (by omega) hm)]
    simp only []
    rw [eng_bind_ok (trailingField_held (f := group) hg (by rw [← Nat.add_assoc]; exact hf.append_right) (by omega) hm)]
    simp only [eng_pure, layoutHeader, layoutBytes, he, coreLen, byteAt_zero, List.length_append, hi, hs,
      List.headD_nil, List.length_cons, List.length_nil]
  | v4 =>
    obtain ⟨-, hi, hs, hu, -⟩ := h
    obtain ⟨hg, he, hd⟩ := ht.2 rfl
    simp only at hi hs hu hf hn
    simp only [List.length_append] at hn
    have hd' := hf.append_right
    rw [List.length_append, Nat.add_assoc, ← Nat.add_assoc (coreLen .v4)] at hd'
    simp only [trailersV24]
    rw [eng_bind_ok (trailingField_held (f := group) hg hf.append_left.append_left (by omega) hm)]
    simp only []
    rw [eng_bind_ok (trailingField_held (f := method) he (by rw [← Nat.add_assoc]; exact hf.append_left.append_right)
      (by omega) hm)]
    simp only []
    rw [eng_bind_ok (trailingField_held (f := dli) hd hd' (by omega) hm)]
    simp only [eng_pure, layoutHeader, layoutBytes, coreLen, byteAt_zero, List.length_append, hi, hs,
      List.length_cons, List.length_nil]

/-- A header cut by the end of the input (R263, R268, R269). -/
theorem frameHeaderDecode_cut {ms a : Nat} {ver : FrameVer} {bs : Bytes} {id : Word} {r : Run}
    (hc : HeaderCut ver bs id) (hne : bs ≠ []) (hh : Holds r.mem a bs) (hm : a + bs.length ≤ ms) :
    frameHeaderDecode ms a bs.length ver r = .ok (.fail .truncated .shortFrameHeader id) r := by
  rcases hc with ⟨h1, h2, rfl⟩ | ⟨l, hl, rfl, h1, h2, h3, rfl⟩
  · have := List.length_pos_of_ne_nil hne
    unfold frameHeaderDecode
    rw [if_neg (by omega), if_pos h1, eng_bind_ok (readBytes_holds hh (by omega)), if_neg (by rw [h2]; simp)]
    rfl
  · have hlen := layoutCore_length hl
    have ht := hl.trailers
    rw [layoutBytes_eq l] at h3 h2
    rw [frameHeaderDecode_core hl (hh.prefix h3 (by omega)) h1 (by omega), (coreHeader_layout hl).2]
    simp only [List.length_append, hlen] at h2
    -- a prefix of the layout that ends inside the input stands
    have hp : ∀ p q, layoutBytes l = p ++ q → p.length ≤ bs.length → Holds r.mem a p := fun p q he hle =>
      hh.prefix (by rw [← he, layoutBytes_eq l]; exact h3) hle
    obtain ⟨ver, ident, size, f1, f2, usize, group, method, dli⟩ := l
    cases ver with
    | v2 => simp only [List.length_nil] at h2 h1; omega
    | v3 =>
      obtain ⟨hu, hg⟩ := ht.1 rfl
      simp only [List.length_append] at h2 h1 hlen hu hg
      simp only [trailersV23]
      by_cases hq : bs.length < coreLen .v3 + usize.length
      · rw [eng_bind_ok (trailingField_cut (f := usize) hu h1 hq)]
        rfl
      · have h4 := (hp (layoutCore ⟨.v3, ident, size, f1, f2, usize, group, method, dli⟩ ++ usize) group
          (by simp [layoutBytes, layoutCore]) (by rw [List.length_append, hlen]; omega)).append_right
        rw [hlen] at h4
        rw [eng_bind_ok (trailingField_held (f := usize) hu h4 (by omega) (by omega))]
        simp only []
        rw [eng_bind_ok (trailingField_cut (f := group) hg (by omega) (by omega))]
        rfl
    | v4 =>
      obtain ⟨hg, he, hd⟩ := ht.2 rfl
      simp only [List.length_append] at h2 h1 hlen hg he hd
      simp only [trailersV24]
      by_cases hq : bs.length < coreLen .v4 + group.length
      · rw [eng_bind_ok (trailingField_cut (f := group) hg h1 hq)]
        rfl
      · have h4 := (hp (layoutCore ⟨.v4, ident, size, f1, f2, usize, group, method, dli⟩ ++ group) (method ++ dli)
          (by simp [layoutBytes, layoutCore]) (by rw [List.length_append, hlen]; omega)).append_right
        rw [hlen] at h4
        rw [eng_bind_ok (trailingField_held (f := group) hg h4 (by omega) (by omega))]
        simp only []
        by_cases hq2 : bs.length < coreLen .v4 + group.length + method.length
        · rw [eng_bind_ok (trailingField_cut (f := method) he (by omega) hq2)]
          rfl
        · have h5 := (hp (layoutCore ⟨.v4, ident, size, f1, f2, usize, group, method, dli⟩ ++ group ++ method) dli
            (by simp [layoutBytes, layoutCore])
            (by simp only [List.length_append, hlen]; omega)).append_right
          rw [List.length_append, hlen] at h5
          rw [eng_bind_ok (trailingField_held (f := method) he h5 (by omega) (by omega))]
          simp only []
          rw [eng_bind_ok (trailingField_cut (f := dli) hd (by omega) (by omega))]
          rfl

/-- The drain of v2.3 padding stops after the zero bytes at its start (R265). -/
theorem drainZeros_held {ms a : Nat} {bs : Bytes} {q : Nat} {r : Run} (hh : Holds r.mem (a + q) bs)
    (hm : bs.length = 0 ∨ a + q + bs.length ≤ ms) :
    drainZeros ms a bs.length q r = .ok (q + (bs.takeWhile (· == 0)).length) r := by
  induction bs generalizing q with
  | nil => rfl
  | cons b bs ih =>
    simp only [List.length_cons] at hm
    simp only [List.length_cons, drainZeros]
    have h0 : memGet r.mem (a + q) = some b := (memGetRange_eq_some.mp hh).2 0 (by simp)
    have h1 : Holds r.mem (a + (q + 1)) bs := by
      rw [← Nat.add_assoc]
      exact Holds.append_right (bs := [b]) hh
    rw [eng_bind_ok (readByte_written (by omega) h0)]
    by_cases hb : b = 0
    · rw [if_pos hb, ih h1 (by omega), List.takeWhile_cons_of_pos (by simpa using hb), List.length_cons]
      simp only [Nat.add_assoc, Nat.add_comm 1]
    · rw [if_neg hb, List.takeWhile_cons_of_neg (by simpa using hb)]
      rfl

/-- A clean end of the frames (R262 to R265). -/
theorem frameHeaderDecode_ends {ms a : Nat} {ver : FrameVer} {bs : Bytes} {x : StopReason} {used : Nat} {r : Run}
    (hc : EndsCleanly ver bs x used) (hh : Holds r.mem a bs) (hm : bs.length = 0 ∨ a + bs.length ≤ ms) :
    frameHeaderDecode ms a bs.length ver r = .ok (.stop x used) r := by
  have hcl := coreLen_ge ver
  rcases hc with ⟨rfl, rfl, rfl⟩ | ⟨h0, h1, h2, rfl, rfl⟩ | ⟨h1, h2, rfl, rfl⟩
  · rfl
  · unfold frameHeaderDecode
    rw [if_neg (by omega), if_pos h1, eng_bind_ok (readBytes_holds hh (by omega)), if_pos h2]
    rfl
  · have hr : readBytes ms a (coreLen ver) r = .ok (bs.take (coreLen ver)) r := by
      refine readBytes_written (by omega) ?_
      have := hh.part 0 (coreLen ver) (by omega)
      simpa [Holds, h1] using this
    have hid : coreId ver (bs.take (coreLen ver)) = bs.take (idLen ver) := by
      cases ver <;> simp [coreId, slice, coreLen, idLen, List.take_take]
    unfold frameHeaderDecode
    rw [if_neg (by omega), if_neg (by omega), eng_bind_ok hr, hid, if_pos h2]
    cases ver with
    | v2 => rfl
    | v4 => rfl
    | v3 =>
      simp only [coreLen] at h1
      have h3 : Holds r.mem (a + 10) (bs.drop 10) := by
        have := hh.part 10 (bs.length - 10) (by omega)
        rwa [List.take_of_length_le (by simp)] at this
      have h4 := drainZeros_held (ms := ms) (r := r) h3 (by simp only [List.length_drop]; omega)
      rw [List.length_drop] at h4
      simp only [paddingStop, coreLen]
      rw [eng_bind_ok h4]
      rfl

/-! ## Frames -/

theorem frameDecode_of_stop {inflate : InflateFn} {ms a n : Nat} {ver : FrameVer} {x : StopReason} {c : Nat} {r : Run}
    (h : frameHeaderDecode ms a n ver r = .ok (.stop x c) r) :
    frameDecode inflate ms a n ver r = .ok (.stop x c) r := by
  unfold frameDecode
  rw [eng_bind_ok h]
  rfl

theorem frameDecode_of_fail {inflate : InflateFn} {ms a n : Nat} {ver : FrameVer} {e : FailKind} {d : Detail}
    {id : Word} {r : Run} (h : frameHeaderDecode ms a n ver r = .ok (.fail e d id) r) :
    frameDecode inflate ms a n ver r = .ok (.fail e d id) r := by
  unfold frameDecode
  rw [eng_bind_ok h]
  rfl

/-- A frame whose payload is all there (R281 to R288). -/
theorem frameDecode_layout {inflate : InflateFn} {ms a n : Nat} {l : HeaderLayout} {raw : Bytes} {r : Run}
    (h : LayoutOk l) (hh : Holds r.mem a (layoutBytes l ++ raw)) (hs : (layoutHeader l).size = raw.length)
    (hc : raw.length < Config.frameSizeCeil) (hn : (layoutBytes l).length + raw.length ≤ n)
    (hm : n = 0 ∨ a + n ≤ ms) :
    frameDecode inflate ms a n l.ver r =
      .ok (finishFrame inflate (layoutHeader l) (a + (layoutBytes l).length) raw) r := by
  unfold frameDecode
  rw [eng_bind_ok (frameHeaderDecode_layout h hh.append_left (by omega) hm)]
  simp only [layoutHeader_hdrlen, hs]
  rw [if_neg (by omega), if_neg (by omega), eng_bind_ok (readBytes_holds hh.append_right (by omega))]
  rfl

theorem classify_text_nil {id : Bytes} (h : id.head? = some 0x54) (q : Bytes) :
    classify (id ++ q) [] = .error .textShort := by
  cases id with
  | nil => simp at h
  | cons a t => simp only [List.head?_cons, Option.some.injEq] at h; subst h; rfl

theorem classify_comment_short {id q d : Bytes} (h : id.take 3 = [0x43, 0x4F, 0x4D]) (hd : d.length < 4) :
    classify (id ++ q) d = .error .commentShort := by
  match id, h with
  | a :: b :: c :: t, h =>
    simp only [List.take_succ_cons, List.take_zero, List.cons.injEq, and_true] at h
    obtain ⟨rfl, rfl, rfl⟩ := h
    simp [classify, byteAt, slice, hd]

/-- A corrupt frame (R281, R282, R284 to R286). -/
theorem frameDecode_corrupt {inflate : InflateFn} {ms a : Nat} {ver : FrameVer} {bs : Bytes} {d : Detail} {id : Word}
    {r : Run} (hc : FrameCorrupt ver bs d id) (hh : Holds r.mem a bs) (hm : bs.length = 0 ∨ a + bs.length ≤ ms) :
    frameDecode inflate ms a bs.length ver r = .ok (.fail .corruptFrame d id) r := by
  obtain ⟨l, rest, hl, rfl, rfl, rfl, hc⟩ := hc
  have hhd := frameHeaderDecode_layout (n := (layoutBytes l ++ rest).length) hl hh.append_left (by simp) hm
  unfold frameDecode
  rw [eng_bind_ok hhd]
  simp only [layoutHeader_hdrlen, List.length_append, Nat.add_sub_cancel_left]
  simp only [List.length_append] at hm
  rcases hc with ⟨h1, rfl⟩ | ⟨h1, ⟨h2, h3, rfl⟩ | ⟨h2, h3⟩⟩
  · rw [if_pos h1]
    rfl
  · rw [if_neg (by omega), if_pos h2, eng_bind_ok (readBytes_holds hh.append_right (by omega)),
      if_neg (by rw [h3]; simp)]
    rfl
  · have hp : Holds r.mem (a + (layoutBytes l).length) (rest.take (layoutHeader l).size) := by
      have := hh.append_right.part 0 (layoutHeader l).size (by omega)
      simpa using this
    have hpl : (rest.take (layoutHeader l).size).length = (layoutHeader l).size := by simp; omega
    have hr := readBytes_holds (ms := ms) hp (by omega)
    rw [hpl] at hr
    obtain ⟨q, hq⟩ := layoutHeader_ident l
    rw [if_neg (by omega), if_neg (by omega), eng_bind_ok hr]
    simp only [finishFrame, decodePayload]
    rcases h3 with ⟨h3, h4, h5, rfl⟩ | ⟨h3, h4, h5, rfl⟩ | ⟨h3, h4, h5, rfl⟩
    · rw [if_pos h4, if_pos ⟨h3, h5⟩]
      rfl
    · rw [if_neg (by rw [h3]; simp)]
      simp only [h5, List.take_zero]
      rw [hq, classify_text_nil h4]
      rfl
    · rw [if_neg (by rw [h3]; simp)]
      simp only []
      rw [hq, classify_comment_short h4 (by omega)]
      rfl

/-- A payload cut short over nothing but zeros is padding (R282). -/
theorem frameDecode_zeroResidue {inflate : InflateFn} {ms a : Nat} {ver : FrameVer} {bs : Bytes} {r : Run}
    (hc : ZeroResidue ver bs) (hh : Holds r.mem a bs) (hm : bs.length = 0 ∨ a + bs.length ≤ ms) :
    frameDecode inflate ms a bs.length ver r = .ok (.stop .padding bs.length) r := by
  obtain ⟨l, rest, hl, rfl, rfl, h1, h2, h3⟩ := hc
  have hhd := frameHeaderDecode_layout (n := (layoutBytes l ++ rest).length) hl hh.append_left (by simp) hm
  unfold frameDecode
  rw [eng_bind_ok hhd]
  simp only [layoutHeader_hdrlen, List.length_append, Nat.add_sub_cancel_left]
  simp only [List.length_append] at hm
  rw [if_neg (by omega), if_pos h2, eng_bind_ok (readBytes_holds hh.append_right (by omega)), if_pos h3]
  rfl

/-! ## Frames of a region -/

theorem regionBytes_nil : regionBytes [] = [] := rfl

theorem regionBytes_cons (f : RegionFrame) (fs : List RegionFrame) :
    regionBytes (f :: fs) = frameBytes f ++ regionBytes fs := by simp [regionBytes]

theorem payUsed_nil : payUsed [] = 0 := rfl

theorem payUsed_cons (f : RegionFrame) (fs : List RegionFrame) :
    payUsed (f :: fs) = (paid f).length + payUsed fs := by simp [payUsed]

/-- A frame that decodes is got, compressed or not, with its class and the bytes it delivers (R280 to R287). -/
theorem frameDecode_frameOk {ver : FrameVer} {f : RegionFrame} (hf : FrameOk ver f) {ms a n : Nat} {r : Run}
    (hh : Holds r.mem a (frameBytes f)) (hn : (frameBytes f).length ≤ n) (hm : n = 0 ∨ a + n ≤ ms) :
    frameDecode Config.inflate ms a n ver r =
      .ok (.got ⟨layoutHeader f.layout, frameClass f, f.data, packed f, a + (layoutBytes f.layout).length,
        (frameBytes f).length⟩) r := by
  obtain ⟨hl, rfl, hsz, hc, hdel, hpk, cls, hcls⟩ := hf
  simp only [frameBytes, List.length_append] at hn
  rw [frameDecode_layout (inflate := Config.inflate) hl hh hsz hc hn hm]
  have hp : packed f = (layoutHeader f.layout).nf.cmp := rfl
  cases hcmp : packed f with
  | false =>
    simp only [delivered, hcmp, Bool.false_eq_true, if_false, Option.some.injEq] at hdel
    simp only [finishFrame, decodePayload, ← hp, hcmp, hdel, hcls, Bool.false_eq_true, if_false, layoutHeader_hdrlen,
      hsz, frameBytes, List.length_append, frameClass]
  | true =>
    simp only [delivered, hcmp, if_true] at hdel
    obtain ⟨hdli, hlen⟩ := hpk hcmp
    have hv4 : ¬((layoutHeader f.layout).ver = .v4 ∧ (layoutHeader f.layout).nf.dli = false) := by
      rintro ⟨h1, h2⟩
      rw [hdli h1] at h2
      cases h2
    simp only [finishFrame, decodePayload, ← hp, hcmp, hdel, hcls, if_true, if_neg hv4, inflateChecked, hlen,
      layoutHeader_hdrlen, hsz, frameBytes, List.length_append, frameClass]

end Sys2Proof.Machine
end

