-- ==== Sys2Proof/Laws/PerInstr.lean ====
section
/-! SUPPORT. Per-command lemmas about the command word, one per constructor of `Instr`. -/

namespace Sys2Proof.Laws.EncodeFields

open Sys2Proof

/-- The word of a command is its fields laid out as R110 says, RSV 31:12, VER 11:8, OP 7:0, with the fields of its
row of R111. -/
def Statement (i : Instr) : Prop :=
  encode i = i.fields.rsv ++ i.fields.ver ++ i.fields.op
    ∧ i.fields = ⟨opOf (encode i), verOf (encode i), rsvOf (encode i)⟩

theorem ssdec : Statement .ssdec := by unfold Statement; decide
theorem resync : Statement .resync := by unfold Statement; decide
theorem infl : Statement .infl := by unfold Statement; decide
theorem thdr : Statement .thdr := by unfold Statement; decide
theorem fhdrV2 : Statement .fhdrV2 := by unfold Statement; decide
theorem fhdrV3 : Statement .fhdrV3 := by unfold Statement; decide
theorem fhdrV4 : Statement .fhdrV4 := by unfold Statement; decide
theorem frameV2 : Statement .frameV2 := by unfold Statement; decide
theorem frameV3 : Statement .frameV3 := by unfold Statement; decide
theorem frameV4 : Statement .frameV4 := by unfold Statement; decide
theorem parse : Statement .parse := by unfold Statement; decide

end Sys2Proof.Laws.EncodeFields
end

