-- ==== Sys2Proof/Laws/Reader.lean ====
section
/-! SUPPORT. What PARSE's frame loop can do, said once: where its writes go, how it can end, and that it never runs
out of rounds (R323, R325). -/

namespace Sys2Proof.Machine

open Sys2Proof (Word Byte Bytes Instr)

theorem storePayload_apply {ms a : Nat} {fr : Frame} {r : Run} (h : fr.inflated = true → fr.d.length = 0 ∨ a + fr.d.length ≤ ms) :
    storePayload ms a fr r =
      .ok () { r with mem := if fr.inflated then memSetRange r.mem a fr.d else r.mem } := by
  unfold storePayload
  split
  · rename_i hi; rw [writeBytes_apply (h hi)]
  · rfl

/-- `putProgress` writes RES0, RES2 and RES3. -/
@[simp] theorem putProgress_apply (k p used : Nat) (r : Run) :
    putProgress k p used r = .ok () { r with res := { r.res with
      res0 := BitVec.ofNat 32 k, res2 := BitVec.ofNat 32 p, res3 := BitVec.ofNat 32 used } } := rfl

@[simp] theorem notePadding_apply (reason : StopReason) (p : Nat) (r : Run) :
    notePadding reason p r = .ok () (if reason = .padding then
      { r with res := { r.res with errOff := BitVec.ofNat 32 p, region := true } } else r) := by
  unfold notePadding
  split <;> rfl

@[simp] theorem parseFull_apply (hd : FrameHeader) (d : Detail) (p : Nat) (r : Run) :
    parseFull hd d p r = .error .raised { r with
      err := .capacity, stop := .capacity, res := { r.res with
        region := true, errId := beWord hd.ident, detail := d, errOff := BitVec.ofNat 32 p } } := rfl

/-- What the frame loop keeps from round to round: no error and no stop yet, nothing recorded, RES1 and the header
group as they were. -/
def LoopKeeps (h : HeaderRegs) (res1 : Word) (r : Run) : Prop :=
  r.hdr = h ∧ r.err = .noError ∧ r.stop = .noStop ∧ r.res.res1 = res1 ∧ r.res.errOff = 0 ∧ r.res.errId = 0
    ∧ r.res.detail = .noDetail ∧ r.res.region = false

/-- How the frame loop can end without a raise: with END and nothing recorded, with PADDING, or recovering from a
failure with its detail (R323). -/
def LoopEnds (r : Run) : Prop :=
  (r.stop = .regionEnd ∧ r.res.detail = .noDetail ∧ r.res.errOff = 0 ∧ r.res.errId = 0 ∧ r.res.region = false)
    ∨ (r.stop = .padding ∧ r.res.detail = .noDetail)
    ∨ (r.stop = .truncated ∧ r.res.detail = .shortFrameHeader)
    ∨ (r.stop = .corrupt ∧ r.res.detail ∈ corruptDetails)

/-- Everything the frame loop can do, from cursor p with k frames and `used` bytes of PAY. `M k used` is any fact
about memory that a descriptor written to slot k and a payload written at `used` carry on. -/
theorem Sat.parseLoop {inflate : InflateFn} {ms : Nat} {o : OperandRegs} {ver : FrameVer} {len : Nat}
    {M : Nat → Nat → Memory → Prop} {h : HeaderRegs} {res1 : Word}
    (hlen : len = 0 ∨ o.dstBase.toNat + len ≤ ms)
    (hdesc : o.descCap.toNat = 0 ∨ o.descBase.toNat + 64 * o.descCap.toNat ≤ ms)
    (hpay : o.payCap.toNat = 0 ∨ o.payBase.toNat + o.payCap.toNat ≤ ms)
    (hMd : ∀ k used m bs, k < o.descCap.toNat → bs.length = 64 → M k used m →
      M (k + 1) used (memSetRange m (o.descBase.toNat + 64 * k) bs))
    (hMp : ∀ k used m d, used + d.length ≤ o.payCap.toNat → M k used m →
      M k (used + d.length) (memSetRange m (o.payBase.toNat + used) d))
    {rounds p k used : Nat} (hr : (len - p) / 6 + 1 ≤ rounds) (hp : p ≤ len) (hk : k ≤ o.descCap.toNat)
    (hu : used ≤ o.payCap.toNat) :
    Sat (fun r => LoopKeeps h res1 r ∧ M k used r.mem) (parseLoop inflate ms o ver len rounds p k used)
      (fun _ r => r.hdr = h ∧ r.res.res1 = res1 ∧ r.err = .noError ∧ LoopEnds r
        ∧ ∃ k used, k ≤ o.descCap.toNat ∧ used ≤ o.payCap.toNat ∧ r.res.res0 = BitVec.ofNat 32 k
          ∧ r.res.res3 = BitVec.ofNat 32 used ∧ M k used r.mem)
      (fun r => r.hdr = h ∧ r.res.res1 = res1 ∧ r.err = .capacity ∧ r.stop = .capacity
        ∧ (r.res.detail = .descFull ∨ r.res.detail = .payFull)
        ∧ ∃ k used, k ≤ o.descCap.toNat ∧ used ≤ o.payCap.toNat ∧ r.res.res0 = BitVec.ofNat 32 k
          ∧ r.res.res3 = BitVec.ofNat 32 used ∧ M k used r.mem) := by
  induction rounds generalizing p k used with
  | zero => omega
  | succ rounds ih =>
    intro r hr0
    obtain ⟨⟨h1, h2, h3, h4, h5, h6, h7, h8⟩, hm⟩ := hr0
    simp only [Machine.parseLoop]
    rw [eng_bind_ok (putProgress_apply k p used r)]
    obtain ⟨x, n, hx, hg⟩ := Reads.frameDecode (inflate := inflate) (ms := ms) (a := o.dstBase.toNat + p)
      (n := len - p) (ver := ver) (by omega)
      { r with res := { r.res with
          res0 := BitVec.ofNat 32 k, res2 := BitVec.ofNat 32 p, res3 := BitVec.ofNat 32 used } }
    rw [eng_bind_ok hx]
    match x, hg with
    | .stop reason c, hg =>
      simp only [eng_bind, notePadding_apply, putStop_apply, putProgress_apply]
      rcases hg.2 with ⟨rfl, -, -⟩ | rfl
      · exact ⟨h1, h4, h2, .inl ⟨rfl, h7, h5, h6, h8⟩, k, used, hk, hu, rfl, rfl, hm⟩
      · exact ⟨h1, h4, h2, .inr (.inl ⟨rfl, h7⟩), k, used, hk, hu, rfl, rfl, hm⟩
    | .fail e d id, hg =>
      simp only [eng_bind, putErrOff_apply, putRegion_apply, putDetail_apply, putErrId_apply, putStop_apply,
        putProgress_apply]
      refine ⟨h1, h4, h2, ?_, k, used, hk, hu, rfl, rfl, hm⟩
      rcases hg with ⟨rfl, rfl⟩ | ⟨rfl, hd⟩
      · exact .inr (.inr (.inl ⟨rfl, rfl⟩))
      · exact .inr (.inr (.inr ⟨rfl, hd⟩))
    | .got fr, ⟨hc6, hcn, hv, hid, hl⟩ =>
      by_cases hkd : k ≥ o.descCap.toNat
      · simp only [if_pos hkd, parseFull_apply]
        exact ⟨h1, h4, by simp, by simp, .inl (by simp), k, used, hk, hu, rfl, rfl, hm⟩
      · simp only [if_neg hkd]
        have hkd : k < o.descCap.toNat := Nat.lt_of_not_le hkd
        by_cases hpu : fr.inflated = true ∧ used + fr.d.length > o.payCap.toNat
        · simp only [if_pos hpu, parseFull_apply]
          exact ⟨h1, h4, by simp, by simp, .inr (by simp), k, used, hk, hu, rfl, rfl, hm⟩
        · simp only [if_neg hpu]
          have hpu : fr.inflated = true → used + fr.d.length ≤ o.payCap.toNat := fun hi =>
            Nat.le_of_not_lt fun hlt => hpu ⟨hi, hlt⟩
          rw [eng_bind_ok (storePayload_apply fun hi => by have := hpu hi; omega)]
          have hb := descBytes_length hid hl p (payloadAddr (o.payBase.toNat + used) fr) fr.d.length
          rw [eng_bind_ok (show writeDesc ms _ fr.hd fr.cls p _ fr.d.length _ = _ from
            writeBytes_apply (by rw [hb]; simp only [Config.descSize]; omega))]
          refine ih (p := p + fr.consumed) (k := k + 1) (used := used + payloadUsed fr) (by omega) (by omega)
            (by omega) ?_ _ ?_
          · unfold payloadUsed
            split
            · rename_i hi; exact hpu hi
            · exact hu
          · refine ⟨⟨h1, h2, h3, h4, h5, h6, h7, h8⟩, ?_⟩
            refine hMd k _ _ _ hkd hb ?_
            unfold payloadUsed
            cases hi : fr.inflated with
            | true => simpa [hi] using hMp k used r.mem fr.d (hpu hi) hm
            | false => simpa [hi] using hm

end Sys2Proof.Machine
end

