-- ==== Sys2Proof/Tests/Slice0.lean ====
section
/-! SUPPORT. Tests. The expected values come from the test vectors of spec/95 to 98 (named in each comment), from
the encodings of R110 and R111 written out by hand, and from the rules; the vectors' conventions are those of
spec/95_test_vectors.md section 0. After them, for every statement with hypotheses, a witness that meets them. -/

namespace Sys2Proof.Machine

open Sys2Proof (Word Byte Bytes Instr CmdFields opOf verOf rsvOf decode encode)

/-! ## Well-formedness: each check refuses an ill-formed word -/

theorem test_wf_refuses_opcode : CmdFields.opOk ⟨0x04, 0, 0⟩ = false ∧ CmdFields.wf ⟨0x04, 0, 0⟩ = false := by decide
theorem test_wf_refuses_version : CmdFields.verOk ⟨0x20, 1, 0⟩ = false ∧ CmdFields.wf ⟨0x20, 1, 0⟩ = false := by
  decide
theorem test_wf_refuses_version_of_plain : CmdFields.verOk ⟨0x01, 2, 0⟩ = false := by decide
theorem test_wf_refuses_reserved : CmdFields.rsvOk ⟨0x01, 0, 1⟩ = false ∧ CmdFields.wf ⟨0x01, 0, 1⟩ = false := by
  decide
theorem test_wf_accepts : CmdFields.wf ⟨0x21, 4, 0⟩ = true := by decide

/-! ## Decoding: the words of R111, written bit by bit as RSV (20 bits), VER (4), OP (8) -/

theorem test_decode_ssdec : decode 0b00000000000000000000_0000_00000001 = .ok .ssdec := by decide
theorem test_decode_resync : decode 0b00000000000000000000_0000_00000010 = .ok .resync := by decide
theorem test_decode_infl : decode 0b00000000000000000000_0000_00000011 = .ok .infl := by decide
theorem test_decode_thdr : decode 0b00000000000000000000_0000_00010000 = .ok .thdr := by decide
theorem test_decode_fhdrV2 : decode 0b00000000000000000000_0010_00100000 = .ok .fhdrV2 := by decide
theorem test_decode_fhdrV3 : decode 0b00000000000000000000_0011_00100000 = .ok .fhdrV3 := by decide
theorem test_decode_fhdrV4 : decode 0b00000000000000000000_0100_00100000 = .ok .fhdrV4 := by decide
theorem test_decode_frameV2 : decode 0b00000000000000000000_0010_00100001 = .ok .frameV2 := by decide
theorem test_decode_frameV3 : decode 0b00000000000000000000_0011_00100001 = .ok .frameV3 := by decide
theorem test_decode_frameV4 : decode 0b00000000000000000000_0100_00100001 = .ok .frameV4 := by decide
theorem test_decode_parse : decode 0b00000000000000000000_0000_00110000 = .ok .parse := by decide

/-- PR4, PR8 and PR10: the checks apply in the order of R112. -/
theorem test_decode_order : decode 0x000012FF = .error .badOp ∧ decode 0x00001120 = .error .badVer
    ∧ decode 0x00001001 = .error .reservedBits := by decide

theorem test_decodeTableWord : Sys2Proof.decodeTableWord 32 0x321 = some .frameV3
    ∧ Sys2Proof.decodeTableWord 32 0x121 = none := by decide

/-! ## A machine with the layout of the vectors -/

/-- The operand registers of the vectors: SRC at 0x100, DST at 0x1000, DESC at 0x2000, PAY at 0x3000. -/
def operands (n : Nat) : OperandRegs :=
  ⟨0, 0x100, BitVec.ofNat 32 n, 0x1000, 0x400, 0x2000, 4, 0x3000, 0x100⟩

/-- After power-on with MEM_SIZE = 0x10000, the bytes written at SRC_BASE and the operands set. -/
def machine (src : Bytes) : State :=
  { State.reset with memLast := 0xFFFF, opr := operands src.length, mem := memSetRange [] 0x100 src }

/-- The same machine with other operands. -/
def machineWith (src : Bytes) (f : OperandRegs → OperandRegs) : State :=
  { machine src with opr := f (operands src.length) }

/-- What a state shows after a step that answered a next state. -/
def seen {α : Type} (r : Result) (f : State → α) : Option α :=
  match r with
  | .next t => some (f t)
  | _ => none

/-- RES0 to RES3 with ERR, STOP and DETAIL. -/
def outcome (t : State) : List Nat × ErrCode × StopReason × Detail :=
  ([t.res.res0.toNat, t.res.res1.toNat, t.res.res2.toNat, t.res.res3.toNat], t.status.err, t.status.stop,
    t.res.detail)

/-- The bytes at an address, none where one has not been written. -/
def bytesAt (a n : Nat) (t : State) : Option Bytes := memGetRange t.mem a n

/-- The test fit of the deflate engine, `Inflate_T` of spec/95_test_vectors.md section 0. -/
def inflateT (c : Bytes) : Option Bytes :=
  if c = [0xAA] then some [0x41, 0x42]
  else if c = [0xC1, 0xC2] then some [0x00, 0x48, 0x65, 0x6C, 0x6C, 0x6F]
  else none

/-- "TALB", size 11, flags 0, then encoding byte 0 and "Test Album" (FR1, PA1). -/
def talb : Bytes :=
  [0x54, 0x41, 0x4C, 0x42, 0, 0, 0, 0x0B, 0, 0, 0, 0x54, 0x65, 0x73, 0x74, 0x20, 0x41, 0x6C, 0x62, 0x75, 0x6D]

/-- "TPE1", v2.4, compressed with a data-length indicator of 6 (FR25). -/
def tpe1 : Bytes := [0x54, 0x50, 0x45, 0x31, 0, 0, 0, 2, 0, 9, 0, 0, 0, 6, 0xC1, 0xC2]

/-! ## The commands -/

/-- SS8 and SS10. -/
theorem test_ssdec :
    seen (exec .ssdec { machine [] with opr := { operands 0 with arg0 := 0x12345678 } }) (·.res.res0) =
      some 0x024D2B78
    ∧ seen (exec .ssdec { machine [] with opr := { operands 0 with arg0 := 0xFFFFFFFF } }) (·.res.res0) =
      some 0x0FFFFFFF := by decide

/-- RS9 and RS12: the scan reads the input, so a dropped byte never starts a second drop. -/
theorem test_resync :
    seen (exec .resync (machine [0xFF, 0x00, 0xFF, 0x00, 0x00])) (fun t => (outcome t, bytesAt 0x1000 3 t)) =
      some (([3, 2, 0, 0], .noError, .noStop, .noDetail), some [0xFF, 0xFF, 0x00])
    ∧ resynchronize [0xFF, 0xFF, 0x00, 0xE0] = [0xFF, 0xFF, 0xE0] := by decide

/-- PR27: SRC and DST overlap. -/
theorem test_resync_overlap :
    seen (exec .resync (machineWith (List.replicate 16 0) fun o => { o with dstBase := 0x10F })) outcome =
      some ([0, 0, 0, 0], .overlap, .noStop, .overlapD) := by decide

/-- IN9 and IN5, with the test fit. -/
theorem test_infl :
    seen (runCommand (machine [0xC1, 0xC2]) (inflProg inflateT 0x10000 { operands 2 with arg0 := 6 }))
      (fun t => (outcome t, bytesAt 0x1000 6 t)) =
      some (([6, 0, 0, 0], .noError, .noStop, .noDetail), some [0x00, 0x48, 0x65, 0x6C, 0x6C, 0x6F])
    ∧ seen (runCommand (machine [0xAA]) (inflProg inflateT 0x10000 { operands 1 with arg0 := 2, dstCap := 1 }))
      outcome = some ([0, 0, 0, 0], .capacity, .noStop, .dstFull) := by decide

/-- TH15: a v2.3 extended header with a CRC. -/
theorem test_thdr_v23 :
    seen (exec .thdr (machine [0x49, 0x44, 0x33, 3, 0, 0x40, 0, 0, 0, 0x40, 0, 0, 0, 0x0A, 0x80, 0, 0, 0, 0, 0x20,
        0xDE, 0xAD, 0xBE, 0xEF])) (fun t => (outcome t, t.hdr.crcWord, t.hdr.crcAddr, t.hdr.extConsumed)) =
      some (([24, 54, 0, 0], .noError, .noStop, .noDetail), 0xDEADBEEF, 0x114, 14) := by decide

/-- TH21: a v2.4 extended header with all three blocks. -/
theorem test_thdr_v24 :
    seen (exec .thdr (machine [0x49, 0x44, 0x33, 4, 0, 0x40, 0, 0, 0, 0x40, 0, 0, 0, 0x0F, 1, 0x70, 0, 5, 1, 2, 3,
        4, 5, 1, 0x77])) (fun t => (outcome t, t.hdr.updAddr, t.hdr.crcAddr, t.hdr.rstrAddr, t.hdr.extSize)) =
      some (([25, 49, 0, 0], .noError, .noStop, .noDetail), 0x111, 0x112, 0x118, 15) := by decide

/-- FH2. -/
theorem test_fhdr_v2 :
    seen (exec .fhdrV2 (machine [0x54, 0x54, 0x32, 0, 0, 5])) (fun t => (outcome t, bytesAt 0x2000 8 t)) =
      some (([6, 1, 0, 0], .noError, .frame, .noDetail), some [0x54, 0x54, 0x32, 0, 3, 2, 6, 0]) := by
  decide +kernel

/-- FH4: every v2.3 flag, the uncompressed size and the group. -/
theorem test_fhdr_v3 :
    seen (exec .fhdrV3 (machine [0x54, 0x41, 0x4C, 0x42, 0, 0, 0, 0x0B, 0xE0, 0xE0, 0, 0, 0, 0x20, 0x5A]))
      (fun t => (outcome t, bytesAt 0x2004 8 t, bytesAt 0x2014 4 t)) =
      some (([15, 1, 0, 0], .noError, .frame, .noDetail), some [3, 3, 15, 0xFC, 0xE0, 0xE0, 0x5A, 0],
        some [0, 0, 0, 0x20]) := by
  decide +kernel

/-- FH5: every v2.4 flag, the group, the encryption method and the synchsafe data length 277. -/
theorem test_fhdr_v4 :
    seen (exec .fhdrV4 (machine [0x54, 0x41, 0x4C, 0x42, 0, 0, 0, 0x0B, 0x70, 0x4F, 0x5A, 3, 0, 0, 2, 0x15]))
      (fun t => (outcome t, bytesAt 0x2004 8 t, bytesAt 0x2014 4 t)) =
      some (([16, 1, 0, 0], .noError, .frame, .noDetail), some [3, 4, 16, 0xFF, 0x70, 0x4F, 0x5A, 3],
        some [0, 0, 1, 0x15]) := by
  decide +kernel

/-- FR9: a v2.2 comment; PAY_ADDR, PAY_LEN, TEXTENC and LANG, F1 to F4. -/
theorem test_frame_v2 :
    seen (exec .frameV2 (machine [0x43, 0x4F, 0x4D, 0, 0, 7, 1, 0x58, 0x59, 0x5A, 0, 0x68, 0x69]))
      (fun t => (outcome t, bytesAt 0x2018 28 t)) =
      some (([13, 1, 0, 0], .noError, .frame, .noDetail),
        some [0, 0, 1, 6, 0, 0, 0, 7, 1, 0x58, 0x59, 0x5A, 0, 0, 0, 4, 0, 0, 0, 0, 0, 0, 0, 5, 0, 0, 0, 2]) := by
  decide +kernel

/-- FR10 and FR23. -/
theorem test_frame_v3 :
    seen (exec .frameV3 (machine [0x54, 0x41, 0x4C, 0x42, 0, 0, 0, 0, 0, 0]))
      (fun t => (outcome t, t.res.errId)) =
      some (([0, 0, 0, 0], .corruptFrame, .corrupt, .textShort), 0x54414C42)
    ∧ seen (exec .frameV3 (machine [0x50, 0x52, 0x49, 0x56, 0, 0, 0, 0x14, 0, 0, 0, 0, 7, 0, 0])) outcome =
      some ([0, 0, 0, 0], .corruptFrame, .corrupt, .shortPayload) := by decide

/-- FR25 with the test fit. -/
theorem test_frame_v4 :
    seen (runCommand (machine tpe1) (frameProg inflateT 0x10000 (operands 16) .v4))
      (fun t => (outcome t, bytesAt 0x3000 6 t, bytesAt 0x2018 8 t)) =
      some (([16, 1, 6, 0], .noError, .frame, .noDetail), some [0x00, 0x48, 0x65, 0x6C, 0x6C, 0x6F],
        some [0, 0, 0x30, 0, 0, 0, 0, 6]) := by
  decide +kernel

/-- FR24. -/
theorem test_frame_v4_without_dli :
    seen (exec .frameV4 (machine [0x54, 0x50, 0x45, 0x31, 0, 0, 0, 2, 0, 8, 0xC1, 0xC2])) outcome =
      some ([0, 0, 0, 0], .corruptFrame, .corrupt, .noDli) := by decide

/-- PA1. -/
theorem test_parse :
    seen (exec .parse (machine ([0x49, 0x44, 0x33, 3, 0, 0, 0, 0, 0, 0x15] ++ talb)))
      (fun t => (outcome t, bytesAt 0x1000 4 t, bytesAt 0x2018 4 t)) =
      some (([1, 21, 21, 0], .noError, .regionEnd, .noDetail), some [0x54, 0x41, 0x4C, 0x42],
        some [0, 0, 0x10, 0x0A]) := by
  decide +kernel

/-- PA21, with the test fit: the second compressed frame does not fit PAY. -/
theorem test_parse_pay_full :
    seen (runCommand (machine ([0x49, 0x44, 0x33, 4, 0, 0, 0, 0, 0, 0x20] ++ tpe1 ++ tpe1))
      (parseProg inflateT 0x10000 { operands 42 with payCap := 11 })) (fun t => (outcome t, t.res.errOff)) =
      some (([1, 32, 16, 6], .capacity, .capacity, .payFull), 16) := by
  decide +kernel

/-! ## Witnesses: states and operands that meet the hypotheses of the statements -/

theorem machine_srcIs (src : Bytes) (h : src.length < 2 ^ 32) : SrcIs (machine src) src :=
  ⟨by simp only [machine, operands, BitVec.toNat_ofNat]; omega, Holds.written _ _ _⟩

theorem machine_srcStarts (src more : Bytes) (h : (src ++ more).length < 2 ^ 32) :
    SrcStarts (machine (src ++ more)) src := (machine_srcIs _ h).starts.append_left

/-- A command word accepted, nothing else on the agenda. -/
def pending (w : Word) : State := acceptCommand w (machine [0x41])

/-- These moves next, on an idle machine. -/
def hosting (moves : List Move) : State := { machine [0x41] with agenda := moves }

theorem witness_IllegalWords : (∀ w, (pending w).agenda = [] ∧ (pending w).status.busy = true)
    ∧ CmdFields.opOk ⟨opOf 0, verOf 0, rsvOf 0⟩ = false
    ∧ CmdFields.opOk ⟨opOf 0x120, verOf 0x120, rsvOf 0x120⟩ = true
    ∧ CmdFields.verOk ⟨opOf 0x120, verOf 0x120, rsvOf 0x120⟩ = false
    ∧ CmdFields.verOk ⟨opOf 0x80000030, verOf 0x80000030, rsvOf 0x80000030⟩ = true
    ∧ CmdFields.rsvOk ⟨opOf 0x80000030, verOf 0x80000030, rsvOf 0x80000030⟩ = false :=
  ⟨fun _ => ⟨rfl, rfl⟩, by decide, by decide, by decide, by decide, by decide⟩

theorem witness_StepRuns : (pending 0x10).status.busy = true ∧ decode (pending 0x10).cmd = .ok .thdr
    ∧ (pending 0x10).agenda = [] ∧ { pending 0x10 with agenda := [.engine] }.agenda = .engine :: [] := by decide

theorem witness_Idle : (hosting []).status.busy = false ∧ (hosting []).agenda = []
    ∧ (hosting [.engine]).status.busy = false ∧ (hosting [.engine]).agenda = .engine :: [] := by decide

theorem witness_Run : (hosting (stmtMoves (.run .ssdec))).status.busy = false
    ∧ (hosting (stmtMoves (.run .ssdec))).agenda = stmtMoves (.run .ssdec) ++ [] := by decide

theorem witness_HostText : ∀ c ∈ "ID3".toList, c.toNat < 128 := by simp

/-- An idle machine whose command has completed with an ignored write, these moves next. -/
def completed (moves : List Move) : State :=
  { hosting moves with status := { Status.zero with done := true, wign := true } }

/-- Reads and writes at the ends of the map; CTRL written with IE = 1 and with IE = 0, and STATUS with each of DONE and
WIGN and with both, which is ACK. -/
theorem witness_HostRegisterMoves : (hosting [.readReg (offsetOf .rstrAddr)]).agenda = .readReg 0x94 :: []
    ∧ accessOk 0x30 = true ∧ accessOk 0xFC = true ∧ (hosting [.writeReg 0x30 7]).agenda = .writeReg 0x30 7 :: []
    ∧ (∀ v ∈ [(0x00000001 : Word), 0xFFFFFFFC], v.getLsbD 1 = false
      ∧ (completed [.writeReg 0x000 v]).agenda = .writeReg 0x000 v :: [])
    ∧ (∀ v ∈ [(0x00000002 : Word), 0x00000004, 0x00000006],
      (completed [.writeReg 0x004 v]).agenda = .writeReg 0x004 v :: [])
    ∧ (completed []).status.busy = false ∧ (completed []).status.done = true :=
  ⟨rfl, by decide, by decide, rfl, by simp [completed, hosting], by simp [completed, hosting], rfl, rfl⟩

/-- R33 and R161: ACK clears DONE and WIGN, and a 0 in the word clears nothing. -/
theorem test_ack :
    seen (step (completed (stmtMoves .ack))) (fun t => (t.status.done, t.status.wign)) = some (false, false)
    ∧ seen (step (completed [.writeReg 0x004 0x00000002])) (fun t => (t.status.done, t.status.wign)) =
      some (false, true) := by decide

theorem witness_Reserved : accessOk 0x98 = true ∧ accessOk 0xFC = true
    ∧ (0x00000001 : Word).extractLsb' 0 2 = (0xFFFFFFFD : Word).extractLsb' 0 2
    ∧ (0x00000002 : Word).extractLsb' 1 2 = (0xFFFFFFFB : Word).extractLsb' 1 2 := by decide

theorem witness_OperandWrite : (hosting []).status.busy = false ∧ accessOk 0x0C = true ∧ accessOk 0x2C = true
    ∧ accessOk 0x08 = true ∧ (0x08 : Nat) ≠ 0x0C := by decide

theorem witness_CmdWrite : (hosting [.writeReg 0x008 1]).agenda = .writeReg 0x008 1 :: []
    ∧ (hosting [.writeReg 0x008 1]).status.busy = false
    ∧ { pending 1 with agenda := [.writeReg 0x008 2] }.status.busy = true := by decide

theorem witness_WritesWhileBusy : (pending 1).status.busy = true
    ∧ accessOk 0x08 = true ∧ accessOk 0x2C = true ∧ accessOk 0x30 = true ∧ accessOk 0xFC = true
    ∧ ∃ t, step { pending 1 with agenda := [.readReg 0x004] } = .next t ∧ t.status.busy = true :=
  ⟨rfl, by decide, by decide, by decide, by decide, _, rfl, rfl⟩

theorem witness_ResultsStand : ∃ t, step { pending 1 with agenda := [.readReg 0x030] } = .next t
    ∧ t.status.busy = true := ⟨_, rfl, rfl⟩

theorem witness_DoneAndBusy :
    (∃ t, step (pending 1) = .next t ∧ (pending 1).status.done = false ∧ t.status.done = true)
    ∧ ∃ t, step (hosting [.writeReg 0x008 1]) = .next t ∧ (hosting [.writeReg 0x008 1]).status.busy = false
      ∧ t.status.busy = true := ⟨⟨_, rfl, rfl, rfl⟩, _, rfl, rfl, rfl⟩

/-- IRQ rises with a completion, and when IE is set while DONE is pending. -/
theorem witness_Irq :
    (∃ t, step { pending 1 with ie := true } = .next t ∧ irq { pending 1 with ie := true } = false ∧ irq t = true)
    ∧ ∃ t, step { hosting [.writeReg 0x000 1] with status := { Status.zero with done := true } } = .next t
      ∧ irq t = true := ⟨⟨_, rfl, rfl, rfl⟩, _, rfl, rfl⟩

/-- A soft reset while RESYNC runs: the first and the last byte of DST are in the aborted output, the next is
not. -/
theorem witness_SoftReset : (0x00000002 : Word).getLsbD 1 = true ∧ (hosting []).status.busy = false
    ∧ (pending 2).status.busy = true ∧ inRanges (pending 2) (runningWrites (pending 2)) 0x1000 = true
    ∧ inRanges (pending 2) (runningWrites (pending 2)) 0x13FF = true
    ∧ inRanges (pending 2) (runningWrites (pending 2)) 0x1400 = false := by decide

theorem witness_ResetTable : (hosting [.powerOn]).agenda = .powerOn :: [] := rfl

theorem witness_HostMoves : (hosting [.readMem 0x100]).agenda = .readMem 0x100 :: []
    ∧ (hosting [.writeMem 0xFFFF 1]).agenda = .writeMem 0xFFFF 1 :: [] := by decide

/-- A running RESYNC, and an illegal word, which uses no range. -/
theorem witness_RunningRanges : decode (pending 2).cmd = .ok .resync ∧ ∀ i, decode (pending 0).cmd ≠ .ok i := by
  refine ⟨by decide, fun i => ?_⟩
  cases i <;> decide

theorem witness_HostMemory : 0xFFFF < memSize (hosting []) ∧ (hosting []).status.busy = false
    ∧ memGet (hosting []).mem 0x100 = some 0x41 ∧ memGet (hosting []).mem 0xFFFF = none
    ∧ inRanges (pending 2) (runningUses (pending 2)) 0x100 = true
    ∧ inRanges (pending 2) (runningUses (pending 2)) 0x101 = false := by decide

/-- Each refusal of R406, at the first offset and the first address that are not allowed. -/
theorem witness_HostDuties :
    step (hosting [.readReg 0x100]) = .refused (.hostRegisterAccess 0x100)
    ∧ step (hosting [.writeReg 0x006 1]) = .refused (.hostRegisterAccess 0x006)
    ∧ step (hosting [.readMem 0x10000]) = .refused (.hostMemoryAddress 0x10000)
    ∧ step { pending 2 with agenda := [.writeMem 0x100 1] } = .refused (.hostWriteWhileBusy 0x100) :=
  ⟨rfl, rfl, rfl, rfl⟩

/-- For each range, one that ends one byte past memory, with those before it in order. -/
theorem witness_FirstInvalid : ∀ x : RangeName, ∃ s, x ∈ rangesUsed .parse ∧ ¬Fits s x
    ∧ ∀ y ∈ rangesUsed .parse, rangeRank y < rangeRank x → Fits s y := by
  intro x
  refine ⟨machineWith [] fun o => { o with
    srcBase := if x = .src then 0xFFFF else 0x100, srcLen := if x = .src then 2 else 0
    dstBase := if x = .dst then 0xFFFF else 0x1000, dstCap := 2
    descBase := if x = .desc then 0xFFC1 else 0x2000, descCap := 1
    payBase := if x = .pay then 0xFFFF else 0x3000, payCap := 2 }, by cases x <;> decide, fun h => ?_, fun y _ hy => ?_⟩
  · have := fits_iff.mp h
    revert this
    cases x <;> decide
  · refine fits_iff.mpr ?_
    revert hy
    cases x <;> cases y <;> decide

/-- SRC and DST that share one address, both valid. -/
theorem witness_Overlap : ∃ s, RangeName.src ∈ rangesUsed .resync ∧ RangeName.dst ∈ rangesUsed .resync
    ∧ (∀ z ∈ rangesUsed .resync, Fits s z) ∧ Share s .src .dst :=
  ⟨machineWith (List.replicate 16 0) fun o => { o with dstBase := 0x10F }, by decide, by decide,
    fun z _ => fits_iff.mpr (by cases z <;> decide), 0x10F, by decide, by decide, by decide, by decide⟩

theorem witness_SynchsafeDecode : (0xFFFFFFFF : Word) &&& 0x7F7F7F7F = (0x7F7F7F7F : Word) &&& 0x7F7F7F7F := by decide

theorem witness_SynchsafeLaw : (0x0FFFFFFF : Word).toNat < 2 ^ 28
    ∧ (0xFFFFFFFF : Word).extractLsb' 0 28 = (0x0FFFFFFF : Word).extractLsb' 0 28 := by decide

/-- Room for exactly the output, and for one byte less. -/
theorem witness_Resync : ∀ cap ∈ [2, 1], ∃ s, Ready .resync s ∧ SrcIs s [0xFF, 0x00, 0x00]
    ∧ s.opr.dstCap.toNat = cap ∧ (resynchronize [0xFF, 0x00, 0x00]).length = 2 := by
  intro cap hc
  refine ⟨machineWith [0xFF, 0x00, 0x00] fun o => { o with dstCap := BitVec.ofNat 32 cap }, ?_, ⟨rfl, rfl⟩, ?_, rfl⟩
  · simp only [List.mem_cons, List.not_mem_nil, or_false] at hc
    rcases hc with rfl | rfl <;> exact ready_of_rangeError (by decide)
  · simp only [List.mem_cons, List.not_mem_nil, or_false] at hc
    rcases hc with rfl | rfl <;> rfl

theorem witness_Infl : Ready .infl (machine [0xAA]) ∧ SrcIs (machine [0xAA]) [0xAA] :=
  ⟨ready_of_rangeError (by decide), machine_srcIs _ (by decide)⟩

/-! ### Headers -/

/-- "ID3", a version byte, revision 0, a flags byte and a size field. -/
def basic (ver flags : Byte) (size : Bytes) : Bytes := [0x49, 0x44, 0x33, ver, 0, flags] ++ size

/-- Two bytes, a bad marker, nine bytes, and the versions next to 2 and 4. -/
theorem witness_BasicHeaderErrors :
    (∀ i, i = .thdr ∨ i = .parse → Ready i (machine [0x49, 0x44]) ∧ Ready i (machine [0x49, 0x44, 0x34])
      ∧ Ready i (machine ([0x49, 0x44, 0x33] ++ [3, 0, 0, 0, 0, 0]))
      ∧ Ready i (machine (basic 1 0 [0, 0, 0, 1])) ∧ Ready i (machine (basic 5 0 [0, 0, 0, 1])))
    ∧ (machine [0x49, 0x44]).opr.srcLen.toNat < 3
    ∧ SrcStarts (machine [0x49, 0x44, 0x34]) [0x49, 0x44, 0x34] ∧ ([0x49, 0x44, 0x34] : Bytes) ≠ [0x49, 0x44, 0x33]
    ∧ SrcStarts (machine ([0x49, 0x44, 0x33] ++ [3, 0, 0, 0, 0, 0])) [0x49, 0x44, 0x33]
    ∧ (machine ([0x49, 0x44, 0x33] ++ [3, 0, 0, 0, 0, 0])).opr.srcLen.toNat < 10
    ∧ SrcStarts (machine (basic 1 0 [0, 0, 0, 1])) (basic 1 0 [0, 0, 0, 1])
    ∧ SrcStarts (machine (basic 5 0 [0, 0, 0, 1])) (basic 5 0 [0, 0, 0, 1]) := by
  refine ⟨?_, by decide, (machine_srcIs _ (by decide)).starts, by decide, machine_srcStarts _ _ (by decide), by decide,
    (machine_srcIs _ (by decide)).starts, (machine_srcIs _ (by decide)).starts⟩
  rintro i (rfl | rfl) <;>
    exact ⟨ready_of_rangeError (by decide), ready_of_rangeError (by decide), ready_of_rangeError (by decide),
      ready_of_rangeError (by decide), ready_of_rangeError (by decide)⟩

/-- v2.3 without the extended-header flag, and v2.2 with every flag (TH1, TH32). -/
theorem witness_ThdrBasic :
    (Ready .thdr (machine (tagHeaderBytes .v3 0 0 [0, 0, 0, 0x15]))
      ∧ SrcStarts (machine (tagHeaderBytes .v3 0 0 [0, 0, 0, 0x15])) (tagHeaderBytes .v3 0 0 [0, 0, 0, 0x15])
      ∧ (0x00 : Byte).getLsbD 6 = false)
    ∧ Ready .thdr (machine (tagHeaderBytes .v2 0 0xFF [0, 0, 0, 0x40]))
    ∧ SrcStarts (machine (tagHeaderBytes .v2 0 0xFF [0, 0, 0, 0x40])) (tagHeaderBytes .v2 0 0xFF [0, 0, 0, 0x40]) :=
  ⟨⟨ready_of_rangeError (by decide), (machine_srcIs _ (by decide)).starts, by decide⟩,
    ready_of_rangeError (by decide), (machine_srcIs _ (by decide)).starts⟩

/-- TH15's extended header, and TH14's, which has no CRC. -/
def extWithCrc : ExtV23Layout := ⟨[0, 0, 0, 0x0A], [0x80, 0], [0, 0, 0, 0x20], [0xDE, 0xAD, 0xBE, 0xEF]⟩
@[inherit_doc extWithCrc] def extNoCrc : ExtV23Layout := ⟨[0, 0, 0, 6], [0, 0], [0, 0, 0, 0], []⟩

theorem witness_ThdrV23 : ∀ x ∈ [extWithCrc, extNoCrc],
    let src := tagHeaderBytes .v3 0 0x40 [0, 0, 0, 0x40] ++ extV23Bytes x
    Ready .thdr (machine src) ∧ ExtV23Ok x ∧ SrcStarts (machine src) src ∧ (0x40 : Byte).getLsbD 6 = true := by
  intro x hx
  simp only [List.mem_cons, List.not_mem_nil, or_false] at hx
  rcases hx with rfl | rfl <;>
    exact ⟨ready_of_rangeError (by decide), ⟨rfl, rfl, rfl, by decide⟩, (machine_srcIs _ (by decide)).starts, by decide⟩

/-- TH21's extended header with its three blocks, TH22's with no flag byte, and a block of 128 bytes (TH24). -/
def extAll : ExtV24Layout := ⟨[0, 0, 0, 0x0F], [0x70], some [], some [1, 2, 3, 4, 5], some [0x77]⟩
@[inherit_doc extAll] def extNone : ExtV24Layout := ⟨[0, 0, 0, 5], [], none, none, none⟩
@[inherit_doc extAll] def extLong : ExtV24Layout :=
  ⟨[0, 0, 1, 8], [0x20, 0xFF], none, some (List.replicate 128 0xAB), none⟩

theorem witness_ThdrV24 : ∀ x ∈ [extAll, extNone, extLong],
    let src := tagHeaderBytes .v4 0 0x40 [0, 0, 1, 0x48] ++ extV24Bytes x
    Ready .thdr (machine src) ∧ ExtV24Ok x ∧ SrcStarts (machine src) src
      ∧ (machine src).opr.srcBase.toNat + (machine src).opr.srcLen.toNat < 2 ^ 32 := by
  intro x hx
  simp only [List.mem_cons, List.not_mem_nil, or_false] at hx
  rcases hx with rfl | rfl | rfl <;>
    exact ⟨ready_of_rangeError (by decide +kernel), ⟨rfl, by decide, rfl, rfl, rfl, by simp [extAll, extNone, extLong],
      by simp [extAll, extNone, extLong], by simp [extAll, extNone, extLong]⟩,
      (machine_srcIs _ (by decide +kernel)).starts, by decide +kernel⟩

/-- Cut right after the basic header, on each side of the v2.3 padding size's end and of the v2.4 flag count, and one
byte before the end. -/
theorem witness_CutExt : ExtV23Ok extWithCrc ∧ ExtV24Ok extAll ∧ ∀ full ∈
    [tagHeaderBytes .v3 0 0x40 [0, 0, 0, 0x40] ++ extV23Bytes extWithCrc,
      tagHeaderBytes .v4 0 0x40 [0, 0, 0, 0x40] ++ extV24Bytes extAll], ∀ n ∈ [10, 14, 15, 19, 20, full.length - 1],
    let s := machine (full.take n)
    Ready .thdr s ∧ SrcIs s (full.take n) ∧ 10 ≤ (full.take n).length ∧ (full.take n).length < full.length
      ∧ full.take n = full.take (full.take n).length ∧ s.opr.srcBase.toNat + s.opr.srcLen.toNat < 2 ^ 32 := by
  refine ⟨⟨rfl, rfl, rfl, by decide⟩, ⟨rfl, by decide, rfl, rfl, rfl, by simp [extAll], by simp [extAll],
    by simp [extAll]⟩, fun full hf n hn => ?_⟩
  simp only [List.mem_cons, List.not_mem_nil, or_false] at hf hn
  rcases hf with rfl | rfl <;> rcases hn with rfl | rfl | rfl | rfl | rfl | rfl <;>
    exact ⟨ready_of_rangeError (by decide), machine_srcIs _ (by decide), by decide, by decide, by decide, by decide⟩

/-- A block length of 129: of the first block, of the second after a first one, and of the third after two. -/
theorem witness_LongBlock : ∀ x ∈ ([⟨[0, 0, 1, 9], [0x40], none, none, none⟩,
      ⟨[0, 0, 1, 9], [0x60], some [1, 2], none, none⟩,
      ⟨[0, 0, 1, 9], [0x70], some [], some [1, 2, 3, 4, 5], none⟩] : List ExtV24Layout),
    let src := tagHeaderBytes .v4 0 0x40 [0, 0, 1, 0x48] ++ extV24Bytes x ++ [0x81]
    Ready .thdr (machine src) ∧ SrcStarts (machine src) src ∧ ExtV24Upto x ∧ 128 < (0x81 : Byte).toNat := by
  intro x hx
  simp only [List.mem_cons, List.not_mem_nil, or_false] at hx
  rcases hx with rfl | rfl | rfl
  · exact ⟨ready_of_rangeError (by decide), (machine_srcIs _ (by decide)).starts,
      ⟨rfl, by decide, by simp, by simp, rfl, .inl ⟨by decide, rfl, rfl⟩⟩, by decide⟩
  · exact ⟨ready_of_rangeError (by decide), (machine_srcIs _ (by decide)).starts,
      ⟨rfl, by decide, by simp, by simp, rfl, .inr (.inl ⟨by decide, by decide, rfl⟩)⟩, by decide⟩
  · exact ⟨ready_of_rangeError (by decide), (machine_srcIs _ (by decide)).starts,
      ⟨rfl, by decide, by simp, by simp, rfl, .inr (.inr ⟨by decide, by decide, by decide⟩)⟩, by decide⟩

/-! ### Frames -/

/-- Headers of FH2, FH4, FH5, of "TALB" in FR1 and of "TPE1" in FR25 and FR26. -/
def layV2 : HeaderLayout := ⟨.v2, [0x54, 0x54, 0x32], [0, 0, 5], 0, 0, [], [], [], []⟩
@[inherit_doc layV2] def layV3 : HeaderLayout :=
  ⟨.v3, [0x54, 0x41, 0x4C, 0x42], [0, 0, 0, 0x0B], 0xE0, 0xE0, [0, 0, 0, 0x20], [0x5A], [], []⟩
@[inherit_doc layV2] def layV4 : HeaderLayout :=
  ⟨.v4, [0x54, 0x41, 0x4C, 0x42], [0, 0, 0, 0x0B], 0x70, 0x4F, [], [0x5A], [3], [0, 0, 2, 0x15]⟩
@[inherit_doc layV2] def layTalb : HeaderLayout :=
  ⟨.v3, [0x54, 0x41, 0x4C, 0x42], [0, 0, 0, 0x0B], 0, 0, [], [], [], []⟩
@[inherit_doc layV2] def layTpe1 : HeaderLayout :=
  ⟨.v4, [0x54, 0x50, 0x45, 0x31], [0, 0, 0, 2], 0, 9, [], [], [], [0, 0, 0, 6]⟩
@[inherit_doc layV2] def layTpe1V3 : HeaderLayout :=
  ⟨.v3, [0x54, 0x50, 0x45, 0x31], [0, 0, 0, 2], 0, 0x80, [0, 0, 0, 6], [], [], []⟩

theorem layV2_ok : LayoutOk layV2 := ⟨rfl, rfl, rfl, rfl, rfl, rfl, rfl, rfl, rfl⟩
theorem layV3_ok : LayoutOk layV3 := ⟨rfl, rfl, rfl, rfl, rfl, rfl, rfl⟩
theorem layV4_ok : LayoutOk layV4 := ⟨rfl, rfl, rfl, rfl, rfl, rfl, rfl⟩
theorem layTalb_ok : LayoutOk layTalb := ⟨rfl, rfl, rfl, rfl, rfl, rfl, rfl⟩
theorem layTpe1_ok : LayoutOk layTpe1 := ⟨rfl, rfl, rfl, rfl, rfl, rfl, rfl⟩
theorem layTpe1V3_ok : LayoutOk layTpe1V3 := ⟨rfl, rfl, rfl, rfl, rfl, rfl, rfl⟩

theorem witness_DescriptorLayout : (layoutHeader layV2).ident.length = 4
    ∧ (plainClass .headerOnly).lang.length = 3 := by decide

theorem witness_Fhdr : ∀ l ∈ [layV2, layV3, layV4], LayoutOk l ∧ ∀ cap ∈ [0, 1],
    let s := { machine (layoutBytes l) with opr := { operands (layoutBytes l).length with descCap := cap } }
    Ready (fhdrOf l.ver) s ∧ SrcStarts s (layoutBytes l) := by
  intro l hl
  simp only [List.mem_cons, List.not_mem_nil, or_false] at hl
  rcases hl with rfl | rfl | rfl
  · refine ⟨layV2_ok, fun cap hc => ?_⟩
    simp only [List.mem_cons, List.not_mem_nil, or_false] at hc
    rcases hc with rfl | rfl <;> exact ⟨ready_of_rangeError (by decide), by decide, rfl⟩
  · refine ⟨layV3_ok, fun cap hc => ?_⟩
    simp only [List.mem_cons, List.not_mem_nil, or_false] at hc
    rcases hc with rfl | rfl <;> exact ⟨ready_of_rangeError (by decide), by decide, rfl⟩
  · refine ⟨layV4_ok, fun cap hc => ?_⟩
    simp only [List.mem_cons, List.not_mem_nil, or_false] at hc
    rcases hc with rfl | rfl <;> exact ⟨ready_of_rangeError (by decide), by decide, rfl⟩

/-- Nothing left, one zero byte less than a core, and an all-zero identifier with the v2.3 drain. -/
theorem witness_EndAndPadding :
    (Ready (fhdrOf .v2) (machine []) ∧ Ready (frameOf .v2) (machine []) ∧ SrcIs (machine []) []
      ∧ EndsCleanly .v2 [] .regionEnd 0)
    ∧ (Ready (fhdrOf .v4) (machine (List.replicate 9 0)) ∧ Ready (frameOf .v4) (machine (List.replicate 9 0))
      ∧ SrcIs (machine (List.replicate 9 0)) (List.replicate 9 0)
      ∧ EndsCleanly .v4 (List.replicate 9 0) .padding 9)
    ∧ Ready (fhdrOf .v3) (machine (List.replicate 12 0 ++ [1])) ∧ Ready (frameOf .v3) (machine (List.replicate 12 0 ++ [1]))
    ∧ SrcIs (machine (List.replicate 12 0 ++ [1])) (List.replicate 12 0 ++ [1])
    ∧ EndsCleanly .v3 (List.replicate 12 0 ++ [1]) .padding 12 :=
  ⟨⟨ready_of_rangeError (by decide), ready_of_rangeError (by decide), machine_srcIs _ (by decide), .inl ⟨rfl, rfl, rfl⟩⟩,
    ⟨ready_of_rangeError (by decide), ready_of_rangeError (by decide), machine_srcIs _ (by decide),
      .inr (.inl ⟨by decide, by decide, rfl, rfl, rfl⟩)⟩,
    ready_of_rangeError (by decide), ready_of_rangeError (by decide), machine_srcIs _ (by decide),
    .inr (.inr ⟨by decide, rfl, rfl, rfl⟩)⟩

/-- Inside a core, and inside the last trailing field. -/
theorem witness_CutFrameHeader :
    (Ready (fhdrOf .v2) (machine [0x54, 0, 0, 0, 0]) ∧ Ready (frameOf .v2) (machine [0x54, 0, 0, 0, 0])
      ∧ SrcIs (machine [0x54, 0, 0, 0, 0]) [0x54, 0, 0, 0, 0] ∧ HeaderCut .v2 [0x54, 0, 0, 0, 0] 0)
    ∧ (HeaderCut .v3 ((layoutBytes layV3).take 14) 0x54414C42)
    ∧ Ready (fhdrOf .v4) (machine ((layoutBytes layV4).take 15))
    ∧ Ready (frameOf .v4) (machine ((layoutBytes layV4).take 15))
    ∧ SrcIs (machine ((layoutBytes layV4).take 15)) ((layoutBytes layV4).take 15)
    ∧ HeaderCut .v4 ((layoutBytes layV4).take 15) 0x54414C42 :=
  ⟨⟨ready_of_rangeError (by decide), ready_of_rangeError (by decide), machine_srcIs _ (by decide),
    .inl ⟨by decide, rfl, rfl⟩⟩, .inr ⟨layV3, layV3_ok, rfl, by decide, by decide, rfl, rfl⟩,
    ready_of_rangeError (by decide), ready_of_rangeError (by decide), machine_srcIs _ (by decide),
    .inr ⟨layV4, layV4_ok, rfl, by decide, by decide, rfl, rfl⟩⟩

/-- A v2.3 header with no flags, an identifier and a size. -/
def bare (ident size : Bytes) : HeaderLayout := ⟨.v3, ident, size, 0, 0, [], [], [], []⟩

theorem bare_ok {ident size : Bytes} (h : allZero ident = false ∧ ident.length = 4 ∧ size.length = 4) :
    LayoutOk (bare ident size) :=
  ⟨h.1, h.2.1, h.2.2, by simp [bare, fieldLen], by simp [bare, fieldLen], rfl, rfl⟩

/-- "TPE1", compressed and without a data-length indicator (FR24). -/
def layNoDli : HeaderLayout := ⟨.v4, [0x54, 0x50, 0x45, 0x31], [0, 0, 0, 2], 0, 8, [], [], [], []⟩

/-- Each corrupt frame at its boundary: the ceiling itself, one byte short, no indicator, and one byte less than
the prefix. -/
theorem witness_FrameCorrupt :
    FrameCorrupt .v3 (layoutBytes (bare [0x50, 0x52, 0x49, 0x56] [0, 0x10, 0, 0]) ++ [1]) .sizeSanity 0x50524956
    ∧ FrameCorrupt .v3 (layoutBytes (bare [0x50, 0x52, 0x49, 0x56] [0, 0, 0, 2]) ++ [1]) .shortPayload 0x50524956
    ∧ FrameCorrupt .v4 (layoutBytes layNoDli ++ [0xC1, 0xC2]) .noDli 0x54504531
    ∧ FrameCorrupt .v3 (layoutBytes (bare [0x54, 0x41, 0x4C, 0x42] [0, 0, 0, 0]) ++ []) .textShort 0x54414C42
    ∧ FrameCorrupt .v3 (layoutBytes (bare [0x43, 0x4F, 0x4D, 0x4D] [0, 0, 0, 3]) ++ [0, 0x65, 0x6E]) .commentShort
      0x434F4D4D :=
  ⟨⟨bare _ _, _, bare_ok (by decide), rfl, rfl, rfl, .inl ⟨by decide, rfl⟩⟩,
    ⟨bare _ _, _, bare_ok (by decide), rfl, rfl, rfl, .inr ⟨by decide, .inl ⟨by decide, rfl, rfl⟩⟩⟩,
    ⟨layNoDli, _, ⟨rfl, rfl, rfl, rfl, rfl, rfl, rfl⟩, rfl, rfl, rfl,
      .inr ⟨by decide, .inr ⟨by decide, .inl ⟨rfl, rfl, rfl, rfl⟩⟩⟩⟩,
    ⟨bare _ _, _, bare_ok (by decide), rfl, rfl, rfl,
      .inr ⟨by decide, .inr ⟨by decide, .inr (.inl ⟨rfl, rfl, by decide, rfl⟩)⟩⟩⟩,
    ⟨bare _ _, _, bare_ok (by decide), rfl, rfl, rfl,
      .inr ⟨by decide, .inr ⟨by decide, .inr (.inr ⟨rfl, rfl, by decide, rfl⟩)⟩⟩⟩⟩

theorem witness_CorruptFrame : ∃ s bs, Ready (frameOf .v3) s ∧ SrcIs s bs
    ∧ FrameCorrupt .v3 bs .sizeSanity 0x50524956 :=
  ⟨machine (layoutBytes (bare [0x50, 0x52, 0x49, 0x56] [0, 0x10, 0, 0]) ++ [1]), _, ready_of_rangeError (by decide),
    machine_srcIs _ (by decide), witness_FrameCorrupt.1⟩

/-- The empty residue, and one zero byte of two. -/
theorem witness_ZeroResidue : ∃ bs bs' : Bytes, bs ≠ bs' ∧ Ready (frameOf .v3) (machine bs) ∧ SrcIs (machine bs) bs
    ∧ ZeroResidue .v3 bs ∧ Ready (frameOf .v3) (machine bs') ∧ SrcIs (machine bs') bs' ∧ ZeroResidue .v3 bs' :=
  ⟨layoutBytes (bare [0x50, 0x52, 0x49, 0x56] [0, 0, 0, 1]) ++ [],
    layoutBytes (bare [0x50, 0x52, 0x49, 0x56] [0, 0, 0, 2]) ++ [0], by decide, ready_of_rangeError (by decide),
    machine_srcIs _ (by decide), ⟨bare _ _, _, bare_ok (by decide), rfl, rfl, by decide, by decide, rfl⟩,
    ready_of_rangeError (by decide), machine_srcIs _ (by decide),
    ⟨bare _ _, _, bare_ok (by decide), rfl, rfl, by decide, by decide, rfl⟩⟩

/-- An uncompressed frame. -/
def plainFrame (l : HeaderLayout) (payload : Bytes) : RegionFrame := ⟨l, payload, payload⟩

/-- An uncompressed frame of each version: "TT2", "TALB" and a v2.4 "TALB" with group, encryption and
unsynchronization flags (FR33). -/
def storedV2 : RegionFrame := plainFrame layV2 [0, 0x61, 0x62, 0x63, 0x64]
@[inherit_doc storedV2] def storedV3 : RegionFrame :=
  plainFrame layTalb [0, 0x54, 0x65, 0x73, 0x74, 0x20, 0x41, 0x6C, 0x62, 0x75, 0x6D]
@[inherit_doc storedV2] def storedV4 : RegionFrame :=
  plainFrame ⟨.v4, [0x54, 0x41, 0x4C, 0x42], [0, 0, 0, 3], 0, 0x46, [], [0x11], [0x22], []⟩ [0, 0x61, 0x62]

theorem storedV2_ok : FrameOk .v2 storedV2 := ⟨layV2_ok, rfl, rfl, by decide, rfl, by decide, _, rfl⟩
theorem storedV3_ok : FrameOk .v3 storedV3 := ⟨layTalb_ok, rfl, rfl, by decide, rfl, by decide, _, rfl⟩
theorem storedV4_ok : FrameOk .v4 storedV4 :=
  ⟨⟨rfl, rfl, rfl, rfl, rfl, rfl, rfl⟩, rfl, rfl, by decide, rfl, by decide, _, rfl⟩

/-- "TPE1" compressed, with the bytes the test fit inflates it to (FR25). -/
def packedTpe1 : RegionFrame := ⟨layTpe1, [0xC1, 0xC2], [0x00, 0x48, 0x65, 0x6C, 0x6C, 0x6F]⟩

/-- A compressed frame decodes with any engine that inflates it as the test fit does. -/
theorem packedTpe1_ok (h : Config.inflate [0xC1, 0xC2] = inflateT [0xC1, 0xC2]) : FrameOk .v4 packedTpe1 :=
  ⟨layTpe1_ok, rfl, rfl, by decide, h, by decide, _, rfl⟩

theorem witness_FrameStored :
    (FrameOk .v2 storedV2 ∧ packed storedV2 = false ∧ Ready (frameOf .v2) (machine (frameBytes storedV2))
      ∧ SrcStarts (machine (frameBytes storedV2)) (frameBytes storedV2))
    ∧ (FrameOk .v3 storedV3 ∧ packed storedV3 = false ∧ Ready (frameOf .v3) (machine (frameBytes storedV3))
      ∧ SrcStarts (machine (frameBytes storedV3)) (frameBytes storedV3))
    ∧ FrameOk .v4 storedV4 ∧ packed storedV4 = false ∧ Ready (frameOf .v4) (machine (frameBytes storedV4))
    ∧ SrcStarts (machine (frameBytes storedV4)) (frameBytes storedV4) :=
  ⟨⟨storedV2_ok, rfl, ready_of_rangeError (by decide), (machine_srcIs _ (by decide)).starts⟩,
    ⟨storedV3_ok, rfl, ready_of_rangeError (by decide), (machine_srcIs _ (by decide)).starts⟩,
    storedV4_ok, rfl, ready_of_rangeError (by decide), (machine_srcIs _ (by decide)).starts⟩

theorem witness_FrameInflates : ∀ l ∈ [layTpe1, layTpe1V3], LayoutOk l
    ∧ Ready (frameOf l.ver) (machine (layoutBytes l ++ [0xC1, 0xC2])) ∧ (layoutHeader l).nf.cmp = true
    ∧ (l.ver = .v4 → (layoutHeader l).nf.dli = true) ∧ (layoutHeader l).size = 2
    ∧ SrcStarts (machine (layoutBytes l ++ [0xC1, 0xC2])) (layoutBytes l ++ [0xC1, 0xC2]) := by
  intro l hl
  simp only [List.mem_cons, List.not_mem_nil, or_false] at hl
  rcases hl with rfl | rfl
  · exact ⟨layTpe1_ok, ready_of_rangeError (by decide), rfl, fun _ => rfl, rfl, (machine_srcIs _ (by decide)).starts⟩
  · exact ⟨layTpe1V3_ok, ready_of_rangeError (by decide), rfl, (fun h => by cases h), rfl,
      (machine_srcIs _ (by decide)).starts⟩

theorem witness_Classification : (0x54 : Byte) = 0x54 ∧ ([0x43, 0x4F, 0x4D] : Bytes) = [0x43, 0x4F, 0x4D]
    ∧ ([0, 0x65, 0x6E] : Bytes).length < 4 ∧ (∀ w ∈ ([0x78] : Bytes), w ≠ 0) ∧ (0x50 : Byte) ≠ 0x54
    ∧ ([0x50, 0x52, 0x49] : Bytes) ≠ [0x43, 0x4F, 0x4D] := by decide

/-! ### PARSE -/

/-- A v2.3 tag without an extended header, one with TH15's (10 bytes reported, 14 consumed) and a v2.4 tag with
TH21's (15 bytes), each with this many bytes of frame region. -/
def plainTag (flags : Byte) (n : Nat) : TagLayout := ⟨.v3, 0, flags, [0, 0, 0, BitVec.ofNat 8 n], .absent⟩
@[inherit_doc plainTag] def extTagV3 (n : Nat) : TagLayout :=
  ⟨.v3, 0, 0x40, [0, 0, 0, BitVec.ofNat 8 (10 + n)], .v23 extWithCrc⟩
@[inherit_doc plainTag] def extTagV4 (n : Nat) : TagLayout :=
  ⟨.v4, 0, 0x40, [0, 0, 0, BitVec.ofNat 8 (15 + n)], .v24 extAll⟩

theorem plainTag_ok (base : Nat) {flags : Byte} (n : Nat) (h : flags.getLsbD 6 = false) :
    TagOk base (plainTag flags n) := ⟨rfl, .inl h⟩

theorem extTagV3_ok (base n : Nat) : TagOk base (extTagV3 n) := ⟨rfl, rfl, by simp [extTagV3], rfl, rfl, rfl, by decide⟩

theorem extTagV4_ok (n : Nat) : TagOk 0x100 (extTagV4 n) :=
  ⟨rfl, rfl, by simp [extTagV4], ⟨rfl, by decide, rfl, rfl, rfl, by simp [extAll], by simp [extAll], by simp [extAll]⟩,
    by decide⟩

/-- What is left of `ParseInput` on a machine whose SRC is a tag's headers and its region: its ranges, and sizes. -/
theorem parseInput_machine {h : TagLayout} {xs : Bytes} {f : OperandRegs → OperandRegs} (ht : TagOk 0x100 h)
    (hf : (f (operands (tagBytes h ++ xs).length)).srcBase = 0x100)
    (hn : (f (operands (tagBytes h ++ xs).length)).srcLen.toNat = (tagBytes h ++ xs).length)
    (hr : rangeError 0x10000 (f (operands (tagBytes h ++ xs).length)) (rangesUsed .parse) = none)
    (hx : xs.length + (tagRegs 0x100 h).extSize.toNat = synchsafe h.size)
    (hd : (regionOf h.flags xs).length ≤ (f (operands (tagBytes h ++ xs).length)).dstCap.toNat) :
    ParseInput (machineWith (tagBytes h ++ xs) f) h xs := by
  have hb : (machineWith (tagBytes h ++ xs) f).opr.srcBase.toNat = 0x100 := by
    simp only [machineWith, hf]
    rfl
  exact ⟨ready_of_rangeError hr, by rwa [hb], by rwa [hb],
    ⟨hn.ge, by rw [hb]; exact Holds.written [] 0x100 (tagBytes h ++ xs)⟩, hd⟩

theorem framesFit_one {s : State} {ver : FrameVer} {f : RegionFrame} (hf : FrameOk ver f)
    (hd : 1 ≤ s.opr.descCap.toNat) (hp : payUsed [f] ≤ s.opr.payCap.toNat) : FramesFit s ver [f] :=
  ⟨by simpa using hf, hd, hp⟩

/-- END, padding, and a cut payload of nothing but zeros, the first through the unsynchronization flag (PA1, PA8,
PA11); then END after each extended header. -/
theorem witness_ParseEnumerates : ∀ q ∈ [(plainTag 0x80 21, storedV3, [], StopReason.regionEnd, 0),
      (plainTag 0 25, storedV3, [0, 0, 0, 0], .padding, 4),
      (plainTag 0 32, storedV3, [0x50, 0x52, 0x49, 0x56, 0, 0, 0, 4, 0, 0, 0], .padding, 11),
      (extTagV3 21, storedV3, [], .regionEnd, 0), (extTagV4 15, storedV4, [], .regionEnd, 0)],
    let s := machineWith (tagBytes q.1 ++ (frameBytes q.2.1 ++ q.2.2.1)) id
    ParseInput s q.1 (frameBytes q.2.1 ++ q.2.2.1) ∧ FramesFit s q.1.ver [q.2.1]
      ∧ regionOf q.1.flags (frameBytes q.2.1 ++ q.2.2.1) = regionBytes [q.2.1] ++ q.2.2.1
      ∧ (EndsCleanly q.1.ver q.2.2.1 q.2.2.2.1 q.2.2.2.2
        ∨ (ZeroResidue q.1.ver q.2.2.1 ∧ q.2.2.2.1 = .padding ∧ q.2.2.2.2 = q.2.2.1.length)) := by
  intro q hq
  simp only [List.mem_cons, List.not_mem_nil, or_false] at hq
  rcases hq with rfl | rfl | rfl | rfl | rfl
  · exact ⟨parseInput_machine (plainTag_ok _ _ (by decide)) rfl (by decide) (by decide) (by decide) (by decide),
      framesFit_one storedV3_ok (by decide) (by decide), by decide, .inl (.inl ⟨rfl, rfl, rfl⟩)⟩
  · exact ⟨parseInput_machine (plainTag_ok _ _ (by decide)) rfl (by decide) (by decide) (by decide) (by decide),
      framesFit_one storedV3_ok (by decide) (by decide), by decide,
      .inl (.inr (.inl ⟨by decide, by decide, rfl, rfl, rfl⟩))⟩
  · exact ⟨parseInput_machine (plainTag_ok _ _ (by decide)) rfl (by decide) (by decide) (by decide) (by decide),
      framesFit_one storedV3_ok (by decide) (by decide), by decide,
      .inr ⟨⟨bare [0x50, 0x52, 0x49, 0x56] [0, 0, 0, 4], [0], bare_ok (by decide), rfl, rfl, by decide, by decide, rfl⟩,
        rfl, rfl⟩⟩
  · exact ⟨parseInput_machine (extTagV3_ok _ _) rfl (by decide) (by decide) (by decide) (by decide),
      framesFit_one storedV3_ok (by decide) (by decide), by decide, .inl (.inl ⟨rfl, rfl, rfl⟩)⟩
  · exact ⟨parseInput_machine (extTagV4_ok _) rfl (by decide) (by decide) (by decide) (by decide),
      framesFit_one storedV4_ok (by decide) (by decide), by decide, .inl (.inl ⟨rfl, rfl, rfl⟩)⟩

/-- A list that mixes both kinds of frame, with any engine that inflates the compressed one as the test fit does: PAY
has room for exactly its six bytes. -/
theorem witness_ParseMixed (h : Config.inflate [0xC1, 0xC2] = inflateT [0xC1, 0xC2]) :
    ∃ s, ParseInput s (extTagV4 46) (regionBytes [storedV4, packedTpe1, storedV4])
      ∧ FramesFit s .v4 [storedV4, packedTpe1, storedV4]
      ∧ payUsed [storedV4, packedTpe1, storedV4] = s.opr.payCap.toNat :=
  ⟨machineWith (tagBytes (extTagV4 46) ++ regionBytes [storedV4, packedTpe1, storedV4])
      fun o => { o with payCap := 6 },
    parseInput_machine (extTagV4_ok _) rfl (by decide) (by decide) (by decide) (by decide),
    ⟨by simp only [List.mem_cons, List.not_mem_nil, or_false]; rintro f (rfl | rfl | rfl)
        <;> first | exact storedV4_ok | exact packedTpe1_ok h, by decide, by decide⟩, by decide⟩

/-- A frame at the size ceiling. -/
def atCeiling : Bytes := layoutBytes (bare [0x50, 0x52, 0x49, 0x56] [0, 0x10, 0, 0]) ++ [1]

/-- After one frame, a cut header (PA7) and a frame at the size ceiling (PA9), the latter after an extended header. -/
theorem witness_ParseKeeps :
    (∃ s, ParseInput s (plainTag 0 23) (frameBytes storedV3 ++ [0x54, 0x49])
      ∧ FramesFit s .v3 [storedV3] ∧ regionOf 0 (frameBytes storedV3 ++ [0x54, 0x49]) = regionBytes [storedV3] ++ [0x54, 0x49]
      ∧ HeaderCut .v3 [0x54, 0x49] 0)
    ∧ ∃ s, ParseInput s (extTagV3 32) (frameBytes storedV3 ++ atCeiling) ∧ FramesFit s .v3 [storedV3]
      ∧ regionOf 0x40 (frameBytes storedV3 ++ atCeiling) = regionBytes [storedV3] ++ atCeiling
      ∧ FrameCorrupt .v3 atCeiling .sizeSanity 0x50524956 :=
  ⟨⟨machineWith (tagBytes (plainTag 0 23) ++ (frameBytes storedV3 ++ [0x54, 0x49])) id,
      parseInput_machine (plainTag_ok _ _ (by decide)) rfl (by decide) (by decide) (by decide) (by decide),
      framesFit_one storedV3_ok (by decide) (by decide), by decide, .inl ⟨by decide, rfl, rfl⟩⟩,
    machineWith (tagBytes (extTagV3 32) ++ (frameBytes storedV3 ++ atCeiling)) id,
    parseInput_machine (extTagV3_ok _ _) rfl (by decide) (by decide) (by decide) (by decide),
    framesFit_one storedV3_ok (by decide) (by decide), by decide, witness_FrameCorrupt.1⟩

/-- One descriptor for two frames, and none for one after an extended header (PA12, PA13). -/
theorem witness_ParseStops : ∀ q ∈ [(plainTag 0 42, [storedV3], 1), (extTagV3 21, [], 0)], ∃ s,
    ParseInput s q.1 (regionBytes q.2.1 ++ frameBytes storedV3) ∧ FramesFit s q.1.ver q.2.1
      ∧ FrameOk q.1.ver storedV3 ∧ q.2.1.length = s.opr.descCap.toNat ∧ s.opr.descCap.toNat = q.2.2
      ∧ regionOf q.1.flags (regionBytes q.2.1 ++ frameBytes storedV3) = regionBytes q.2.1 ++ frameBytes storedV3 ++ [] := by
  intro q hq
  simp only [List.mem_cons, List.not_mem_nil, or_false] at hq
  rcases hq with rfl | rfl
  · exact ⟨machineWith _ fun o => { o with descCap := 1 },
      parseInput_machine (plainTag_ok _ _ (by decide)) rfl (by decide) (by decide) (by decide) (by decide),
      framesFit_one storedV3_ok (by decide) (by decide), storedV3_ok, by decide, by decide, by decide⟩
  · exact ⟨machineWith _ fun o => { o with descCap := 0 },
      parseInput_machine (extTagV3_ok _ _) rfl (by decide) (by decide) (by decide) (by decide),
      ⟨by simp, by decide, by decide⟩, storedV3_ok, by decide, by decide, by decide⟩

/-- A compressed frame after an uncompressed one and before another, with PAY room for five bytes and for six, after
an extended header; and one that is the whole region (PA34). -/
theorem witness_ParseInflates : (layoutHeader layTpe1).nf.cmp = true ∧ (layoutHeader layTpe1).nf.dli = true
    ∧ LayoutOk layTpe1 ∧ (layoutHeader layTpe1).size = ([0xC1, 0xC2] : Bytes).length
    ∧ (∀ cap ∈ [5, 6], ∃ s, s.opr.payCap.toNat = cap
      ∧ ParseInput s (extTagV4 46) (regionBytes [storedV4] ++ (layoutBytes layTpe1 ++ [0xC1, 0xC2]) ++ frameBytes storedV4)
      ∧ FramesFit s .v4 [storedV4])
    ∧ ∃ s, ParseInput s ⟨.v4, 0, 0, [0, 0, 0, 16], .absent⟩ (layoutBytes layTpe1 ++ [0xC1, 0xC2])
      ∧ FramesFit s .v4 [] := by
  refine ⟨rfl, rfl, layTpe1_ok, rfl, fun cap hc => ?_, machineWith _ id,
    parseInput_machine ⟨rfl, .inl (by decide)⟩ rfl (by decide) (by decide) (by decide) (by decide),
    by simp, by decide, by decide⟩
  simp only [List.mem_cons, List.not_mem_nil, or_false] at hc
  rcases hc with rfl | rfl
  · exact ⟨machineWith _ fun o => { o with payCap := 5 }, rfl,
      parseInput_machine (extTagV4_ok _) rfl (by decide) (by decide) (by decide) (by decide),
      framesFit_one storedV4_ok (by decide) (by decide)⟩
  · exact ⟨machineWith _ fun o => { o with payCap := 6 }, rfl,
      parseInput_machine (extTagV4_ok _) rfl (by decide) (by decide) (by decide) (by decide),
      framesFit_one storedV4_ok (by decide) (by decide)⟩

/-- THDR with an error; and a region one byte longer than SRC. -/
theorem witness_ParseAsThdr_errors :
    (Ready .parse (machine [0x49]) ∧ seen (exec .thdr (machine [0x49])) (·.status.err) = some .notATag)
    ∧ Ready .parse (machine (tagHeaderBytes .v3 0 0 [0, 0, 0, 1]))
    ∧ seen (exec .thdr (machine (tagHeaderBytes .v3 0 0 [0, 0, 0, 1])))
      (fun t => (t.status.err, t.res.res0, t.res.res1)) = some (.noError, 10, 1) :=
  ⟨⟨ready_of_rangeError (by decide), by decide⟩, ready_of_rangeError (by decide), by decide⟩

/-- A region after an extended header, for which DST has one byte too few, and exactly enough. -/
theorem witness_ParseAsThdr_region : ∀ cap ∈ [20, 21], ∃ s, Ready .parse s ∧ s.opr.dstCap.toNat = cap
    ∧ Holds s.mem (0x100 + 24) talb ∧ talb.length = 21 ∧ s.opr.srcLen.toNat = 24 + talb.length
    ∧ seen (exec .thdr s) (fun t => (t.status.err, t.res.res0, t.res.res1, t.hdr.flags)) =
      some (.noError, 24, 21, 0x40) := by
  intro cap hc
  refine ⟨machineWith (tagBytes (extTagV3 21) ++ talb) fun o => { o with dstCap := BitVec.ofNat 32 cap }, ?_⟩
  simp only [List.mem_cons, List.not_mem_nil, or_false] at hc
  rcases hc with rfl | rfl <;> exact ⟨ready_of_rangeError (by decide), rfl, rfl, rfl, by decide, by decide⟩

/-- A PARSE that ends with an error and STOP NONE although RES1 is the region's length: DST_FULL (PA3). -/
theorem witness_ParseStoresNothing : ∃ s t, exec .parse s = .next t ∧ t.status.err = .capacity
    ∧ t.status.stop = .noStop ∧ t.res.res1 = 21 :=
  ⟨machineWith (tagBytes (plainTag 0 21) ++ talb) fun o => { o with dstCap := 20 }, _, rfl, rfl, rfl, rfl⟩

/-! ### What holds of every command -/

/-- Every command completes from some state here: INFL through its range check, the others to their last line. -/
theorem witness_commands : ∀ i : Instr, ∃ s t, exec i s = .next t := by
  intro i
  cases i with
  | infl => exact ⟨machineWith [] fun o => { o with srcLen := 0xFFFFFFFF }, _, rfl⟩
  | ssdec => exact ⟨machine [], _, rfl⟩
  | resync => exact ⟨machine [], _, rfl⟩
  | thdr => exact ⟨machine [], _, rfl⟩
  | fhdrV2 => exact ⟨machine [], _, rfl⟩
  | fhdrV3 => exact ⟨machine [], _, rfl⟩
  | fhdrV4 => exact ⟨machine [], _, rfl⟩
  | frameV2 => exact ⟨machine [], _, rfl⟩
  | frameV3 => exact ⟨machine [], _, rfl⟩
  | frameV4 => exact ⟨machine [], _, rfl⟩
  | parse => exact ⟨machine (tagHeaderBytes .v3 0 0 [0, 0, 0, 0]), _, rfl⟩

/-- A completion with RANGE and one with OVERLAP (PR15, PR27). -/
theorem witness_range_and_overlap :
    (∃ s t, exec .resync s = .next t ∧ t.status.err = .range)
    ∧ ∃ s t, exec .resync s = .next t ∧ t.status.err = .overlap :=
  ⟨⟨machineWith [] fun o => { o with srcBase := 0xFFFF, srcLen := 2 }, _, rfl, rfl⟩,
    machineWith (List.replicate 16 0) fun o => { o with dstBase := 0x10F }, _, rfl, rfl⟩

theorem witness_StepKeepsInv : Inv (pending 1) ∧ ∃ t, step (pending 1) = .next t :=
  ⟨⟨by decide, by decide, by decide, headerCoherent_zero⟩, _, rfl⟩

end Sys2Proof.Machine
end

section
/-! The synchsafe law of R15 and the descriptor layout of R150. -/

namespace Sys2Proof.Machine

open Sys2Proof (Word Byte Bytes)

/-! ## The synchsafe conversions, bit by bit (R180, R15)

Bit j of seven-bit group g stands at 7 * g + j in the value and at 8 * g + j in the synchsafe word. -/

theorem getLsbD_fromSynchsafe (w : Word) {g j : Nat} (hg : g < 4) (hj : j < 7) :
    (fromSynchsafe w).getLsbD (7 * g + j) = w.getLsbD (8 * g + j) := by
  unfold fromSynchsafe
  interval_cases g <;> interval_cases j <;> simp

theorem getLsbD_toSynchsafe (x : Word) {g j : Nat} (hg : g < 4) (hj : j < 7) :
    (toSynchsafe x).getLsbD (8 * g + j) = x.getLsbD (7 * g + j) := by
  unfold toSynchsafe
  interval_cases g <;> interval_cases j <;> simp

theorem getLsbD_toSynchsafe_high (x : Word) {g : Nat} (hg : g < 4) :
    (toSynchsafe x).getLsbD (8 * g + 7) = false := by
  unfold toSynchsafe
  interval_cases g <;> simp

/-- Every bit of a word is a low bit of one of its four bytes or the high bit of one. -/
theorem eq_of_byteBits {v w : Word} (low : ∀ g < 4, ∀ j < 7, v.getLsbD (8 * g + j) = w.getLsbD (8 * g + j))
    (high : ∀ g < 4, v.getLsbD (8 * g + 7) = w.getLsbD (8 * g + 7)) : v = w := by
  refine BitVec.eq_of_getLsbD_eq fun i hi => ?_
  have hsplit : 8 * (i / 8) + i % 8 = i := Nat.div_add_mod i 8
  obtain hj | hj : i % 8 < 7 ∨ i % 8 = 7 := by omega
  · exact hsplit ▸ low (i / 8) (by omega) (i % 8) hj
  · exact hsplit ▸ hj ▸ high (i / 8) (by omega)

/-- Two values below 2^28 with the same seven-bit groups are equal. -/
theorem eq_of_sevenBitGroups {x y : Word} (hx : x.toNat < 2 ^ 28) (hy : y.toNat < 2 ^ 28)
    (h : ∀ g < 4, ∀ j < 7, x.getLsbD (7 * g + j) = y.getLsbD (7 * g + j)) : x = y := by
  refine BitVec.eq_of_getLsbD_eq fun i _ => ?_
  obtain hi | hi := Nat.lt_or_ge i 28
  · exact Nat.div_add_mod i 7 ▸ h (i / 7) (by omega) (i % 7) (by omega)
  · have hpow : 2 ^ 28 ≤ 2 ^ i := Nat.pow_le_pow_right (by omega) hi
    simp only [BitVec.getLsbD, Nat.testBit_lt_two_pow (hx.trans_le hpow), Nat.testBit_lt_two_pow (hy.trans_le hpow)]

/-- The round trip of R15 on the values that fit in four seven-bit groups. -/
theorem fromSynchsafe_toSynchsafe {x : Word} (hx : x.toNat < 2 ^ 28) : fromSynchsafe (toSynchsafe x) = x :=
  eq_of_sevenBitGroups (fromSynchsafe_lt _) hx fun _ hg _ hj =>
    (getLsbD_fromSynchsafe _ hg hj).trans (getLsbD_toSynchsafe x hg hj)

theorem toSynchsafe_and_highBits (x : Word) : toSynchsafe x &&& 0x80808080 = 0 := by
  refine eq_of_byteBits (fun g hg j hj => ?_) fun g hg => ?_
  · have hmask : ∀ g < 4, ∀ j < 7, (0x80808080 : Word).getLsbD (8 * g + j) = false := by decide
    rw [BitVec.getLsbD_and, hmask g hg j hj, Bool.and_false]
    exact BitVec.getLsbD_zero.symm
  · rw [BitVec.getLsbD_and, getLsbD_toSynchsafe_high x hg, Bool.false_and]
    exact BitVec.getLsbD_zero.symm

/-- The encoder reads bits 27:0 only. -/
theorem toSynchsafe_congr {x y : Word} (h : x.extractLsb' 0 28 = y.extractLsb' 0 28) :
    toSynchsafe x = toSynchsafe y := by
  have hbit : ∀ k < 28, x.getLsbD k = y.getLsbD k := fun k hk => by
    simpa [hk] using congrArg (·.getLsbD k) h
  refine eq_of_byteBits (fun g hg j hj => ?_) fun g hg => ?_
  · rw [getLsbD_toSynchsafe x hg hj, getLsbD_toSynchsafe y hg hj, hbit _ (by omega)]
  · rw [getLsbD_toSynchsafe_high x hg, getLsbD_toSynchsafe_high y hg]

/-- Settles O26, bit by bit: both conversions move bit j of group g between 7 * g + j and 8 * g + j. -/
theorem synchsafeLaw : Obligations.SynchsafeLaw :=
  ⟨fun _ => fromSynchsafe_toSynchsafe, toSynchsafe_and_highBits, fun _ _ => toSynchsafe_congr⟩

/-! ## Big-endian numbers (R10) -/

theorem be_append_singleton (bs : Bytes) (b : Byte) : be (bs ++ [b]) = 256 * be bs + b.toNat := by
  simp only [be, List.foldl_append, List.foldl_cons, List.foldl_nil, Nat.mul_comm]

/-- The fold of `be` over `bytesBe v n`, from any value already read. -/
theorem foldl_bytesBe (v n acc : Nat) :
    (bytesBe v n).foldl (fun a x => a * 256 + x.toNat) acc = acc * 256 ^ n + v % 256 ^ n := by
  induction n generalizing acc with
  | zero => simp [bytesBe, Nat.mod_one]
  | succ n ih =>
    have hmod : v % 256 ^ (n + 1) = v % 256 ^ n + 256 ^ n * (v / 256 ^ n % 256) := Nat.mod_pow_succ
    simp only [bytesBe, List.foldl_cons, ih, BitVec.toNat_ofNat, hmod]
    ring

/-- `bytes_be` of n bytes holds its number modulo 2^(8n) (R10). -/
theorem be_bytesBe (v n : Nat) : be (bytesBe v n) = v % 256 ^ n := by
  simpa [be] using foldl_bytesBe v n 0

theorem be_bytesBe_four (v : Nat) : be (bytesBe v 4) = v % 2 ^ 32 := be_bytesBe v 4

/-! ## The descriptor (R150, R289) -/

theorem toNat_kindNum (k : FrameKind) : (BitVec.ofNat 8 (kindNum k)).toNat = kindNum k := by cases k <;> rfl

theorem toNat_verNum (v : FrameVer) : (BitVec.ofNat 8 (verNum v)).toNat = verNum v := by cases v <;> rfl

/-- A slice that begins after p is a slice of what follows p. -/
theorem slice_append_of_le {p : Bytes} {i : Nat} (h : p.length ≤ i) (q : Bytes) (j : Nat) :
    slice (p ++ q) i j = slice q (i - p.length) (j - p.length) := by
  rw [slice, slice, List.drop_append, List.drop_of_length_le h, List.nil_append,
    show j - p.length - (i - p.length) = j - i by omega]

theorem slice_append_length {p : Bytes} {j : Nat} (h : p.length = j) (q : Bytes) : slice (p ++ q) 0 j = p := by
  simp [slice, h]

theorem slice_whole {b : Bytes} {j : Nat} (h : b.length = j) : slice b 0 j = b := by
  simpa using slice_append_length h []

theorem byteAt_append_of_le {p : Bytes} {i : Nat} (h : p.length ≤ i) (q : Bytes) :
    byteAt (p ++ q) i = byteAt q (i - p.length) := List.getD_append_right _ _ _ _ h

theorem slice_cons_of_pos (x : Byte) (b : Bytes) {i : Nat} (h : 0 < i) (j : Nat) :
    slice (x :: b) i j = slice b (i - 1) (j - 1) := slice_append_of_le (p := [x]) h b j

theorem byteAt_cons_of_pos (x : Byte) (b : Bytes) {i : Nat} (h : 0 < i) :
    byteAt (x :: b) i = byteAt b (i - 1) := byteAt_append_of_le (p := [x]) h b

theorem byteAt_cons_zero (x : Byte) (b : Bytes) : byteAt (x :: b) 0 = x := rfl

section Fields

variable {hd : FrameHeader} {cls : FrameClass} (hid : hd.ident.length = 4) (hl : cls.lang.length = 3)
  (off addr len : Nat)

include hid in
/-- The first twelve bytes: the identifier and eight one-byte fields. -/
theorem descBytes_headerFields : let b := descBytes hd cls off addr len
    slice b 0 4 = hd.ident ∧ byteAt b 4 = BitVec.ofNat 8 (kindNum cls.kind) ∧ byteAt b 5 = BitVec.ofNat 8 (verNum hd.ver)
    ∧ byteAt b 6 = BitVec.ofNat 8 hd.hdrlen ∧ byteAt b 7 = nflagsByte hd.nf
    ∧ byteAt b 8 = hd.f1 ∧ byteAt b 9 = hd.f2 ∧ byteAt b 10 = hd.gid ∧ byteAt b 11 = hd.em := by
  simp [descBytes, slice_append_length, byteAt_append_of_le, byteAt_cons_of_pos, byteAt_cons_zero, hid]

include hid in
/-- Bytes 12 to 31: the five numbers of the frame's place and payload. -/
theorem descBytes_placeFields : let b := descBytes hd cls off addr len
    slice b 12 16 = bytesBe off 4 ∧ slice b 16 20 = bytesBe hd.size 4 ∧ slice b 20 24 = bytesBe hd.dlen 4
    ∧ slice b 24 28 = bytesBe addr 4 ∧ slice b 28 32 = bytesBe len 4 := by
  simp [descBytes, slice_append_of_le, slice_cons_of_pos, slice_append_length, bytesBe_length, hid]

include hid hl in
/-- Bytes 32 to 63: the classification, and twelve bytes of zero. -/
theorem descBytes_classFields : let b := descBytes hd cls off addr len
    byteAt b 32 = cls.tenc ∧ slice b 33 36 = cls.lang ∧ slice b 36 40 = bytesBe cls.f1 4
    ∧ slice b 40 44 = bytesBe cls.f2 4 ∧ slice b 44 48 = bytesBe cls.f3 4 ∧ slice b 48 52 = bytesBe cls.f4 4
    ∧ slice b 52 64 = List.replicate 12 0 := by
  simp [descBytes, slice_append_of_le, slice_cons_of_pos, slice_append_length, byteAt_append_of_le,
    byteAt_cons_of_pos, byteAt_cons_zero, bytesBe_length, slice_whole, hid, hl]

end Fields

/-- Settles O39: the fields by their places in `descBytes`, the numbers by `be_bytesBe`. -/
theorem descriptorLayout : Obligations.DescriptorLayout := by
  refine ⟨rfl, rfl, ⟨rfl, fun bs b => ⟨be_append_singleton bs b, rfl⟩⟩, fun hd cls off addr len hid hl => ?_⟩
  obtain ⟨hident, hkind, hver, hhdrlen, hnf, hf1, hf2, hgid, hem⟩ :=
    descBytes_headerFields (cls := cls) hid off addr len
  obtain ⟨hoff, hsize, hdlen, haddr, hlen⟩ := descBytes_placeFields (cls := cls) hid off addr len
  obtain ⟨htenc, hlang, hc1, hc2, hc3, hc4, hrest⟩ := descBytes_classFields hid hl off addr len
  refine ⟨descBytes_length hid hl off addr len, hident, ?_, ?_, hhdrlen, hnf, hf1, hf2, hgid, hem, ?_, ?_, ?_, ?_,
    ?_, htenc, hlang, ?_, ?_, ?_, ?_, ?_⟩
  · rw [hkind, toNat_kindNum]
  · rw [hver, toNat_verNum]
  · rw [hoff, be_bytesBe_four]
  · rw [hsize, be_bytesBe_four]
  · rw [hdlen, be_bytesBe_four]
  · rw [haddr, be_bytesBe_four]
  · rw [hlen, be_bytesBe_four]
  · rw [hc1, be_bytesBe_four]
  · rw [hc2, be_bytesBe_four]
  · rw [hc3, be_bytesBe_four]
  · rw [hc4, be_bytesBe_four]
  · rw [hrest]; rfl

end Sys2Proof.Machine
end

section
/-! The register map, what a host read and a host write of each register does (R31 to R50, R405), and everything one
step of the machine can do (R400). -/

namespace Sys2Proof.Machine

open Sys2Proof (Word Byte Bytes Instr)

/-! ## Offsets (R31, R49, R50) -/

theorem accessOk_iff {off : Nat} : accessOk off = true ↔ off % 4 = 0 ∧ off < 0x100 := by
  rw [accessOk, Bool.and_eq_true, beq_iff_eq, decide_eq_true_eq]
  exact Iff.rfl

theorem mem_registerMap (r : RegName) : r ∈ registerMap := by cases r <;> decide

theorem offsetOf_div (r : RegName) : offsetOf r / 4 = registerMap.idxOf r :=
  Nat.mul_div_cancel_left _ (by decide)

@[simp] theorem regAt_offsetOf (r : RegName) : regAt (offsetOf r) = some r := by
  rw [regAt, offsetOf_div, List.getElem?_idxOf (mem_registerMap r)]

@[simp] theorem accessOk_offsetOf (r : RegName) : accessOk (offsetOf r) = true := by
  have hlt : registerMap.idxOf r < 38 := List.idxOf_lt_length_iff.mpr (mem_registerMap r)
  rw [accessOk_iff, offsetOf]
  omega

/-- Past the last register every offset is reserved (R49). -/
theorem regAt_reserved {off : Nat} (h : 0x98 ≤ off) : regAt off = none :=
  List.getElem?_eq_none (show 38 ≤ off / 4 by omega)

/-- A register whose offset is at or above that of the n-th register is none of the first n. -/
theorem mem_drop_of_regAt {n off : Nat} {r : RegName} (h : regAt off = some r) (hn : 4 * n ≤ off) :
    r ∈ registerMap.drop n := by
  refine List.mem_of_getElem? (i := off / 4 - n) ?_
  rw [List.getElem?_drop, show n + (off / 4 - n) = off / 4 by omega]
  exact h

/-- No register stands at two aligned offsets. -/
theorem offset_eq_of_regAt {off off' : Nat} {r : RegName} (hok : accessOk off = true) (hok' : accessOk off' = true)
    (h : regAt off = some r) (h' : regAt off' = some r) : off = off' := by
  have hidx : off / 4 = off' / 4 :=
    (List.getElem?_inj (List.getElem?_eq_some_iff.mp h).1 (by decide)).mp (h.trans h'.symm)
  rw [accessOk_iff] at hok hok'
  omega

/-- Settles O9, offset by offset. -/
theorem registerOffsets : Obligations.RegisterOffsets := by
  unfold Obligations.RegisterOffsets
  decide

/-! ## Fields of a register's word (R32 to R48)

The words are sums of fields at their places, so a field is a quotient and a remainder. -/

theorem getLsbD_ofNat_eq {n i : Nat} {b : Bool} (hi : i < 32) (h : n / 2 ^ i % 2 = b.toNat) :
    (BitVec.ofNat 32 n).getLsbD i = b := by
  rw [BitVec.getLsbD_ofNat, Nat.testBit_eq_decide_div_mod_eq, h]
  cases b <;> simp [hi]

theorem extractLsb'_ofNat {n i k : Nat} (hik : i + k ≤ 32) :
    (BitVec.ofNat 32 n).extractLsb' i k = BitVec.ofNat k (n / 2 ^ i) := by
  refine BitVec.eq_of_getLsbD_eq fun j hj => ?_
  have hij : i + j < 32 := by omega
  rw [BitVec.getLsbD_extractLsb', BitVec.getLsbD_ofNat, BitVec.getLsbD_ofNat, Nat.testBit_div_two_pow, Nat.add_comm i j]
  simp [hj, Nat.add_comm j i, hij]

theorem extractLsb'_ofNat_eq {n i k : Nat} {x : BitVec k} (hik : i + k ≤ 32) (h : n / 2 ^ i % 2 ^ k = x.toNat) :
    (BitVec.ofNat 32 n).extractLsb' i k = x := by
  rw [extractLsb'_ofNat hik]
  exact BitVec.eq_of_toNat_eq (by rw [BitVec.toNat_ofNat, h])

theorem extractLsb'_ofNat_zero {n i k : Nat} (hik : i + k ≤ 32) (h : n / 2 ^ i % 2 ^ k = 0) :
    (BitVec.ofNat 32 n).extractLsb' i k = 0 := extractLsb'_ofNat_eq hik (by simpa using h)

theorem toNat_extractLsb'_ofNat_eq {n i k x : Nat} (hik : i + k ≤ 32) (h : n / 2 ^ i % 2 ^ k = x) :
    ((BitVec.ofNat 32 n).extractLsb' i k).toNat = x := by
  rw [extractLsb'_ofNat hik, BitVec.toNat_ofNat, h]

theorem errNum_le (e : ErrCode) : errNum e ≤ 9 := by cases e <;> decide

theorem stopNum_le (c : StopReason) : stopNum c ≤ 6 := by cases c <;> decide

theorem detailNum_le (d : Detail) : detailNum d ≤ 26 := by cases d <;> decide

/-- CTRL (R32, R49). -/
theorem ctrlWord_fields (s : State) : (ctrlWord s).getLsbD 0 = s.ie ∧ (ctrlWord s).getLsbD 1 = false
    ∧ (ctrlWord s).extractLsb' 1 31 = 0 := by
  have hie := Bool.toNat_le s.ie
  exact ⟨getLsbD_ofNat_eq (by decide) (by omega), getLsbD_ofNat_eq (by decide) (by simp; omega),
    extractLsb'_ofNat_zero (by decide) (by omega)⟩

/-- STATUS (R33, R49). -/
theorem statusWord_fields (s : State) :
    ((statusWord s).getLsbD 0 = s.status.busy ∧ (statusWord s).getLsbD 1 = s.status.done
      ∧ (statusWord s).getLsbD 2 = s.status.wign ∧ (statusWord s).getLsbD 3 = (s.ie && s.status.done)
      ∧ ((statusWord s).extractLsb' 8 8).toNat = errNum s.status.err
      ∧ ((statusWord s).extractLsb' 16 4).toNat = stopNum s.status.stop)
    ∧ (statusWord s).extractLsb' 4 4 = 0 ∧ (statusWord s).extractLsb' 20 12 = 0 := by
  have hbusy := Bool.toNat_le s.status.busy
  have hdone := Bool.toNat_le s.status.done
  have hwign := Bool.toNat_le s.status.wign
  have hirq := Bool.toNat_le (s.ie && s.status.done)
  have herr := errNum_le s.status.err
  have hstop := stopNum_le s.status.stop
  unfold statusWord irq
  exact ⟨⟨getLsbD_ofNat_eq (by decide) (by omega), getLsbD_ofNat_eq (by decide) (by omega),
    getLsbD_ofNat_eq (by decide) (by omega), getLsbD_ofNat_eq (by decide) (by omega),
    toNat_extractLsb'_ofNat_eq (by decide) (by omega), toNat_extractLsb'_ofNat_eq (by decide) (by omega)⟩,
    extractLsb'_ofNat_zero (by decide) (by omega), extractLsb'_ofNat_zero (by decide) (by omega)⟩

/-- ERR_INFO (R40, R49). -/
theorem errInfoWord_fields (r : ResultRegs) :
    ((errInfoWord r).extractLsb' 0 8).toNat = detailNum r.detail ∧ (errInfoWord r).getLsbD 8 = r.region
    ∧ (errInfoWord r).extractLsb' 9 23 = 0 := by
  have hdetail := detailNum_le r.detail
  have hregion := Bool.toNat_le r.region
  exact ⟨toNat_extractLsb'_ofNat_eq (by decide) (by omega), getLsbD_ofNat_eq (by decide) (by omega),
    extractLsb'_ofNat_zero (by decide) (by omega)⟩

/-- TH_INFO (R42, R49). -/
theorem thInfoWord_fields (h : HeaderRegs) :
    (thInfoWord h).extractLsb' 0 8 = h.ver ∧ (thInfoWord h).extractLsb' 8 8 = h.rev
    ∧ (thInfoWord h).extractLsb' 16 8 = h.flags ∧ (thInfoWord h).getLsbD 24 = h.hdrOk
    ∧ (thInfoWord h).extractLsb' 25 7 = 0 := by
  have hver := h.ver.isLt
  have hrev := h.rev.isLt
  have hflags := h.flags.isLt
  have hok := Bool.toNat_le h.hdrOk
  exact ⟨extractLsb'_ofNat_eq (by decide) (by omega), extractLsb'_ofNat_eq (by decide) (by omega),
    extractLsb'_ofNat_eq (by decide) (by omega), getLsbD_ofNat_eq (by decide) (by omega),
    extractLsb'_ofNat_zero (by decide) (by omega)⟩

/-- EXT_INFO (R44, R49). -/
theorem extInfoWord_fields (h : HeaderRegs) :
    ((extInfoWord h).getLsbD 0 = h.extFlagged ∧ (extInfoWord h).getLsbD 1 = h.extOk
      ∧ (extInfoWord h).extractLsb' 8 8 = h.nfb)
    ∧ (extInfoWord h).extractLsb' 2 6 = 0 ∧ (extInfoWord h).extractLsb' 16 16 = 0 := by
  have hflagged := Bool.toNat_le h.extFlagged
  have hok := Bool.toNat_le h.extOk
  have hnfb := h.nfb.isLt
  exact ⟨⟨getLsbD_ofNat_eq (by decide) (by omega), getLsbD_ofNat_eq (by decide) (by omega),
    extractLsb'_ofNat_eq (by decide) (by omega)⟩,
    extractLsb'_ofNat_zero (by decide) (by omega), extractLsb'_ofNat_zero (by decide) (by omega)⟩

/-- A STAT register (R47, R48, R49). -/
theorem statWord_fields (b : BlockStat) :
    ((statWord b).getLsbD 0 = b.present ∧ (statWord b).extractLsb' 8 8 = b.len)
    ∧ (statWord b).extractLsb' 1 7 = 0 ∧ (statWord b).extractLsb' 16 16 = 0 := by
  have hpresent := Bool.toNat_le b.present
  have hlen := b.len.isLt
  exact ⟨⟨getLsbD_ofNat_eq (by decide) (by omega), extractLsb'_ofNat_eq (by decide) (by omega)⟩,
    extractLsb'_ofNat_zero (by decide) (by omega), extractLsb'_ofNat_zero (by decide) (by omega)⟩

/-- Settles O11, from the fields of each word. -/
theorem registerValuesAndFields : Obligations.RegisterValuesAndFields := by
  intro s b
  obtain ⟨hie, hsrst, -⟩ := ctrlWord_fields s
  obtain ⟨⟨hbusy, hdone, hwign, hirq, herr, hstop⟩, -⟩ := statusWord_fields s
  obtain ⟨hdetail, hregion, -⟩ := errInfoWord_fields s.res
  obtain ⟨hver, hrev, hflags, hok, -⟩ := thInfoWord_fields s.hdr
  obtain ⟨⟨hflagged, hextOk, hnfb⟩, -⟩ := extInfoWord_fields s.hdr
  obtain ⟨⟨hpresent, hlen⟩, -⟩ := statWord_fields b
  refine ⟨rfl, ?_, hie, hsrst, hbusy, hdone, hwign, hirq, herr, hstop, hdetail, hregion, hver, hrev, hflags, hok,
    hflagged, hextOk, hnfb, hpresent, hlen⟩
  simp only [List.forall_mem_cons, List.not_mem_nil, false_imp_iff, implies_true, regValue, and_self]

/-! ## What a write does to each kind of register (R31 to R36, R405) -/

/-- The operand registers (R35). -/
def operandNames : List RegName :=
  [.arg0, .srcBase, .srcLen, .dstBase, .dstCap, .descBase, .descCap, .payBase, .payCap]

theorem writeReg_ctrl (v : Word) (s : State) : writeReg .ctrl v s = writeCtrl v s := by
  simp [writeReg, ignoredWhileBusy]

theorem writeReg_status (v : Word) (s : State) : writeReg .status v s = writeStatus v s := by
  simp [writeReg, ignoredWhileBusy]

theorem writeReg_cmd {s : State} (v : Word) (h : s.status.busy = false) :
    writeReg .cmd v s = acceptCommand v s := by simp [writeReg, h]

theorem writeReg_operand {r : RegName} {s : State} (v : Word) (hr : r ∈ operandNames) (h : s.status.busy = false) :
    writeReg r v s = { s with opr := setOperand r v s.opr } := by
  have hall : ∀ r ∈ operandNames, writeReg r v s = { s with opr := setOperand r v s.opr } := by
    simp [operandNames, writeReg, h]
  exact hall r hr

/-- CMD and the operands while a command runs (R405). -/
theorem writeReg_ignored {r : RegName} {s : State} (v : Word) (hr : ignoredWhileBusy r = true)
    (h : s.status.busy = true) : writeReg r v s = { s with status := { s.status with wign := true } } := by
  simp [writeReg, hr, h]

/-- From RES0 on every register is read-only (R31). -/
theorem writeReg_readOnly {r : RegName} (v : Word) (s : State) (hr : r ∈ registerMap.drop 12) :
    writeReg r v s = s := by
  have hall : ∀ r ∈ registerMap.drop 12, writeReg r v s = s := by
    simp [registerMap, writeReg, ignoredWhileBusy, setOperand]
  exact hall r hr

theorem writeOffset_readOnly {off : Nat} (v : Word) (s : State) (h : 0x30 ≤ off) : writeOffset off v s = s := by
  unfold writeOffset
  split
  · rename_i r hr
    exact writeReg_readOnly v s (mem_drop_of_regAt hr h)
  · rfl

theorem writeOffset_of_regAt {off : Nat} {r : RegName} (v : Word) (s : State) (h : regAt off = some r) :
    writeOffset off v s = writeReg r v s := by simp [writeOffset, h]

theorem hostWriteReg_ok {off : Nat} (v : Word) (s : State) (h : accessOk off = true) :
    hostWriteReg off v s = .next (writeOffset off v s) := if_pos h

theorem hostReadReg_ok {off : Nat} (s : State) (h : accessOk off = true) :
    hostReadReg off s = .next { s with rdata := readOffset s off } := if_pos h

theorem readOffset_of_regAt {off : Nat} {r : RegName} (s : State) (h : regAt off = some r) :
    readOffset s off = regValue s r := by simp [readOffset, h]

theorem readOffset_reserved {off : Nat} (s : State) (h : 0x98 ≤ off) : readOffset s off = 0 := by
  simp [readOffset, regAt_reserved h]

/-- No register shows which moves are still to come. -/
theorem regValue_agenda (s : State) (rest : List Move) (r : RegName) :
    regValue { s with agenda := rest } r = regValue s r := by cases r <;> rfl

/-- Equal fields have equal bits. -/
theorem getLsbD_of_extractLsb'_eq {v w : Word} {i k j : Nat} (h : v.extractLsb' i k = w.extractLsb' i k)
    (hj : j < k) : v.getLsbD (i + j) = w.getLsbD (i + j) := by
  simpa [hj] using congrArg (·.getLsbD j) h

/-- Settles O12, from the fields of each word and the bits that CTRL and STATUS writes look at. -/
theorem reservedOffsetsAndBits : Obligations.ReservedOffsetsAndBits := by
  intro s
  obtain ⟨-, hstatus4, hstatus20⟩ := statusWord_fields s
  obtain ⟨-, -, herrInfo⟩ := errInfoWord_fields s.res
  obtain ⟨-, -, -, -, hthInfo⟩ := thInfoWord_fields s.hdr
  obtain ⟨-, hext2, hext16⟩ := extInfoWord_fields s.hdr
  refine ⟨fun off v hok hoff => ?_, (ctrlWord_fields s).2.2, hstatus4, hstatus20, herrInfo, hthInfo, hext2, hext16,
    fun b => (statWord_fields b).2, fun v v' h => ?_, fun v v' h => ?_⟩
  · rw [hostReadReg_ok s hok, readOffset_reserved s hoff, hostWriteReg_ok v s hok, writeOffset_readOnly v s (by omega)]
    exact ⟨rfl, rfl⟩
  · have hie : v.getLsbD 0 = v'.getLsbD 0 := getLsbD_of_extractLsb'_eq h (j := 0) (by decide)
    have hsrst : v.getLsbD 1 = v'.getLsbD 1 := getLsbD_of_extractLsb'_eq h (j := 1) (by decide)
    rw [writeReg_ctrl, writeReg_ctrl, writeCtrl, writeCtrl, hie, hsrst]
  · have hdone : v.getLsbD 1 = v'.getLsbD 1 := getLsbD_of_extractLsb'_eq h (j := 0) (by decide)
    have hwign : v.getLsbD 2 = v'.getLsbD 2 := getLsbD_of_extractLsb'_eq h (j := 1) (by decide)
    rw [writeReg_status, writeReg_status, writeStatus, writeStatus, hdone, hwign]

/-! ## Operands (R35, R36) -/

@[simp] theorem setOperand_arg0 (r : RegName) (v : Word) (o : OperandRegs) :
    (setOperand r v o).arg0 = if r = .arg0 then v else o.arg0 := by cases r <;> rfl
@[simp] theorem setOperand_srcBase (r : RegName) (v : Word) (o : OperandRegs) :
    (setOperand r v o).srcBase = if r = .srcBase then v else o.srcBase := by cases r <;> rfl
@[simp] theorem setOperand_srcLen (r : RegName) (v : Word) (o : OperandRegs) :
    (setOperand r v o).srcLen = if r = .srcLen then v else o.srcLen := by cases r <;> rfl
@[simp] theorem setOperand_dstBase (r : RegName) (v : Word) (o : OperandRegs) :
    (setOperand r v o).dstBase = if r = .dstBase then v else o.dstBase := by cases r <;> rfl
@[simp] theorem setOperand_dstCap (r : RegName) (v : Word) (o : OperandRegs) :
    (setOperand r v o).dstCap = if r = .dstCap then v else o.dstCap := by cases r <;> rfl
@[simp] theorem setOperand_descBase (r : RegName) (v : Word) (o : OperandRegs) :
    (setOperand r v o).descBase = if r = .descBase then v else o.descBase := by cases r <;> rfl
@[simp] theorem setOperand_descCap (r : RegName) (v : Word) (o : OperandRegs) :
    (setOperand r v o).descCap = if r = .descCap then v else o.descCap := by cases r <;> rfl
@[simp] theorem setOperand_payBase (r : RegName) (v : Word) (o : OperandRegs) :
    (setOperand r v o).payBase = if r = .payBase then v else o.payBase := by cases r <;> rfl
@[simp] theorem setOperand_payCap (r : RegName) (v : Word) (o : OperandRegs) :
    (setOperand r v o).payCap = if r = .payCap then v else o.payCap := by cases r <;> rfl

theorem regValue_setOperand_self {r : RegName} (v : Word) (s : State) (hr : r ∈ operandNames) :
    regValue { s with opr := setOperand r v s.opr } r = v := by
  have hall : ∀ r ∈ operandNames, regValue { s with opr := setOperand r v s.opr } r = v := by
    simp [operandNames, regValue, setOperand]
  exact hall r hr

theorem regValue_setOperand_other {r r' : RegName} (v : Word) (s : State) (h : r' ≠ r) :
    regValue { s with opr := setOperand r v s.opr } r' = regValue s r' := by
  cases r' with
  | arg0 | srcBase | srcLen | dstBase | dstCap | descBase | descCap | payBase | payCap => simp [regValue, h.symm]
  | _ => rfl

/-- From ARG0 to PAY_CAP every offset is an operand's (R31). -/
theorem regAt_operand {off : Nat} (hlo : 0x0C ≤ off) (hhi : off ≤ 0x2C) :
    ∃ r ∈ operandNames, regAt off = some r := by
  have hlt : off / 4 - 3 < operandNames.length := show off / 4 - 3 < 9 by omega
  refine ⟨operandNames[off / 4 - 3], List.getElem_mem hlt, ?_⟩
  calc regAt off
      = (registerMap.drop 3)[off / 4 - 3]? := by
        rw [List.getElem?_drop, show 3 + (off / 4 - 3) = off / 4 by omega, regAt]
    _ = (operandNames ++ registerMap.drop 12)[off / 4 - 3]? := rfl
    _ = some operandNames[off / 4 - 3] := by rw [List.getElem?_append_left hlt, List.getElem?_eq_getElem hlt]

/-- Settles O13: only the operand's own field changes, and no other offset shows it. -/
theorem operandWriteReadsBack : Obligations.OperandWriteReadsBack := by
  intro s off v hidle hok hlo hhi
  obtain ⟨r, hmem, hr⟩ := regAt_operand hlo hhi
  refine ⟨setOperand r v s.opr, ?_, ?_, fun off' hok' hne => ?_⟩
  · rw [hostWriteReg_ok v s hok, writeOffset_of_regAt v s hr, writeReg_operand v hmem hidle]
  · rw [readOffset_of_regAt _ hr, regValue_setOperand_self v s hmem]
  · cases hr' : regAt off' with
    | none => simp [readOffset, hr']
    | some r' =>
      rw [readOffset_of_regAt _ hr', readOffset_of_regAt _ hr']
      refine regValue_setOperand_other v s ?_
      rintro rfl
      exact hne (offset_eq_of_regAt hok' hok hr' hr)

/-! ## One step (R400) -/

theorem step_cons {s : State} {m : Move} {rest : List Move} (h : s.agenda = m :: rest) :
    step s = takeMove m rest s := by simp [step, h]

theorem step_writeReg {s : State} {off : Nat} {v : Word} {rest : List Move} (h : s.agenda = .writeReg off v :: rest)
    (hok : accessOk off = true) : step s = .next (writeOffset off v { s with agenda := rest }) := by
  rw [step_cons h, takeMove, hostWriteReg_ok v _ hok]

/-- Settles O10, from what a write does to each kind of register. -/
theorem hostRegisterMoves : Obligations.HostRegisterMoves := by
  refine ⟨fun off => accessOk_iff, fun s rest => ⟨fun off h => step_cons h, fun off v h => step_cons h, ?_, ?_, ?_, ?_⟩⟩
  · intro r h
    rw [step_cons h, takeMove, hostReadReg_ok _ (accessOk_offsetOf r), readOffset_of_regAt _ (regAt_offsetOf r),
      regValue_agenda]
  · intro v hsrst h
    rw [step_writeReg h (by decide), writeOffset_of_regAt (r := .ctrl) _ _ (by decide), writeReg_ctrl, writeCtrl, hsrst]
    rfl
  · intro v h
    rw [step_writeReg h (by decide), writeOffset_of_regAt (r := .status) _ _ (by decide), writeReg_status, writeStatus]
    cases v.getLsbD 1 <;> cases v.getLsbD 2 <;> simp
  · intro off v hok hoff h
    rw [step_writeReg h hok, writeOffset_readOnly v _ hoff]

/-- Settles O14: idle, the word is accepted; busy, it is ignored. -/
theorem cmdWriteIsAcceptedOrIgnored : Obligations.CmdWriteIsAcceptedOrIgnored := by
  intro s v rest h
  refine ⟨?_, hostReadReg_ok s (by decide)⟩
  rw [step_writeReg h (by decide), writeOffset_of_regAt (r := .cmd) _ _ (by decide)]
  cases hbusy : s.status.busy with
  | true => rw [writeReg_ignored (s := { s with agenda := rest }) v (by decide) hbusy]; rfl
  | false => rw [writeReg_cmd (s := { s with agenda := rest }) v hbusy]; rfl

/-! ## Everything one step can do (R400) -/

/-- Where a step from `s` can lead: a state in which only the model's own fields have changed; the end of the pending
command's run; a host's register write; a host's byte write; power-on. -/
inductive StepLeads (s : State) : State → Prop
  | quiet (rdata : Word) (draws : Nat) (agenda : List Move) : StepLeads s
      { s with rdata := rdata, draws := draws, agenda := agenda }
  | ran (rdata : Word) (agenda : List Move) (t : State) (hbusy : s.status.busy = true)
      (hrun : engineStep { s with rdata := rdata, agenda := agenda } = .next t) : StepLeads s t
  | wroteReg (off : Nat) (v : Word) (rest : List Move) (hnext : s.agenda = .writeReg off v :: rest)
      (hok : accessOk off = true) : StepLeads s (writeOffset off v { s with agenda := rest })
  | wroteMem (a : Nat) (b : Byte) (rest : List Move) (hnext : s.agenda = .writeMem a b :: rest)
      (ha : a < memSize s) (hfree : (s.status.busy && inRanges s (runningUses s) a) = false) : StepLeads s
        { s with mem := memSet s.mem a b, agenda := rest }
  | poweredOn (rest : List Move) (hnext : s.agenda = .powerOn :: rest) : StepLeads s
      (powerOnReset { s with agenda := rest })

theorem engineMove_leads {s t : State} {rdata : Word} {agenda : List Move}
    (h : engineMove { s with rdata := rdata, agenda := agenda } = .next t) : StepLeads s t := by
  unfold engineMove at h
  split at h
  · rename_i hbusy
    exact .ran rdata agenda t hbusy h
  · cases h
    exact .quiet rdata s.draws agenda

theorem hostReadMem_leads {s t : State} {a : Nat} {rest : List Move}
    (h : hostReadMem a { s with agenda := rest } = .next t) : StepLeads s t := by
  unfold hostReadMem readDraw at h
  split at h
  · split at h
    · cases h
      exact .quiet _ _ rest
    · split at h <;> cases h <;> exact .quiet _ _ rest
  · cases h

theorem hostWriteMem_leads {s t : State} {a : Nat} {b : Byte} {rest : List Move}
    (hnext : s.agenda = .writeMem a b :: rest) (h : hostWriteMem a b { s with agenda := rest } = .next t) :
    StepLeads s t := by
  unfold hostWriteMem at h
  split at h
  · rename_i ha
    split at h
    · cases h
    · rename_i hfree
      cases h
      exact .wroteMem a b rest hnext ha (Bool.eq_false_iff.mpr hfree)
  · cases h

/-- Every step that is neither refused nor a fault leads where `StepLeads` says, by the move it takes. -/
theorem step_leads {s t : State} (h : step s = .next t) : StepLeads s t := by
  cases hag : s.agenda with
  | nil =>
    have hself : step s = engineMove { s with rdata := s.rdata, agenda := s.agenda } := by simp [step, hag]
    exact engineMove_leads (hself ▸ h)
  | cons m rest =>
    rw [step_cons hag] at h
    cases m with
    | engine => exact engineMove_leads h
    | readReg off =>
      simp only [takeMove, hostReadReg] at h
      split at h <;> cases h
      exact .quiet _ _ rest
    | writeReg off v =>
      simp only [takeMove, hostWriteReg] at h
      split at h <;> cases h
      exact .wroteReg off v rest hag ‹_›
    | readMem a => exact hostReadMem_leads h
    | writeMem a b => exact hostWriteMem_leads hag h
    | waitDone =>
      simp only [takeMove, hostWait] at h
      split at h
      · cases h
        exact .quiet _ _ rest
      · exact engineMove_leads h
    | powerOn =>
      cases h
      exact .poweredOn rest hag

/-- A run of the engine is a completion (R52). -/
theorem engineStep_completes {s t : State} (h : engineStep s = .next t) : ∃ r, t = complete s r := by
  unfold engineStep at h
  split at h
  · rename_i i _
    have hcmd : ∃ prog, exec i s = runCommand s prog := by
      cases i with
      | ssdec => exact ⟨ssdecProg (memSize s) s.opr, rfl⟩
      | _ => exact ⟨_, rfl⟩
    obtain ⟨prog, hprog⟩ := hcmd
    obtain ⟨r, hr, -⟩ := runCommand_next (hprog ▸ h)
    exact ⟨r, hr⟩
  · obtain ⟨r, hr, -⟩ := runCommand_next h
    exact ⟨r, hr⟩

/-- What a register write does to BUSY and DONE (R32 to R34, R391, R405): it accepts a command, or neither rises. -/
theorem writeOffset_status (off : Nat) (v : Word) (s : State) :
    (regAt off = some .cmd ∧ writeOffset off v s = acceptCommand v s)
      ∨ ((writeOffset off v s).status.busy = true → s.status.busy = true)
        ∧ ((writeOffset off v s).status.done = true → s.status.done = true) := by
  unfold writeOffset
  split
  · rename_i r _
    unfold writeReg
    split
    · exact .inr ⟨id, id⟩
    · split
      · unfold writeCtrl
        split
        · exact .inr ⟨nofun, nofun⟩
        · exact .inr ⟨id, id⟩
      · exact .inr ⟨id, fun h => (Bool.and_eq_true_iff.mp h).1⟩
      · exact .inl ⟨‹_›, rfl⟩
      · exact .inr ⟨id, id⟩
  · exact .inr ⟨id, id⟩

/-- Settles O17, by where the step leads. -/
theorem doneAndBusyRiseOnlyByTheirEvents : Obligations.DoneAndBusyRiseOnlyByTheirEvents := by
  intro s t h
  cases step_leads h with
  | quiet | wroteMem =>
    exact ⟨fun hlow hhigh => absurd hhigh (by simp [hlow]), fun hlow hhigh => absurd hhigh (by simp [hlow])⟩
  | poweredOn => exact ⟨nofun, nofun⟩
  | ran rdata agenda _ hbusy hrun =>
    obtain ⟨r, rfl⟩ := engineStep_completes hrun
    exact ⟨fun _ _ => ⟨hbusy, rfl⟩, fun hidle => absurd hbusy (by simp [hidle])⟩
  | wroteReg off v rest hnext hok =>
    rcases writeOffset_status off v { s with agenda := rest } with ⟨hcmd, hacc⟩ | ⟨hbusy, hdone⟩
    · rw [hacc]
      obtain rfl := offset_eq_of_regAt (off' := 0x008) hok (by decide) hcmd (by decide)
      exact ⟨nofun, fun _ _ => ⟨v, rest, hnext, rfl, rfl⟩⟩
    · exact ⟨fun hlow hhigh => absurd (hdone hhigh) (by simp [hlow]),
        fun hlow hhigh => absurd (hbusy hhigh) (by simp [hlow])⟩

end Sys2Proof.Machine
end

section
/-! What a command leaves when it completes, one case per ending of its pseudocode, and what follows for the
registers (R53, R37) and the buffer memory (R53, R87) of every command. -/

namespace Sys2Proof.Machine

open Sys2Proof (Word Byte Bytes Instr)

/-! ## Following the pseudocode from one run

From a single run, `Sat` follows the program line by line and the run stays explicit. -/

theorem Sat.done {α : Type} {m : Eng α} {r r' : Run} {x : α} {Q : α → Run → Prop} {E : Run → Prop}
    (h : m r = .ok x r') (hq : Q x r') : Sat (· = r) m Q E := by
  rintro _ rfl
  rwa [h]

theorem Sat.step {α β : Type} {m : Eng α} {f : α → Eng β} {r r' : Run} {x : α} {Q : β → Run → Prop}
    {E : Run → Prop} (h : m r = .ok x r') (hf : Sat (· = r') (f x) Q E) : Sat (· = r) (m >>= f) Q E := by
  rintro _ rfl
  rw [eng_bind_ok h]
  exact hf r' rfl

theorem Sat.read {α β : Type} {m : Eng α} {f : α → Eng β} {G : α → Prop} {r : Run} {Q : β → Run → Prop}
    {E : Run → Prop} (h : Reads m G) (hf : ∀ x k, G x → Sat (· = { r with draws := k }) (f x) Q E) :
    Sat (· = r) (m >>= f) Q E := by
  obtain ⟨x, k, hx, hg⟩ := h r
  exact Sat.step hx (hf x k hg)

theorem Sat.raises {α : Type} {r : Run} {e : ErrCode} {d : Detail} {off : Nat} {Q : α → Run → Prop}
    {E : Run → Prop}
    (h : E { r with err := e, res := { r.res with detail := d, errOff := BitVec.ofNat 32 off } }) :
    Sat (· = r) (Machine.raise e d off : Eng α) Q E :=
  Sat.raise <| by rintro _ rfl; exact h

/-- Decoding a tag header, then what follows it; where the decoder raises, what it leaves. -/
theorem Sat.tagHeader {β : Type} {ms base n : Nat} {f : TagHeader → Eng β} {r : Run} {Q : β → Run → Prop}
    {E : Run → Prop} (ha : n = 0 ∨ base + n ≤ ms)
    (hf : ∀ t k h, HeaderDone n t h → Sat (· = { r with draws := k, hdr := h }) (f t) Q E)
    (he : ∀ k h e d off, (e, d) ∈ headerErrors → HeaderCoherent h →
      E { r with draws := k, hdr := h, err := e, res := { r.res with detail := d, errOff := off } }) :
    Sat (· = r) (tagHeaderDecode ms base n >>= f) Q E := by
  rintro r rfl
  have hd := HdrSat.tagHeaderDecode (ms := ms) (base := base) ha r trivial
  rcases hc : tagHeaderDecode ms base n r with ⟨t, r'⟩ | ⟨_ | _, r'⟩ <;> rw [hc] at hd
  · obtain ⟨k, h, rfl, hdone⟩ := hd
    rw [eng_bind_ok hc]
    exact hf t k h hdone _ rfl
  · obtain ⟨k, h, e, d, off, rfl, hmem, hcoh⟩ := hd
    rw [eng_bind_error hc]
    exact he k h e d off hmem hcoh
  · exact hd.elim

/-! ## The endings of each command -/

/-- The errors of the range checks with their details (R86, R88). -/
def rangeErrors : List (ErrCode × Detail) :=
  [(.range, .rangeSrc), (.range, .rangeDst), (.range, .rangeDesc), (.range, .rangePay), (.overlap, .overlapD)]

theorem rangeError_mem {ms : Nat} {o : OperandRegs} {uses : List RangeName} {q : ErrCode × Detail}
    (h : rangeError ms o uses = some q) : q ∈ rangeErrors := by
  unfold rangeError at h
  split at h
  · rename_i x _
    cases h
    cases x <;> decide
  · split at h
    · cases h; decide
    · cases h

/-- What SSDEC leaves (R181). -/
inductive SsdecLeaves (s : State) : Run → Prop
  | decoded : SsdecLeaves s
      { startRun s with res := { ResultRegs.zero with res0 := BitVec.ofNat 32 (fromSynchsafe s.opr.arg0).toNat } }

/-- What RESYNC leaves once its ranges are checked (R183): its output in DST, or DST_FULL. -/
inductive ResyncLeaves (s : State) : Run → Prop
  | stored (draws : Nat) (y : Bytes) (dropped : Word) (hcap : y.length ≤ s.opr.dstCap.toNat) : ResyncLeaves s
      { startRun s with
        draws := draws, mem := memSetRange s.mem s.opr.dstBase.toNat y
        res := { ResultRegs.zero with res0 := BitVec.ofNat 32 y.length, res1 := dropped } }
  | full (draws : Nat) (len dropped : Word) : ResyncLeaves s
      { startRun s with
        draws := draws, err := .capacity
        res := { ResultRegs.zero with res0 := len, res1 := dropped, detail := .dstFull } }

/-- What INFL leaves once its ranges are checked (R192): the inflated bytes in DST, the engine's failure, or
DST_FULL. -/
inductive InflLeaves (s : State) : Run → Prop
  | stored (draws : Nat) (d : Bytes) (hlen : d.length = s.opr.arg0.toNat) (hcap : d.length ≤ s.opr.dstCap.toNat) :
      InflLeaves s
        { startRun s with
          draws := draws, mem := memSetRange s.mem s.opr.dstBase.toNat d
          res := { ResultRegs.zero with res0 := BitVec.ofNat 32 d.length } }
  | failed (draws : Nat) (d : Detail) (hd : d = .inflateFail ∨ d = .inflateLen) : InflLeaves s
      { startRun s with draws := draws, err := .corruptFrame, res := { ResultRegs.zero with detail := d } }
  | full (draws : Nat) : InflLeaves s
      { startRun s with draws := draws, err := .capacity, res := { ResultRegs.zero with detail := .dstFull } }

/-- What THDR leaves once its range is checked (R220): a whole header, or the check that failed. -/
inductive ThdrLeaves (s : State) : Run → Prop
  | decoded (draws : Nat) (t : TagHeader) (h : HeaderRegs) (hdone : HeaderDone s.opr.srcLen.toNat t h) : ThdrLeaves s
      { startRun s with
        draws := draws, hdr := h
        res := { ResultRegs.zero with res0 := BitVec.ofNat 32 t.start, res1 := BitVec.ofNat 32 t.ds } }
  | failed (draws : Nat) (h : HeaderRegs) (e : ErrCode) (d : Detail) (off : Word) (he : (e, d) ∈ headerErrors)
      (hc : HeaderCoherent h) : ThdrLeaves s
        { startRun s with
          draws := draws, hdr := h, err := e, res := { ResultRegs.zero with detail := d, errOff := off } }

/-- What FHDR (`payload = false`) and FRAME (`payload = true`) leave once their ranges are checked (R260, R280). Only
FRAME decodes a payload: it alone can find it corrupt, can want room for it, and puts bytes in PAY, those of an
inflated one. -/
inductive DecodeLeaves (s : State) (payload : Bool) : Run → Prop
  | stopped (draws : Nat) (reason : StopReason) (used : Word) (hr : reason = .regionEnd ∨ reason = .padding) :
      DecodeLeaves s payload
        { startRun s with draws := draws, stop := reason, res := { ResultRegs.zero with res0 := used } }
  | failed (draws : Nat) (e : FailKind) (d : Detail) (id : Word)
      (he : e = .truncated ∧ d = .shortFrameHeader ∨ payload = true ∧ e = .corruptFrame ∧ d ∈ corruptDetails) :
      DecodeLeaves s payload
        { startRun s with
          draws := draws, err := failErr e, stop := failStop e
          res := { ResultRegs.zero with detail := d, errId := id } }
  | full (draws : Nat) (d : Detail) (hd : d = .descFull ∨ payload = true ∧ d = .payFull) : DecodeLeaves s payload
      { startRun s with
        draws := draws, err := .capacity, stop := .capacity, res := { ResultRegs.zero with detail := d } }
  | stored (draws : Nat) (used : Word) (desc inflated : Bytes) (hdesc : desc.length = 64)
      (hcap : inflated.length ≤ s.opr.payCap.toNat) (hpay : payload = false → inflated = []) : DecodeLeaves s payload
        { startRun s with
          draws := draws, stop := .frame
          mem := memSetRange (memSetRange s.mem s.opr.payBase.toNat inflated) s.opr.descBase.toNat desc
          res := { ResultRegs.zero with res0 := used, res1 := 1, res2 := BitVec.ofNat 32 inflated.length } }

/-- Memory `m'` reads as `m` but for `n` bytes of DST, `k` descriptors and `used` bytes of PAY. -/
def OnlyOutputs (o : OperandRegs) (m : Memory) (n k used : Nat) (m' : Memory) : Prop :=
  ∀ a, ¬(o.dstBase.toNat ≤ a ∧ a < o.dstBase.toNat + n) →
    ¬(o.descBase.toNat ≤ a ∧ a < o.descBase.toNat + 64 * k) →
    ¬(o.payBase.toNat ≤ a ∧ a < o.payBase.toNat + used) → memGet m' a = memGet m a

/-- The errors with which PARSE ends before its enumeration, once its ranges are checked (R320 to R322). -/
def parseEarlyErrors : List (ErrCode × Detail) :=
  headerErrors ++ [(.truncated, .shortRegion), (.capacity, .dstFull)]

/-- What PARSE leaves once its ranges are checked (R320 to R324): an error before the enumeration, with memory as it
was, or the region in DST with the `k` descriptors and the `used` bytes of PAY of the frames enumerated. -/
inductive ParseLeaves (s : State) (r : Run) : Prop
  | early (hmem : r.mem = s.mem) (hstop : r.stop = .noStop)
      (herr : (r.err, r.res.detail) ∈ parseEarlyErrors) : ParseLeaves s r
  | enumerated (n k used : Nat) (hn : n ≤ s.opr.dstCap.toNat) (hk : k ≤ s.opr.descCap.toNat)
      (hu : used ≤ s.opr.payCap.toNat) (hres0 : r.res.res0 = BitVec.ofNat 32 k)
      (hres1 : r.res.res1 = BitVec.ofNat 32 n) (hres3 : r.res.res3 = BitVec.ofNat 32 used)
      (hend : r.err = .noError ∧ LoopEnds r ∨
        r.err = .capacity ∧ r.stop = .capacity ∧ (r.res.detail = .descFull ∨ r.res.detail = .payFull))
      (hmem : OnlyOutputs s.opr s.mem n k used r.mem) : ParseLeaves s r

/-- What a command leaves once its ranges are checked. -/
def CommandLeaves (s : State) : Instr → Run → Prop
  | .ssdec => SsdecLeaves s
  | .resync => ResyncLeaves s
  | .infl => InflLeaves s
  | .thdr => ThdrLeaves s
  | .fhdrV2 | .fhdrV3 | .fhdrV4 => DecodeLeaves s false
  | .frameV2 | .frameV3 | .frameV4 => DecodeLeaves s true
  | .parse => ParseLeaves s

/-! ## Each command ends in one of its endings

Each proof follows the pseudocode after the prologue: what it reads, then its checks in their order. -/

/-- The pseudocode `body` of a command that has passed its prologue completes in a state of which Q holds. -/
theorem Ready.leaves {i : Instr} {s t : State} (body : Eng Unit) {Q : Run → Prop} (h : Ready i s)
    (hn : runCommand s (prologue (memSize s) s.opr (rangesUsed i) >>= fun _ => body) = .next t)
    (hb : Sat (· = startRun s) body (fun _ => Q) Q) : ∃ r, t = complete s r ∧ Q r :=
  Sat.of_next hb (h.run body ▸ hn)

theorem Ready.src {i : Instr} {s : State} (h : Ready i s) (hi : .src ∈ rangesUsed i) :
    s.opr.srcLen.toNat = 0 ∨ s.opr.srcBase.toNat + s.opr.srcLen.toNat ≤ memSize s := h.valid hi

theorem Ready.dst {i : Instr} {s : State} (h : Ready i s) (hi : .dst ∈ rangesUsed i) :
    s.opr.dstCap.toNat = 0 ∨ s.opr.dstBase.toNat + s.opr.dstCap.toNat ≤ memSize s := h.valid hi

theorem Ready.desc {i : Instr} {s : State} (h : Ready i s) (hi : .desc ∈ rangesUsed i) :
    s.opr.descCap.toNat = 0 ∨ s.opr.descBase.toNat + 64 * s.opr.descCap.toNat ≤ memSize s := by
  have := h.valid hi
  simp only [spanOf_desc] at this
  omega

theorem Ready.pay {i : Instr} {s : State} (h : Ready i s) (hi : .pay ∈ rangesUsed i) :
    s.opr.payCap.toNat = 0 ∨ s.opr.payBase.toNat + s.opr.payCap.toNat ≤ memSize s := h.valid hi

theorem execSsdec_leaves {s t : State} (h : Ready .ssdec s) (hn : exec .ssdec s = .next t) :
    ∃ r, t = complete s r ∧ SsdecLeaves s r :=
  h.leaves (putRes0 _) hn (Sat.done (putRes0_apply _ _) .decoded)

theorem execResync_leaves {s t : State} (h : Ready .resync s) (hn : exec .resync s = .next t) :
    ∃ r, t = complete s r ∧ ResyncLeaves s r := by
  have hdst := h.dst (by decide)
  refine h.leaves _ hn (Sat.read (Reads.readBytes (h.src (by decide))) fun xs k _ => ?_)
  refine Sat.step (putRes0_apply _ _) (Sat.step (putRes1_apply _ _) ?_)
  refine Sat.ite (fun _ => Sat.raises (.full ..)) fun hcap => ?_
  exact Sat.done (writeBytes_apply (by omega)) (.stored _ _ _ (Nat.le_of_not_lt hcap))

theorem execInfl_leaves {s t : State} (h : Ready .infl s) (hn : exec .infl s = .next t) :
    ∃ r, t = complete s r ∧ InflLeaves s r := by
  have hdst := h.dst (by decide)
  refine h.leaves _ hn (Sat.read (Reads.readBytes (h.src (by decide))) fun c k _ => ?_)
  split
  · rename_i d hd
    exact Sat.raises (.failed _ d (inflateChecked_error hd))
  · rename_i d hd
    have hlen := (inflateChecked_ok hd).2
    refine Sat.ite (fun _ => Sat.raises (.full _)) fun hcap => ?_
    rw [← hlen] at hcap ⊢
    exact Sat.step (writeBytes_apply (by omega)) <|
      Sat.done (putRes0_apply _ _) (.stored _ d hlen (Nat.le_of_not_lt hcap))

theorem execThdr_leaves {s t : State} (h : Ready .thdr s) (hn : exec .thdr s = .next t) :
    ∃ r, t = complete s r ∧ ThdrLeaves s r := by
  refine h.leaves _ hn (Sat.tagHeader (h.src (by decide)) (fun t k g hdone => ?_) fun k g e d off he hc => ?_)
  · exact Sat.step (putRes0_apply _ _) (Sat.done (putRes1_apply _ _) (.decoded k t g hdone))
  · exact .failed k g e d off he hc

theorem execFhdr_leaves {ver : FrameVer} {s t : State} (h : Ready (fhdrOf ver) s)
    (hn : exec (fhdrOf ver) s = .next t) : ∃ r, t = complete s r ∧ DecodeLeaves s false r := by
  have hprog : exec (fhdrOf ver) s = runCommand s (fhdrProg (memSize s) s.opr ver) := by cases ver <;> rfl
  have huse : rangesUsed (fhdrOf ver) = [.src, .desc] := by cases ver <;> rfl
  have hdesc := h.desc (by simp [huse])
  refine h.leaves _ (by rw [huse, ← hn, hprog]; rfl)
    (Sat.read (Reads.frameHeaderDecode (h.src (by simp [huse]))) fun out k hout => ?_)
  match out, hout with
  | .stop reason c, ⟨_, hr⟩ =>
    exact Sat.step (putRes0_apply _ _) (Sat.done (putStop_apply _ _) (.stopped k reason _ (by tauto)))
  | .fail e d id, ⟨he, hd⟩ =>
    subst he
    exact Sat.step (putStop_apply _ _) (Sat.step (putErrId_apply _ _) (Sat.raises (.failed k _ d id (.inl ⟨rfl, hd⟩))))
  | .got hd, ⟨_, _, _, hid⟩ =>
    refine Sat.ite (fun _ => ?_) fun hcap => ?_
    · exact Sat.step (putStop_apply _ _) (Sat.raises (.full k _ (.inl rfl)))
    · have hlen := descBytes_length hid (cls := plainClass .headerOnly) rfl 0 0 0
      refine Sat.step (writeBytes_apply (by omega)) ?_
      refine Sat.step (putRes0_apply _ _) (Sat.step (putRes1_apply _ _) (Sat.done (putStop_apply _ _) ?_))
      dsimp only [startRun_mem]
      exact .stored k _ _ [] hlen (Nat.zero_le _) fun _ => rfl

/-- The bytes a frame puts in PAY: its payload, where it was inflated (R152). -/
def inflatedBytes (fr : Frame) : Bytes := if fr.inflated then fr.d else []

theorem length_inflatedBytes (fr : Frame) : (inflatedBytes fr).length = payloadUsed fr := by
  unfold inflatedBytes payloadUsed
  split <;> rfl

theorem storePayload_inflatedBytes {ms a : Nat} {fr : Frame} {r : Run}
    (h : (inflatedBytes fr).length = 0 ∨ a + (inflatedBytes fr).length ≤ ms) :
    storePayload ms a fr r = .ok () { r with mem := memSetRange r.mem a (inflatedBytes fr) } := by
  unfold storePayload inflatedBytes at *
  cases hi : fr.inflated with
  | true => simpa [hi] using writeBytes_apply (by simpa [hi] using h)
  | false => rfl

theorem execFrame_leaves {ver : FrameVer} {s t : State} (h : Ready (frameOf ver) s)
    (hn : exec (frameOf ver) s = .next t) : ∃ r, t = complete s r ∧ DecodeLeaves s true r := by
  have hprog : exec (frameOf ver) s = runCommand s (frameProg Config.inflate (memSize s) s.opr ver) := by
    cases ver <;> rfl
  have huse : rangesUsed (frameOf ver) = [.src, .desc, .pay] := by cases ver <;> rfl
  have hdesc := h.desc (by simp [huse])
  have hpay := h.pay (by simp [huse])
  refine h.leaves _ (by rw [huse, ← hn, hprog]; rfl)
    (Sat.read (Reads.frameDecode (h.src (by simp [huse]))) fun out k hout => ?_)
  match out, hout with
  | .stop reason c, ⟨_, hr⟩ =>
    exact Sat.step (putRes0_apply _ _) (Sat.done (putStop_apply _ _) (.stopped k reason _ (by tauto)))
  | .fail e d id, hfail =>
    exact Sat.step (putStop_apply _ _) (Sat.step (putErrId_apply _ _) (Sat.raises
      (.failed k e d id (hfail.imp_right fun ⟨he, hd⟩ => ⟨rfl, he, hd⟩))))
  | .got fr, ⟨_, _, _, hid, hlang⟩ =>
    refine Sat.ite (fun _ => ?_) fun hcap => Sat.ite (fun _ => ?_) fun hfit => ?_
    · exact Sat.step (putStop_apply _ _) (Sat.raises (.full k _ (.inl rfl)))
    · exact Sat.step (putStop_apply _ _) (Sat.raises (.full k _ (.inr ⟨rfl, rfl⟩)))
    · have hcapPay : (inflatedBytes fr).length ≤ s.opr.payCap.toNat := by
        unfold inflatedBytes
        split <;> simp_all
      have hlen := descBytes_length hid hlang 0 (payloadAddr s.opr.payBase.toNat fr) fr.d.length
      refine Sat.step (storePayload_inflatedBytes (by omega)) (Sat.step (writeBytes_apply (by omega)) ?_)
      refine Sat.step (putRes0_apply _ _) (Sat.step (putRes1_apply _ _) (Sat.step (putRes2_apply _ _)
        (Sat.done (putStop_apply _ _) ?_)))
      rw [← length_inflatedBytes]
      dsimp only [startRun_mem]
      exact .stored k _ _ _ hlen hcapPay (by simp)

/-! ### PARSE -/

/-- The region goes to DST. -/
theorem OnlyOutputs.region (o : OperandRegs) (m : Memory) (y : Bytes) :
    OnlyOutputs o m y.length 0 0 (memSetRange m o.dstBase.toNat y) :=
  fun _ hdst _ _ => memGet_memSetRange_outside _ _ (by omega)

/-- A descriptor goes to the next slot of DESC. -/
theorem OnlyOutputs.descriptor {o : OperandRegs} {m m' : Memory} {n k used : Nat} {bs : Bytes}
    (h : OnlyOutputs o m n k used m') (hbs : bs.length = 64) :
    OnlyOutputs o m n (k + 1) used (memSetRange m' (o.descBase.toNat + 64 * k) bs) := fun a hdst hdesc hpay => by
  rw [memGet_memSetRange_outside _ _ (by omega)]
  exact h a hdst (by omega) hpay

/-- An inflated payload goes behind the bytes of PAY taken so far. -/
theorem OnlyOutputs.payload {o : OperandRegs} {m m' : Memory} {n k used : Nat} (d : Bytes)
    (h : OnlyOutputs o m n k used m') :
    OnlyOutputs o m n k (used + d.length) (memSetRange m' (o.payBase.toNat + used) d) := fun a hdst hdesc hpay => by
  rw [memGet_memSetRange_outside _ _ (by omega)]
  exact h a hdst hdesc (by omega)

theorem shortRegion_early : (ErrCode.truncated, Detail.shortRegion) ∈ parseEarlyErrors := by decide

theorem dstFull_early : (ErrCode.capacity, Detail.dstFull) ∈ parseEarlyErrors := by decide

theorem execParse_leaves {s t : State} (h : Ready .parse s) (hn : exec .parse s = .next t) :
    ∃ r, t = complete s r ∧ ParseLeaves s r := by
  have hsrc := h.src (by decide)
  have hdst := h.dst (by decide)
  refine h.leaves _ hn (Sat.tagHeader hsrc (fun t k g hdone => ?_) fun k g e d off he hc => ?_)
  · refine Sat.ite (fun _ => Sat.raises (.early rfl rfl shortRegion_early)) fun hregion => ?_
    refine Sat.read (Reads.readBytes (by omega)) fun xs k _ => Sat.step (putRes1_apply _ _) ?_
    generalize (if t.flags.getLsbD Config.tagUnsyncBit then resynchronize xs else xs) = y
    refine Sat.ite (fun _ => Sat.raises (.early rfl rfl dstFull_early)) fun hcap => ?_
    have hcap := Nat.le_of_not_lt hcap
    refine Sat.step (writeBytes_apply (by omega)) ?_
    refine (Sat.parseLoop (M := OnlyOutputs s.opr s.mem y.length) (h := g) (res1 := BitVec.ofNat 32 y.length)
      (by omega) (h.desc (by decide)) (h.pay (by decide)) (fun k used m bs _ hbs hm => hm.descriptor hbs)
      (fun k used m d _ hm => hm.payload d) (Nat.le_refl _) (Nat.zero_le _) (Nat.zero_le _) (Nat.zero_le _)).mono
      ?_ ?_ ?_
    · rintro _ rfl
      exact ⟨⟨rfl, rfl, rfl, rfl, rfl, rfl, rfl, rfl⟩, OnlyOutputs.region _ _ y⟩
    · rintro - r ⟨-, hres1, herr, hend, k, used, hk, hu, hres0, hres3, hm⟩
      exact .enumerated y.length k used hcap hk hu hres0 hres1 hres3 (.inl ⟨herr, hend⟩) hm
    · rintro r ⟨-, hres1, herr, hstop, hd, k, used, hk, hu, hres0, hres3, hm⟩
      exact .enumerated y.length k used hcap hk hu hres0 hres1 hres3 (.inr ⟨herr, hstop, hd⟩) hm
  · exact .early rfl rfl (List.mem_append_left _ he)

/-! ### Every command -/

/-- Every command that completes failed its range checks, touching nothing, or left one of its endings. -/
theorem exec_leaves {i : Instr} {s t : State} (h : exec i s = .next t) :
    (∃ e d, (e, d) ∈ rangeErrors
        ∧ t = finished s e .noStop { ResultRegs.zero with detail := d } s.hdr s.mem)
      ∨ ∃ r, t = complete s r ∧ CommandLeaves s i r := by
  cases hr : rangeError (memSize s) s.opr (rangesUsed i) with
  | some q =>
    obtain ⟨e, d⟩ := q
    rw [exec_rangeError hr] at h
    cases h
    exact .inl ⟨e, d, rangeError_mem hr, rfl⟩
  | none =>
    have hready := ready_of_rangeError hr
    right
    cases i with
    | ssdec => exact execSsdec_leaves hready h
    | resync => exact execResync_leaves hready h
    | infl => exact execInfl_leaves hready h
    | thdr => exact execThdr_leaves hready h
    | fhdrV2 => exact execFhdr_leaves (ver := .v2) hready h
    | fhdrV3 => exact execFhdr_leaves (ver := .v3) hready h
    | fhdrV4 => exact execFhdr_leaves (ver := .v4) hready h
    | frameV2 => exact execFrame_leaves (ver := .v2) hready h
    | frameV3 => exact execFrame_leaves (ver := .v3) hready h
    | frameV4 => exact execFrame_leaves (ver := .v4) hready h
    | parse => exact execParse_leaves hready h

/-! ## Registers (R53, R37) -/

/-- Only THDR and PARSE write the header group (R53). -/
theorem CommandLeaves.hdr_eq {i : Instr} {s : State} {r : Run} (h : CommandLeaves s i r) (hthdr : i ≠ .thdr)
    (hparse : i ≠ .parse) : r.hdr = s.hdr := by
  cases i with
  | ssdec | resync | infl | fhdrV2 | fhdrV3 | fhdrV4 | frameV2 | frameV3 | frameV4 => cases h <;> rfl
  | thdr => exact absurd rfl hthdr
  | parse => exact absurd rfl hparse

/-- RANGE and OVERLAP come from the range checks alone. -/
theorem CommandLeaves.err_ne {i : Instr} {s : State} {r : Run} (h : CommandLeaves s i r) :
    r.err ≠ .range ∧ r.err ≠ .overlap := by
  have hearly : ∀ q ∈ parseEarlyErrors, q.1 ≠ .range ∧ q.1 ≠ .overlap := by decide
  have hfail : ∀ e, failErr e ≠ .range ∧ failErr e ≠ .overlap := by rintro ⟨⟩ <;> decide
  cases i with
  | ssdec | resync | infl => cases h <;> exact ⟨nofun, nofun⟩
  | thdr =>
    cases h with
    | decoded => exact ⟨nofun, nofun⟩
    | failed _ _ _ _ _ he => exact hearly _ (List.mem_append_left _ he)
  | fhdrV2 | fhdrV3 | fhdrV4 | frameV2 | frameV3 | frameV4 =>
    cases h with
    | failed _ e => exact hfail e
    | stopped | full | stored => exact ⟨nofun, nofun⟩
  | parse =>
    cases h with
    | early _ _ he => exact hearly _ he
    | enumerated _ _ _ _ _ _ _ _ _ hend => rcases hend with ⟨he, -⟩ | ⟨he, -⟩ <;> simp [he]

theorem DecodeLeaves.res3_eq {s : State} {payload : Bool} {r : Run} (h : DecodeLeaves s payload r) :
    r.res.res3 = 0 := by cases h <;> rfl

theorem DecodeLeaves.res2_eq {s : State} {r : Run} (h : DecodeLeaves s false r) : r.res.res2 = 0 := by
  cases h with
  | stored _ _ _ _ _ _ hpay => rw [hpay rfl]; rfl
  | stopped | failed | full => rfl

theorem commandLeaves_fhdrOf {s : State} {ver : FrameVer} {r : Run} (h : CommandLeaves s (fhdrOf ver) r) :
    DecodeLeaves s false r := by cases ver <;> exact h

theorem commandLeaves_frameOf {s : State} {ver : FrameVer} {r : Run} (h : CommandLeaves s (frameOf ver) r) :
    DecodeLeaves s true r := by cases ver <;> exact h

/-- Settles O53, from the endings of each command. -/
theorem commandsWriteOnlyTheirRegisters : Obligations.CommandsWriteOnlyTheirRegisters := by
  intro i s t hn
  rcases exec_leaves hn with ⟨e, d, -, rfl⟩ | ⟨r, rfl, h⟩
  · exact ⟨fun _ _ => rfl, fun _ => ⟨rfl, rfl, rfl⟩, fun _ => ⟨rfl, rfl⟩, fun _ => rfl, fun _ => ⟨rfl, rfl⟩⟩
  · refine ⟨h.hdr_eq, ?_, ?_, ?_, fun herr => ?_⟩
    · rintro (rfl | rfl) <;> cases h <;> exact ⟨rfl, rfl, rfl⟩
    · rintro (rfl | rfl | ⟨v, rfl⟩)
      · cases h <;> exact ⟨rfl, rfl⟩
      · cases h <;> exact ⟨rfl, rfl⟩
      · exact ⟨(commandLeaves_fhdrOf h).res2_eq, (commandLeaves_fhdrOf h).res3_eq⟩
    · rintro ⟨v, rfl⟩
      exact (commandLeaves_frameOf h).res3_eq
    · exact absurd herr (not_or.mpr h.err_ne)

/-! ## Buffer memory (R53, R87) -/

/-- A count of at most 32 bits reads back from the register that takes it. -/
theorem toNat_ofNat_of_le {n : Nat} {cap : Word} (h : n ≤ cap.toNat) : (BitVec.ofNat 32 n).toNat = n :=
  Nat.mod_eq_of_lt (h.trans_lt cap.isLt)

/-- Bytes stored at `base` and counted in a register leave every byte outside that count as it was. -/
theorem memGet_outside_counted {m : Memory} {base a : Nat} {bs : Bytes} {cap : Word} (hcap : bs.length ≤ cap.toNat)
    (ha : ¬(base ≤ a ∧ a < base + (BitVec.ofNat 32 bs.length).toNat)) :
    memGet (memSetRange m base bs) a = memGet m a := by
  rw [toNat_ofNat_of_le hcap] at ha
  exact memGet_memSetRange_outside m bs (by omega)

theorem ResyncLeaves.memGet_eq {s : State} {r : Run} {a : Nat} (h : ResyncLeaves s r)
    (ha : r.err ≠ .noError ∨ ¬(s.opr.dstBase.toNat ≤ a ∧ a < s.opr.dstBase.toNat + r.res.res0.toNat)) :
    memGet r.mem a = memGet s.mem a := by
  cases h with
  | full => rfl
  | stored _ _ _ hcap => exact memGet_outside_counted hcap (ha.resolve_left fun herr => herr rfl)

theorem InflLeaves.memGet_eq {s : State} {r : Run} {a : Nat} (h : InflLeaves s r)
    (ha : r.err ≠ .noError ∨ ¬(s.opr.dstBase.toNat ≤ a ∧ a < s.opr.dstBase.toNat + r.res.res0.toNat)) :
    memGet r.mem a = memGet s.mem a := by
  cases h with
  | failed | full => rfl
  | stored _ _ _ hcap => exact memGet_outside_counted hcap (ha.resolve_left fun herr => herr rfl)

theorem DecodeLeaves.memGet_eq {s : State} {payload : Bool} {r : Run} {a : Nat} (h : DecodeLeaves s payload r)
    (hdesc : ¬(s.opr.descBase.toNat ≤ a ∧ a < s.opr.descBase.toNat + 64 * r.res.res1.toNat))
    (hpay : ¬(s.opr.payBase.toNat ≤ a ∧ a < s.opr.payBase.toNat + r.res.res2.toNat)) :
    memGet r.mem a = memGet s.mem a := by
  cases h with
  | stopped | failed | full => rfl
  | stored _ _ desc _ hlen hcap =>
    have hone : (1 : Word).toNat = 1 := rfl
    simp only [hone] at hdesc
    rw [memGet_memSetRange_outside _ desc (by omega)]
    exact memGet_outside_counted hcap hpay

/-- Settles O54, from the endings of each command. -/
theorem commandsStoreOnlyTheirOutputs : Obligations.CommandsStoreOnlyTheirOutputs := by
  intro i s t a hn
  rcases exec_leaves hn with ⟨e, d, -, rfl⟩ | ⟨r, rfl, h⟩
  · exact ⟨fun _ => rfl, fun _ _ => rfl, fun _ _ => rfl, fun _ _ _ => rfl⟩
  · refine ⟨?_, ?_, ?_, ?_⟩
    · rintro (rfl | rfl) <;> cases h <;> rfl
    · rintro (rfl | rfl) ha
      · exact ResyncLeaves.memGet_eq h ha
      · exact InflLeaves.memGet_eq h ha
    · rintro ⟨v, rfl⟩ hdesc
      have hd := commandLeaves_fhdrOf h
      refine hd.memGet_eq hdesc ?_
      rw [hd.res2_eq]
      exact fun ⟨hge, hlt⟩ => Nat.not_lt_of_le hge hlt
    · rintro ⟨v, rfl⟩ hdesc hpay
      exact (commandLeaves_frameOf h).memGet_eq hdesc hpay

/-- Settles O55: before the enumeration nothing is stored, and the frame loop keeps `OnlyOutputs`. -/
theorem parseStoresOnlyItsOutputs : Obligations.ParseStoresOnlyItsOutputs := by
  intro s t a hn
  rcases exec_leaves hn with ⟨e, d, -, rfl⟩ | ⟨r, rfl, h⟩
  · exact ⟨fun _ _ => rfl, fun _ _ _ => rfl⟩
  · cases h with
    | early hmem => exact ⟨fun _ _ => congrArg (memGet · a) hmem, fun _ _ _ => congrArg (memGet · a) hmem⟩
    | enumerated n k used hn hk hu hres0 hres1 hres3 hend hmem =>
      simp only [complete_err, complete_stop, complete_res, complete_mem, hres0, hres1, hres3, toNat_ofNat_of_le hn,
        toNat_ofNat_of_le hk, toNat_ofNat_of_le hu]
      refine ⟨fun herr hstop => ?_, hmem a⟩
      rcases hend with ⟨hno, -⟩ | ⟨-, hcap, -⟩
      · exact absurd hno herr
      · simp [hcap] at hstop

end Sys2Proof.Machine
end

section
/-! What every step keeps: that a command completes from every state (R401, R82, R325), and that it carries on any
fact about memory that writes inside memory keep and any fact that coherent header groups have. -/

namespace Sys2Proof.Machine

open Sys2Proof (Word Byte Bytes Instr)

/-! ## What a command carries to its end -/

/-- M is a fact about memory and H one about the header group, both true in `s`. Every write inside memory keeps M
(R82), and every coherent header group has H (R42 to R48). -/
structure Carries (s : State) (M : Memory → Prop) (H : HeaderRegs → Prop) : Prop where
  mem : M s.mem
  hdr : H s.hdr
  write : ∀ {m : Memory} {a : Nat} {bs : Bytes}, bs.length = 0 ∨ a + bs.length ≤ memSize s → M m →
    M (memSetRange m a bs)
  coherent : ∀ h, HeaderCoherent h → H h

/-- What a command has written so far still satisfies M and H. -/
def Keeps (M : Memory → Prop) (H : HeaderRegs → Prop) (r : Run) : Prop := M r.mem ∧ H r.hdr

/-- A command that has passed its prologue completes where its pseudocode `body` does not get stuck. -/
theorem Ready.completes {i : Instr} {s : State} {body : Eng Unit} {Q : Run → Prop} (h : Ready i s)
    (hexec : exec i s = runCommand s (prologue (memSize s) s.opr (rangesUsed i) >>= fun _ => body))
    (hb : Sat (· = startRun s) body (fun _ => Q) Q) : ∃ r, exec i s = .next (complete s r) ∧ Q r := by
  rw [hexec, h.run]
  exact Sat.completes hb

/-- With a slot in DESC, the first descriptor lies inside memory (R150). -/
theorem Ready.descriptor_inside {i : Instr} {s : State} {bs : Bytes} (h : Ready i s) (hi : .desc ∈ rangesUsed i)
    (hcap : ¬s.opr.descCap.toNat < 1) (hlen : bs.length = 64) :
    bs.length = 0 ∨ s.opr.descBase.toNat + bs.length ≤ memSize s := by
  have hdesc := h.desc hi
  omega

/-- A frame that passes the PAY check of R290 puts no more bytes there than PAY has room for. -/
theorem length_inflatedBytes_le {fr : Frame} {cap : Nat} (h : ¬(fr.inflated = true ∧ fr.d.length > cap)) :
    (inflatedBytes fr).length ≤ cap := by
  unfold inflatedBytes
  split
  · exact Nat.le_of_not_lt fun hlt => h ⟨‹_›, hlt⟩
  · exact Nat.zero_le cap

section
variable {s : State} {M : Memory → Prop} {H : HeaderRegs → Prop}

theorem execSsdec_keeps (hc : Carries s M H) (h : Ready .ssdec s) :
    ∃ r, exec .ssdec s = .next (complete s r) ∧ Keeps M H r :=
  h.completes (body := putRes0 _) rfl (Sat.done (putRes0_apply _ _) ⟨hc.mem, hc.hdr⟩)

theorem execResync_keeps (hc : Carries s M H) (h : Ready .resync s) :
    ∃ r, exec .resync s = .next (complete s r) ∧ Keeps M H r := by
  have hdst := h.dst (by decide)
  refine h.completes rfl (Sat.read (Reads.readBytes (h.src (by decide))) fun xs k _ => ?_)
  refine Sat.step (putRes0_apply _ _) (Sat.step (putRes1_apply _ _) ?_)
  refine Sat.ite (fun _ => Sat.raises ⟨hc.mem, hc.hdr⟩) fun hcap => ?_
  have hin : (resynchronize xs).length = 0 ∨ s.opr.dstBase.toNat + (resynchronize xs).length ≤ memSize s := by omega
  exact Sat.done (writeBytes_apply hin) ⟨hc.write hin hc.mem, hc.hdr⟩

theorem execInfl_keeps (hc : Carries s M H) (h : Ready .infl s) :
    ∃ r, exec .infl s = .next (complete s r) ∧ Keeps M H r := by
  have hdst := h.dst (by decide)
  refine h.completes rfl (Sat.read (Reads.readBytes (h.src (by decide))) fun c k _ => ?_)
  split
  · exact Sat.raises ⟨hc.mem, hc.hdr⟩
  · rename_i d hd
    have hlen := (inflateChecked_ok hd).2
    refine Sat.ite (fun _ => Sat.raises ⟨hc.mem, hc.hdr⟩) fun hcap => ?_
    have hin : d.length = 0 ∨ s.opr.dstBase.toNat + d.length ≤ memSize s := by omega
    exact Sat.step (writeBytes_apply hin) (Sat.done (putRes0_apply _ _) ⟨hc.write hin hc.mem, hc.hdr⟩)

theorem execThdr_keeps (hc : Carries s M H) (h : Ready .thdr s) :
    ∃ r, exec .thdr s = .next (complete s r) ∧ Keeps M H r := by
  refine h.completes rfl (Sat.tagHeader (h.src (by decide)) (fun t k g hdone => ?_) fun k g e d off _ hg => ?_)
  · exact Sat.step (putRes0_apply _ _) (Sat.done (putRes1_apply _ _) ⟨hc.mem, hc.coherent g hdone.1⟩)
  · exact ⟨hc.mem, hc.coherent g hg⟩

theorem execFhdr_keeps {ver : FrameVer} (hc : Carries s M H) (h : Ready (fhdrOf ver) s) :
    ∃ r, exec (fhdrOf ver) s = .next (complete s r) ∧ Keeps M H r := by
  refine h.completes (by cases ver <;> rfl)
    (Sat.read (Reads.frameHeaderDecode (ver := ver) (h.src (by cases ver <;> decide))) fun out k hout => ?_)
  match out, hout with
  | .stop reason c, _ => exact Sat.step (putRes0_apply _ _) (Sat.done (putStop_apply _ _) ⟨hc.mem, hc.hdr⟩)
  | .fail e d id, _ =>
    exact Sat.step (putStop_apply _ _) (Sat.step (putErrId_apply _ _) (Sat.raises ⟨hc.mem, hc.hdr⟩))
  | .got hd, ⟨_, _, _, hid⟩ =>
    refine Sat.ite (fun _ => ?_) fun hcap => ?_
    · exact Sat.step (putStop_apply _ _) (Sat.raises ⟨hc.mem, hc.hdr⟩)
    · have hin := h.descriptor_inside (by cases ver <;> decide) hcap
        (descBytes_length hid (cls := plainClass .headerOnly) rfl 0 0 0)
      refine Sat.step (writeBytes_apply hin) (Sat.step (putRes0_apply _ _) (Sat.step (putRes1_apply _ _) ?_))
      exact Sat.done (putStop_apply _ _) ⟨hc.write hin hc.mem, hc.hdr⟩

theorem execFrame_keeps {ver : FrameVer} (hc : Carries s M H) (h : Ready (frameOf ver) s) :
    ∃ r, exec (frameOf ver) s = .next (complete s r) ∧ Keeps M H r := by
  have hpay := h.pay (by cases ver <;> decide)
  refine h.completes (by cases ver <;> rfl)
    (Sat.read (Reads.frameDecode (ver := ver) (h.src (by cases ver <;> decide))) fun out k hout => ?_)
  match out, hout with
  | .stop reason c, _ => exact Sat.step (putRes0_apply _ _) (Sat.done (putStop_apply _ _) ⟨hc.mem, hc.hdr⟩)
  | .fail e d id, _ =>
    exact Sat.step (putStop_apply _ _) (Sat.step (putErrId_apply _ _) (Sat.raises ⟨hc.mem, hc.hdr⟩))
  | .got fr, ⟨_, _, _, hid, hlang⟩ =>
    refine Sat.ite (fun _ => ?_) fun hcap => Sat.ite (fun _ => ?_) fun hfit => ?_
    · exact Sat.step (putStop_apply _ _) (Sat.raises ⟨hc.mem, hc.hdr⟩)
    · exact Sat.step (putStop_apply _ _) (Sat.raises ⟨hc.mem, hc.hdr⟩)
    · have hused := length_inflatedBytes_le hfit
      have hinPay : (inflatedBytes fr).length = 0 ∨ s.opr.payBase.toNat + (inflatedBytes fr).length ≤ memSize s := by
        omega
      have hin := h.descriptor_inside (by cases ver <;> decide) hcap
        (descBytes_length hid hlang 0 (payloadAddr s.opr.payBase.toNat fr) fr.d.length)
      refine Sat.step (storePayload_inflatedBytes hinPay) (Sat.step (writeBytes_apply hin) ?_)
      refine Sat.step (putRes0_apply _ _) (Sat.step (putRes1_apply _ _) (Sat.step (putRes2_apply _ _) ?_))
      exact Sat.done (putStop_apply _ _) ⟨hc.write hin (hc.write hinPay hc.mem), hc.hdr⟩

/-- PARSE: the region goes to DST, then the frame loop stores descriptors and payloads inside DESC and PAY and never
runs out of rounds (R325). -/
theorem execParse_keeps (hc : Carries s M H) (h : Ready .parse s) :
    ∃ r, exec .parse s = .next (complete s r) ∧ Keeps M H r := by
  have hsrc := h.src (by decide)
  have hdst := h.dst (by decide)
  have hdesc := h.desc (by decide)
  have hpay := h.pay (by decide)
  refine h.completes rfl (Sat.tagHeader hsrc (fun t k g hdone => ?_) fun k g e d off _ hg => ?_)
  · have hg := hc.coherent g hdone.1
    refine Sat.ite (fun _ => Sat.raises ⟨hc.mem, hg⟩) fun hregion => ?_
    refine Sat.read (Reads.readBytes (by omega)) fun xs k _ => Sat.step (putRes1_apply _ _) ?_
    generalize (if t.flags.getLsbD Config.tagUnsyncBit then resynchronize xs else xs) = y
    refine Sat.ite (fun _ => Sat.raises ⟨hc.mem, hg⟩) fun hcap => ?_
    have hin : y.length = 0 ∨ s.opr.dstBase.toNat + y.length ≤ memSize s := by omega
    refine Sat.step (writeBytes_apply hin) ?_
    refine (Sat.parseLoop (M := fun _ _ => M) (h := g) (res1 := BitVec.ofNat 32 y.length) hin hdesc hpay
      (fun k used m bs hk hbs => hc.write (by omega)) (fun k used m d hd => hc.write (by omega))
      (Nat.le_refl _) (Nat.zero_le _) (Nat.zero_le _) (Nat.zero_le _)).mono ?_ ?_ ?_
    · rintro _ rfl
      exact ⟨⟨rfl, rfl, rfl, rfl, rfl, rfl, rfl, rfl⟩, hc.write hin hc.mem⟩
    · rintro - r ⟨rfl, -, -, -, k, used, -, -, -, -, hm⟩
      exact ⟨hm, hg⟩
    · rintro r ⟨rfl, -, -, -, -, k, used, -, -, -, -, hm⟩
      exact ⟨hm, hg⟩
  · exact ⟨hc.mem, hc.coherent g hg⟩

/-- Every command completes, from every state, and carries M and H to its end. -/
theorem exec_keeps (hc : Carries s M H) (i : Instr) : ∃ r, exec i s = .next (complete s r) ∧ Keeps M H r := by
  cases hr : rangeError (memSize s) s.opr (rangesUsed i) with
  | some q =>
    exact ⟨{ startRun s with err := q.1, res := { ResultRegs.zero with detail := q.2 } }, exec_rangeError hr,
      hc.mem, hc.hdr⟩
  | none =>
    have hready := ready_of_rangeError hr
    cases i with
    | ssdec => exact execSsdec_keeps hc hready
    | resync => exact execResync_keeps hc hready
    | infl => exact execInfl_keeps hc hready
    | thdr => exact execThdr_keeps hc hready
    | fhdrV2 => exact execFhdr_keeps (ver := .v2) hc hready
    | fhdrV3 => exact execFhdr_keeps (ver := .v3) hc hready
    | fhdrV4 => exact execFhdr_keeps (ver := .v4) hc hready
    | frameV2 => exact execFrame_keeps (ver := .v2) hc hready
    | frameV3 => exact execFrame_keeps (ver := .v3) hc hready
    | frameV4 => exact execFrame_keeps (ver := .v4) hc hready
    | parse => exact execParse_keeps hc hready

/-- The engine's step completes whatever word was latched; an illegal one touches neither memory nor the header group
(R112). -/
theorem engineStep_keeps (hc : Carries s M H) : ∃ r, engineStep s = .next (complete s r) ∧ Keeps M H r := by
  unfold engineStep
  split
  · exact exec_keeps hc _
  · exact Sat.completes (Sat.raises ⟨hc.mem, hc.hdr⟩)

end

/-! ## No step faults (R82, R325) -/

theorem engineMove_ne_fault (s : State) (f : Fault) : engineMove s ≠ .fault f := by
  have hc : Carries s (fun _ => True) (fun _ => True) := ⟨trivial, trivial, fun _ _ => trivial, fun _ _ => trivial⟩
  obtain ⟨r, hr, -⟩ := engineStep_keeps hc
  unfold engineMove
  split
  · rw [hr]
    nofun
  · nofun

theorem hostReadReg_ne_fault (off : Nat) (s : State) (f : Fault) : hostReadReg off s ≠ .fault f := by
  unfold hostReadReg
  split <;> nofun

theorem hostWriteReg_ne_fault (off : Nat) (v : Word) (s : State) (f : Fault) : hostWriteReg off v s ≠ .fault f := by
  unfold hostWriteReg
  split <;> nofun

theorem hostReadMem_ne_fault (a : Nat) (s : State) (f : Fault) : hostReadMem a s ≠ .fault f := by
  unfold hostReadMem
  split
  · split
    · nofun
    · split <;> nofun
  · nofun

theorem hostWriteMem_ne_fault (a : Nat) (b : Byte) (s : State) (f : Fault) : hostWriteMem a b s ≠ .fault f := by
  unfold hostWriteMem
  split
  · split <;> nofun
  · nofun

theorem hostWait_ne_fault (rest : List Move) (s : State) (f : Fault) : hostWait rest s ≠ .fault f := by
  unfold hostWait
  split
  · nofun
  · exact engineMove_ne_fault _ f

/-- Settles O6: the engine's step completes from every state, and no other move can fault. -/
theorem stepNeverFaults : Obligations.StepNeverFaults := by
  intro s f
  cases hag : s.agenda with
  | nil =>
    have hself : step s = engineMove s := by simp [step, hag]
    rw [hself]
    exact engineMove_ne_fault s f
  | cons m rest =>
    rw [step_cons hag]
    cases m with
    | engine => exact engineMove_ne_fault _ f
    | readReg off => exact hostReadReg_ne_fault off _ f
    | writeReg off v => exact hostWriteReg_ne_fault off v _ f
    | readMem a => exact hostReadMem_ne_fault a _ f
    | writeMem a b => exact hostWriteMem_ne_fault a b _ f
    | waitDone => exact hostWait_ne_fault rest s f
    | powerOn => nofun

/-! ## The invariant (R80, R33, R34, R42 to R48) -/

/-- Memory in canonical form, with no byte at or above `ms` (R80). -/
def MemOk (ms : Nat) (m : Memory) : Prop := Memory.wf m = true ∧ Memory.within ms m = true

theorem MemOk.nil (ms : Nat) : MemOk ms [] := ⟨rfl, rfl⟩

theorem MemOk.set {ms a : Nat} {m : Memory} (h : MemOk ms m) (b : Byte) (ha : a < ms) : MemOk ms (memSet m a b) :=
  ⟨memSet_wf a b h.1, memSet_within b ha h.2⟩

theorem MemOk.setRange {ms a : Nat} {m : Memory} {bs : Bytes} (h : MemOk ms m)
    (ha : bs.length = 0 ∨ a + bs.length ≤ ms) : MemOk ms (memSetRange m a bs) :=
  ⟨memSetRange_wf a bs h.1, memSetRange_within bs ha h.2⟩

theorem MemOk.scramble {ms a n k : Nat} {m : Memory} (h : MemOk ms m) : MemOk ms (scramble ms a n m k).1 := by
  induction n generalizing a m k with
  | zero => exact h
  | succ n ih =>
    unfold Machine.scramble
    split
    · exact ih (h.set _ ‹_›)
    · exact h

theorem MemOk.scrambleRanges {ms k : Nat} {o : OperandRegs} {xs : List RangeName} {m : Memory} (h : MemOk ms m) :
    MemOk ms (scrambleRanges ms o xs m k).1 := by
  induction xs generalizing m k with
  | nil => exact h
  | cons x xs ih => exact ih h.scramble

/-- The abort of a soft reset draws bytes inside memory only (R391). -/
theorem MemOk.abortRunning {s : State} (h : MemOk (memSize s) s.mem) : MemOk (memSize s) (abortRunning s).mem := by
  unfold Machine.abortRunning
  split
  · exact h.scrambleRanges
  · exact h

theorem inv_iff {s : State} : Inv s ↔
    MemOk (memSize s) s.mem ∧ ¬(s.status.busy = true ∧ s.status.done = true) ∧ HeaderCoherent s.hdr := by
  simp only [Inv, MemOk, and_assoc]

/-- The invariant speaks of MEMLAST, memory, BUSY, DONE and the header group alone. -/
theorem Inv.congr {s t : State} (h : Inv s) (hlast : t.memLast = s.memLast) (hmem : t.mem = s.mem)
    (hbusy : t.status.busy = true → s.status.busy = true) (hdone : t.status.done = true → s.status.done = true)
    (hhdr : t.hdr = s.hdr) : Inv t := by
  obtain ⟨hok, hnot, hcoh⟩ := inv_iff.mp h
  refine inv_iff.mpr ⟨?_, fun ⟨hb, hd⟩ => hnot ⟨hbusy hb, hdone hd⟩, hhdr ▸ hcoh⟩
  rw [memSize, hlast, hmem]
  exact hok

/-- After a reset of the registers only memory has to be in order (R392). -/
theorem inv_of_reset {t : State} (hok : MemOk (memSize t) t.mem) (hstatus : t.status = Status.zero)
    (hhdr : t.hdr = HeaderRegs.zero) : Inv t :=
  inv_iff.mpr ⟨hok, by simp [hstatus, Status.zero], hhdr ▸ headerCoherent_zero⟩

theorem Inv.softReset {s : State} (h : Inv s) (bit0 : Bool) : Inv (softReset bit0 s) := by
  refine inv_of_reset ?_ rfl rfl
  rw [memSize, softReset_memLast, softReset_mem]
  exact (inv_iff.mp h).1.abortRunning

theorem Inv.acceptCommand {s : State} (h : Inv s) (w : Word) : Inv (acceptCommand w s) := by
  obtain ⟨hok, -, hcoh⟩ := inv_iff.mp h
  exact inv_iff.mpr ⟨hok, by simp, hcoh⟩

/-- A register write keeps the invariant: a soft reset and an accepted command by themselves, every other write since
neither BUSY nor DONE rises (R32 to R36, R405). -/
theorem Inv.writeReg {s : State} (h : Inv s) (r : RegName) (v : Word) : Inv (writeReg r v s) := by
  unfold Machine.writeReg
  split
  · exact h.congr rfl rfl id id rfl
  · split
    · unfold writeCtrl
      split
      · exact h.softReset _
      · exact h.congr rfl rfl id id rfl
    · exact h.congr rfl rfl id (fun hd => (Bool.and_eq_true_iff.mp hd).1) rfl
    · exact h.acceptCommand v
    · exact h.congr rfl rfl id id rfl

theorem Inv.writeOffset {s : State} (h : Inv s) (off : Nat) (v : Word) : Inv (writeOffset off v s) := by
  unfold Machine.writeOffset
  split
  · exact h.writeReg _ v
  · exact h

/-- A completion keeps the invariant: what the command wrote is in order, and BUSY falls (R52). -/
theorem Inv.engineStep {s t : State} (h : Inv s) (hrun : engineStep s = .next t) : Inv t := by
  obtain ⟨hok, -, hcoh⟩ := inv_iff.mp h
  have hc : Carries s (MemOk (memSize s)) HeaderCoherent := ⟨hok, hcoh, fun ha hm => hm.setRange ha, fun _ => id⟩
  obtain ⟨r, hr, hmem, hhdr⟩ := engineStep_keeps hc
  obtain rfl : complete s r = t := by simpa using hr.symm.trans hrun
  exact inv_iff.mpr ⟨hmem, by simp, hhdr⟩

/-- Settles O59, by where the step leads. -/
theorem stepKeepsInv : Obligations.StepKeepsInv := by
  intro s t h hstep
  have hag : ∀ rest, Inv { s with agenda := rest } := fun rest => h.congr rfl rfl id id rfl
  cases step_leads hstep with
  | quiet => exact h.congr rfl rfl id id rfl
  | ran rdata agenda _ _ hrun =>
    exact (h.congr (t := { s with rdata := rdata, agenda := agenda }) rfl rfl id id rfl).engineStep hrun
  | wroteReg off v rest => exact (hag rest).writeOffset off v
  | wroteMem a b rest _ ha =>
    obtain ⟨hok, hnot, hcoh⟩ := inv_iff.mp h
    exact inv_iff.mpr ⟨hok.set b ha, hnot, hcoh⟩
  | poweredOn rest => exact inv_of_reset (MemOk.nil _) rfl rfl

end Sys2Proof.Machine
end

section
/-! Host accesses to buffer memory (R81 to R83, R96), and the range and overlap checks every command begins with (R86
to R88, R360). -/

namespace Sys2Proof.Machine

open Sys2Proof (Word Byte Bytes Instr)

/-! ## Buffer memory -/

/-- What an address reads as after a run of bytes has been written (R82). -/
theorem memGet_memSetRange (m : Memory) (a a' : Nat) (bs : Bytes) :
    memGet (memSetRange m a bs) a' = if a ≤ a' ∧ a' < a + bs.length then bs[a' - a]? else memGet m a' := by
  split
  · rename_i hin
    obtain ⟨i, rfl⟩ := Nat.exists_eq_add_of_le hin.1
    have hi : i < bs.length := by omega
    rw [memGet_memSetRange_inside m bs hi, Nat.add_sub_cancel_left, List.getElem?_eq_getElem hi]
  · exact memGet_memSetRange_outside m bs (by omega)

/-- A run of bytes stands where each of its bytes does (R82). -/
theorem holds_iff {m : Memory} {a : Nat} {bs : Bytes} :
    Holds m a bs ↔ ∀ k < bs.length, memGet m (a + k) = bs[k]? := by
  rw [Holds, memGetRange_eq_some]
  refine ⟨fun h k hk => ?_, fun h => ⟨rfl, fun k hk => ?_⟩⟩
  · rw [h.2 k hk, List.getElem?_eq_getElem hk]
  · rw [h k hk, List.getElem?_eq_getElem hk]

/-- While BUSY = 1, a read of a range the running command writes is a draw (R96). -/
theorem hostReadMem_hazard {s : State} {a : Nat} (ha : a < memSize s)
    (hz : s.status.busy = true ∧ inRanges s (runningWrites s) a = true) : hostReadMem a s = .next (readDraw s) := by
  simp only [hostReadMem, if_pos ha, Bool.and_eq_true, if_pos hz]

/-- A read of a byte never written is a draw, busy or not (R83). -/
theorem hostReadMem_unwritten {s : State} {a : Nat} (ha : a < memSize s) (hm : memGet s.mem a = none) :
    hostReadMem a s = .next (readDraw s) := by
  simp only [hostReadMem, if_pos ha, hm, ite_self]

/-- Every other read returns the byte written last (R81). -/
theorem hostReadMem_written {s : State} {a : Nat} {x : Byte} (ha : a < memSize s) (hm : memGet s.mem a = some x)
    (hz : ¬(s.status.busy = true ∧ inRanges s (runningWrites s) a = true)) :
    hostReadMem a s = .next { s with rdata := x.zeroExtend 32 } := by
  simp only [hostReadMem, if_pos ha, hm, Bool.and_eq_true, if_neg hz]

/-- A write outside the ranges the running command uses changes its byte (R81, R96). -/
theorem hostWriteMem_allowed {s : State} {a : Nat} (b : Byte) (ha : a < memSize s)
    (hz : ¬(s.status.busy = true ∧ inRanges s (runningUses s) a = true)) :
    hostWriteMem a b s = .next { s with mem := memSet s.mem a b } := by
  simp only [hostWriteMem, if_pos ha, Bool.and_eq_true, if_neg hz]

/-- Settles O21: a read by whether the byte was written and lies in a range being written, a write by the laws of
`memSet`. -/
theorem hostMemoryAccess : Obligations.HostMemoryAccess := by
  refine ⟨memGet_memSetRange, fun m a bs => holds_iff, fun s a b rest => ⟨fun h => step_cons h, fun h => step_cons h⟩,
    fun s a b ha => ⟨?_, fun hz => ?_⟩⟩
  · cases hm : memGet s.mem a with
    | none => exact hostReadMem_unwritten ha hm
    | some x =>
      by_cases hz : s.status.busy = true ∧ inRanges s (runningWrites s) a = true
      · simp only [if_pos hz]
        exact hostReadMem_hazard ha hz
      · simp only [if_neg hz]
        exact hostReadMem_written ha hm hz
  · exact ⟨memSet s.mem a b, hostWriteMem_allowed b ha hz, memGet_memSet_self _ a b,
      fun a' hne => memGet_memSet_other _ b hne⟩

/-! ## The range and overlap checks (R86, R88) -/

theorem forall_rangeName {p : RangeName → Prop} : (∀ x, p x) ↔ p .src ∧ p .dst ∧ p .desc ∧ p .pay :=
  ⟨fun h => ⟨h _, h _, h _, h _⟩, fun ⟨hsrc, hdst, hdesc, hpay⟩ x => by cases x <;> assumption⟩

/-- The search for an invalid range ends at the first one in the order SRC, DST, DESC, PAY (R86). -/
theorem firstInvalid_eq_some {s : State} {uses : List RangeName} {x : RangeName} (hx : x ∈ uses) (hbad : ¬Fits s x)
    (hfirst : ∀ y ∈ uses, rangeRank y < rangeRank x → Fits s y) :
    firstInvalid (memSize s) s.opr uses = some x := by
  have hstop : (uses.contains x && !spanValid (memSize s) (spanOf s.opr x)) = true := by
    simp [hx, fits_iff.not.mp hbad]
  have hskip : ∀ y, rangeRank y < rangeRank x →
      (uses.contains y && !spanValid (memSize s) (spanOf s.opr y)) = false := by
    intro y hlt
    by_cases hy : y ∈ uses
    · simp [fits_iff.mp (hfirst y hy hlt)]
    · simp [hy]
  unfold firstInvalid
  cases x with
  | src => simp only [List.find?_cons, hstop]
  | dst => simp only [List.find?_cons, hskip .src (by decide), hstop]
  | desc => simp only [List.find?_cons, hskip .src (by decide), hskip .dst (by decide), hstop]
  | pay => simp only [List.find?_cons, hskip .src (by decide), hskip .dst (by decide), hskip .desc (by decide), hstop]

/-- Settles O23: the prologue raises what the search for an invalid range finds. -/
theorem firstInvalidRangeEndsTheCommand : Obligations.FirstInvalidRangeEndsTheCommand := by
  refine ⟨fun o => ⟨spanOf_src o, spanOf_dst o, spanOf_desc o, spanOf_pay o⟩, ?_, fun i s x hx hbad hfirst => ?_⟩
  · simp only [forall_rangeName]
    decide
  · have herr : rangeError (memSize s) s.opr (rangesUsed i) = some (.range, rangeDetail x) := by
      simp only [rangeError, firstInvalid_eq_some hx hbad hfirst]
    rw [exec_rangeError herr]
    cases x <;> rfl

/-- Two used ranges that share an address are among the pairs tested, in one order or the other (R88). -/
theorem someOverlap_of_share {s : State} {uses : List RangeName} {x y : RangeName} (hx : x ∈ uses) (hy : y ∈ uses)
    (hxy : x ≠ y) (h : Share s x y) : someOverlap s.opr uses = true := by
  have hpair : ∀ {x y : RangeName}, x ∈ uses → y ∈ uses → Share s x y → (x, y) ∈ overlapPairs →
      someOverlap s.opr uses = true := by
    intro x y hx hy h hq
    refine List.any_eq_true.mpr ⟨(x, y), hq, ?_⟩
    simp [hx, hy, spansOverlap_iff.mpr h]
  rcases overlapPairs_complete hxy with hq | hq
  · exact hpair hx hy h hq
  · exact hpair hy hx h.symm hq

/-- Settles O24: with every used range valid, the prologue goes on to the overlap test. -/
theorem overlappingRangesEndTheCommand : Obligations.OverlappingRangesEndTheCommand := by
  intro i s x y hx hy hxy hfits hshare
  have herr : rangeError (memSize s) s.opr (rangesUsed i) = some (.overlap, .overlapD) := by
    simp only [rangeError, firstInvalid_none hfits, someOverlap_of_share hx hy hxy hshare, if_true]
  exact exec_rangeError herr

end Sys2Proof.Machine
end

section
/-! The command words: the decoder against the encoder and against the three checks of R112 (R110 to R112), how an
illegal word completes, what the statements of a host program do (R160, R161), and the flag dispatch (R129, R267). -/

namespace Sys2Proof.Machine

open Sys2Proof (Word Byte Bytes Instr CmdFields IllegalCmd opOf verOf rsvOf rowsOf decode encode)

/-! ## The opcode map (R111) -/

/-- The operation codes of R111. -/
def opcodes : List (BitVec 8) := [0x01, 0x02, 0x03, 0x10, 0x20, 0x21, 0x30]

theorem opOk_iff (f : CmdFields) : f.opOk = true ↔ f.op ∈ opcodes := List.contains_iff_mem

theorem rowsOf_eq_none {op : BitVec 8} (h : op ∉ opcodes) : rowsOf op = none := by
  simp only [opcodes, List.mem_cons, List.not_mem_nil, or_false, not_or, ← BitVec.toNat_inj] at h
  obtain ⟨h01, h02, h03, h10, h20, h21, h30⟩ := h
  unfold rowsOf
  split
  · exact absurd ‹_› h01
  · exact absurd ‹_› h02
  · exact absurd ‹_› h03
  · exact absurd ‹_› h10
  · exact absurd ‹_› h20
  · exact absurd ‹_› h21
  · exact absurd ‹_› h30
  · rfl

theorem mem_opcodes_of_rowsOf {op : BitVec 8} {rows : List (BitVec 4 × Instr)} (h : rowsOf op = some rows) :
    op ∈ opcodes := by
  by_contra hop
  simp [rowsOf_eq_none hop] at h

theorem rowsOf_of_mem_opcodes {op : BitVec 8} (h : op ∈ opcodes) : ∃ rows, rowsOf op = some rows := by
  have hall : ∀ op ∈ opcodes, (rowsOf op).isSome = true := by decide
  exact Option.isSome_iff_exists.mp (hall op h)

/-- A row of the map is the command with those fields. -/
theorem fields_of_mem_rowsOf {op : BitVec 8} {rows : List (BitVec 4 × Instr)} (h : rowsOf op = some rows)
    {p : BitVec 4 × Instr} (hp : p ∈ rows) : p.2.fields = ⟨op, p.1, 0⟩ := by
  have hall : ∀ op ∈ opcodes, ∀ rows ∈ rowsOf op, ∀ p ∈ rows, p.2.fields = ⟨op, p.1, 0⟩ := by decide
  exact hall op (mem_opcodes_of_rowsOf h) rows h p hp

/-- The versions of an operation code are those that the second check of R112 allows. -/
theorem lookup_isSome_eq_verOk {op : BitVec 8} {rows : List (BitVec 4 × Instr)} (h : rowsOf op = some rows)
    (ver : BitVec 4) (rsv : BitVec 20) : (rows.lookup ver).isSome = CmdFields.verOk ⟨op, ver, rsv⟩ := by
  have hall : ∀ op ∈ opcodes, ∀ rows ∈ rowsOf op, ∀ ver : BitVec 4,
      (rows.lookup ver).isSome = CmdFields.verOk ⟨op, ver, 0⟩ := by decide
  exact hall op (mem_opcodes_of_rowsOf h) rows h ver

/-! ## Decode and encode (R110 to R112) -/

/-- The fields of a word (R110). -/
def fieldsOf (w : Word) : CmdFields := ⟨opOf w, verOf w, rsvOf w⟩

/-- The three fields hold every bit of the word (R110). -/
theorem eq_of_fieldsOf_eq {v w : Word} (h : fieldsOf v = fieldsOf w) : v = w := by
  obtain ⟨hop, hver, hrsv⟩ := CmdFields.mk.injEq .. ▸ h
  refine BitVec.eq_of_getLsbD_eq fun i hi => ?_
  obtain hlow | ⟨hlo, hhi⟩ | hhigh : i < 8 ∨ (8 ≤ i ∧ i < 12) ∨ 12 ≤ i := by omega
  · exact Nat.zero_add i ▸ getLsbD_of_extractLsb'_eq hop hlow
  · exact Nat.add_sub_of_le hlo ▸ getLsbD_of_extractLsb'_eq hver (by omega)
  · exact Nat.add_sub_of_le hhigh ▸ getLsbD_of_extractLsb'_eq hrsv (by omega)

theorem encode_fields (i : Instr) : Laws.EncodeFields.Statement i := by
  cases i with
  | ssdec => exact Laws.EncodeFields.ssdec
  | resync => exact Laws.EncodeFields.resync
  | infl => exact Laws.EncodeFields.infl
  | thdr => exact Laws.EncodeFields.thdr
  | fhdrV2 => exact Laws.EncodeFields.fhdrV2
  | fhdrV3 => exact Laws.EncodeFields.fhdrV3
  | fhdrV4 => exact Laws.EncodeFields.fhdrV4
  | frameV2 => exact Laws.EncodeFields.frameV2
  | frameV3 => exact Laws.EncodeFields.frameV3
  | frameV4 => exact Laws.EncodeFields.frameV4
  | parse => exact Laws.EncodeFields.parse

theorem fieldsOf_encode (i : Instr) : fieldsOf (encode i) = i.fields := (encode_fields i).2.symm

theorem instr_wf (i : Instr) : i.wf = true := by cases i <;> decide

theorem decode_encode (i : Instr) : decode (encode i) = .ok i := by cases i <;> decide

theorem decode_of_no_rows {w : Word} (h : rowsOf (opOf w) = none) : decode w = .error .badOp := by simp [decode, h]

theorem decode_of_no_version {w : Word} {rows : List (BitVec 4 × Instr)} (h : rowsOf (opOf w) = some rows)
    (hver : rows.lookup (verOf w) = none) : decode w = .error .badVer := by simp [decode, h, hver]

theorem decode_of_row {w : Word} {rows : List (BitVec 4 × Instr)} {i : Instr} (h : rowsOf (opOf w) = some rows)
    (hver : rows.lookup (verOf w) = some i) :
    decode w = if rsvOf w = 0 then .ok i else .error .reservedBits := by simp [decode, h, hver]

/-- A word that decodes has the fields of the command it decodes to. -/
theorem fieldsOf_of_decode {w : Word} {i : Instr} (h : decode w = .ok i) : fieldsOf w = i.fields := by
  cases hrows : rowsOf (opOf w) with
  | none => simp [decode_of_no_rows hrows] at h
  | some rows =>
    cases hlookup : rows.lookup (verOf w) with
    | none => simp [decode_of_no_version hrows hlookup] at h
    | some j =>
      rw [decode_of_row hrows hlookup] at h
      split at h
      · rename_i hrsv
        cases h
        obtain ⟨before, after, hsplit, -⟩ := List.lookup_eq_some_iff.mp hlookup
        have hmem : (verOf w, i) ∈ rows := by simp [hsplit]
        rw [fields_of_mem_rowsOf hrows hmem, fieldsOf, hrsv]
      · cases h

/-- Settles O2: a word that decodes has the command's fields, and the fields are the whole word. -/
theorem decodeAcceptsExactlyTheEncodings : Obligations.DecodeAcceptsExactlyTheEncodings := by
  refine fun w i => ⟨instr_wf i, fun h => eq_of_fieldsOf_eq ?_, ?_⟩
  · rw [fieldsOf_of_decode h, fieldsOf_encode]
  · rintro rfl
    exact decode_encode i

/-- Settles O1: each word is its command's encoding. -/
theorem opcodeMapWords : Obligations.OpcodeMapWords :=
  ⟨decode_encode .ssdec, decode_encode .resync, decode_encode .infl, decode_encode .thdr, decode_encode .fhdrV2,
    decode_encode .fhdrV3, decode_encode .fhdrV4, decode_encode .frameV2, decode_encode .frameV3,
    decode_encode .frameV4, decode_encode .parse⟩

/-! ## Illegal words (R112) -/

theorem verOk_iff (f : CmdFields) : f.verOk = true ↔
    if f.op = 0x20 ∨ f.op = 0x21 then f.ver = 2 ∨ f.ver = 3 ∨ f.ver = 4 else f.ver = 0 := by
  simp [CmdFields.verOk]

theorem rsvOk_iff (f : CmdFields) : f.rsvOk = true ↔ f.rsv = 0 := beq_iff_eq

theorem wf_iff (f : CmdFields) : f.wf = true ↔ f.opOk = true ∧ f.verOk = true ∧ f.rsvOk = true := by
  simp only [CmdFields.wf, Bool.and_eq_true, and_assoc]

/-- The first check that fails, for fields that fail one (R112). -/
def firstFailedCheck (f : CmdFields) : IllegalCmd :=
  if f.opOk = false then .badOp else if f.verOk = false then .badVer else .reservedBits

/-- The decoder accepts the words that pass the three checks, and names the first check that another word fails. -/
theorem decode_by_checks (w : Word) :
    if (fieldsOf w).wf = true then ∃ i, decode w = .ok i else decode w = .error (firstFailedCheck (fieldsOf w)) := by
  cases hop : (fieldsOf w).opOk with
  | false =>
    have hrows : rowsOf (opOf w) = none := rowsOf_eq_none fun h => by simp [(opOk_iff (fieldsOf w)).mpr h] at hop
    simp [CmdFields.wf, firstFailedCheck, hop, decode_of_no_rows hrows]
  | true =>
    obtain ⟨rows, hrows⟩ : ∃ rows, rowsOf (opOf w) = some rows := rowsOf_of_mem_opcodes ((opOk_iff _).mp hop)
    have hver : (rows.lookup (verOf w)).isSome = (fieldsOf w).verOk := lookup_isSome_eq_verOk hrows _ _
    cases hlookup : rows.lookup (verOf w) with
    | none =>
      rw [hlookup, Option.isSome_none] at hver
      simp [CmdFields.wf, firstFailedCheck, hop, ← hver, decode_of_no_version hrows hlookup]
    | some i =>
      rw [hlookup, Option.isSome_some] at hver
      have hrsv : (fieldsOf w).rsvOk = true ↔ rsvOf w = 0 := rsvOk_iff _
      rw [decode_of_row hrows hlookup]
      by_cases hzero : rsvOf w = 0
      · simp [CmdFields.wf, hop, ← hver, hrsv.mpr hzero, hzero]
      · have hbad : (fieldsOf w).rsvOk = false := Bool.eq_false_iff.mpr (hrsv.not.mpr hzero)
        rw [if_neg hzero]
        simp [CmdFields.wf, firstFailedCheck, hop, ← hver, hbad]

theorem illegalDetail_firstFailedCheck (f : CmdFields) : illegalDetail (firstFailedCheck f) =
    if f.opOk = false then .badOp else if f.verOk = false then .badVer else .reservedBits := by
  rw [firstFailedCheck, apply_ite illegalDetail, apply_ite illegalDetail]
  rfl

/-- With nothing left on the agenda and a command pending, the engine takes its step. -/
theorem step_engine {s : State} (hagenda : s.agenda = []) (hbusy : s.status.busy = true) :
    step s = engineStep s := by simp [step, hagenda, engineMove, hbusy]

theorem engineStep_ok {s : State} {i : Instr} (h : decode s.cmd = .ok i) : engineStep s = exec i s := by
  simp [engineStep, h]

/-- An illegal word completes with ILLEGAL_CMD and its detail, and touches nothing else (R112, R52). -/
theorem engineStep_illegal {s : State} {e : IllegalCmd} (h : decode s.cmd = .error e) :
    engineStep s = .next (finished s .illegalCmd .noStop { ResultRegs.zero with detail := illegalDetail e }
      s.hdr s.mem) := by
  simp only [engineStep, h]
  rfl

/-- Settles O3: the decoder's answer by the checks, and the completion of an illegal word. -/
theorem illegalWordsCompleteWithTheFirstFailedCheck :
    Obligations.IllegalWordsCompleteWithTheFirstFailedCheck := by
  refine ⟨fun w => ⟨rfl, rfl, rfl⟩, fun f => ⟨?_, verOk_iff f, rsvOk_iff f, wf_iff f⟩, fun s hagenda hbusy => ?_⟩
  · simp [opOk_iff, opcodes, ← BitVec.toNat_inj]
  · have hdecode := decode_by_checks s.cmd
    show if (fieldsOf s.cmd).wf = true then _ else _
    split at hdecode
    · rwa [if_pos ‹_›]
    · rw [if_neg ‹_›, step_engine hagenda hbusy, engineStep_illegal hdecode, illegalDetail_firstFailedCheck]
      rfl

/-! ## Host programs (R160, R161) -/

theorem byteWrites_eq_map (a : Nat) (bs : Bytes) :
    byteWrites a bs = (List.range bs.length).map fun k => .writeMem (a + k) (byteAt bs k) := by
  induction bs generalizing a with
  | nil => rfl
  | cons b bs ih =>
    rw [byteWrites, ih, List.length_cons, List.range_succ_eq_map, List.map_cons, List.map_map]
    refine congrArg₂ List.cons rfl (List.map_congr_left fun k _ => ?_)
    show Move.writeMem (a + 1 + k) (byteAt bs k) = .writeMem (a + (k + 1)) (byteAt bs k)
    rw [Nat.add_right_comm, Nat.add_assoc]

/-- An ASCII character is its own byte (R160). -/
theorem asciiBytes_toNat {text : String} (h : ∀ c ∈ text.toList, c.toNat < 128) :
    (asciiBytes text).map (·.toNat) = text.toList.map (·.toNat) := by
  rw [asciiBytes, List.map_map]
  refine List.map_congr_left fun c hc => ?_
  have hlt := h c hc
  exact Nat.mod_eq_of_lt (by omega)

/-- Every command completes, from every state (R401). -/
theorem exec_completes (i : Instr) (s : State) : ∃ r, exec i s = .next (complete s r) := by
  have hc : Carries s (fun _ => True) (fun _ => True) := ⟨trivial, trivial, fun _ _ => trivial, fun _ _ => trivial⟩
  obtain ⟨r, hr, -⟩ := exec_keeps hc i
  exact ⟨r, hr⟩

/-- A CMD write to an idle machine is accepted (R34). -/
theorem step_writeCmd {s : State} {w : Word} {rest : List Move} (h : s.agenda = .writeReg 0x008 w :: rest)
    (hidle : s.status.busy = false) : step s = .next (acceptCommand w { s with agenda := rest }) := by
  rw [step_writeReg h (by decide), writeOffset_of_regAt (r := .cmd) _ _ (by decide),
    writeReg_cmd (s := { s with agenda := rest }) w hidle]

/-- WAIT polls STATUS while the engine runs the pending command (R160, R400). -/
theorem step_wait_pending {s : State} {i : Instr} {rest : List Move} (h : s.agenda = .waitDone :: rest)
    (hbusy : s.status.busy = true) (hdone : s.status.done = false) (hcmd : decode s.cmd = .ok i) :
    step s = exec i { s with rdata := statusWord s } := by
  rw [step_cons h]
  simp only [takeMove, hostWait, hdone, engineMove, hbusy, if_true, Bool.false_eq_true, if_false]
  exact engineStep_ok hcmd

/-- WAIT ends with the poll that finds DONE = 1 (R160). -/
theorem step_wait_done {s : State} {rest : List Move} (h : s.agenda = .waitDone :: rest)
    (hdone : s.status.done = true) : step s = .next { s with rdata := statusWord s, agenda := rest } := by
  rw [step_cons h]
  exact if_pos hdone

/-- WAIT for a pending command (R160, R400, R401): one step runs it, the next ends the WAIT. -/
theorem wait_runs_command {s : State} {i : Instr} {rest : List Move} (h : s.agenda = .waitDone :: rest)
    (hbusy : s.status.busy = true) (hdone : s.status.done = false) (hcmd : decode s.cmd = .ok i) :
    ∃ t, step s = .next t ∧ exec i { s with rdata := statusWord s } = .next t ∧ t.status.done = true
      ∧ step t = .next { t with rdata := statusWord t, agenda := rest } := by
  obtain ⟨r, hrun⟩ := exec_completes i { s with rdata := statusWord s }
  exact ⟨_, (step_wait_pending h hbusy hdone hcmd).trans hrun, hrun, rfl, step_wait_done h rfl⟩

/-- Settles O8: the moves of each statement, and RUN as its three steps. -/
theorem hostStatementsAndWhatRunDoes : Obligations.HostStatementsAndWhatRunDoes := by
  refine ⟨fun r v => ⟨rfl, rfl⟩, byteWrites_eq_map, fun a text h => ⟨asciiBytes text, rfl, asciiBytes_toNat h⟩,
    fun i => ⟨rfl, rfl⟩, rfl, rfl, fun base len => ⟨rfl, rfl, rfl, rfl⟩, fun s i rest hidle hagenda => ?_⟩
  obtain ⟨b, hstep, hrun, hdone, hend⟩ := wait_runs_command (rest := rest)
    (s := acceptCommand (encode i) { s with agenda := .waitDone :: rest }) rfl rfl rfl (decode_encode i)
  exact ⟨_, b, _, step_writeCmd hagenda hidle, hstep, hend, rfl, rfl, rfl, rfl, rfl, rfl, rfl, hrun, rfl, hdone⟩

/-! ## NFLAGS (R129, R267) -/

theorem getLsbD_ofNat_of_div_mod {w n i : Nat} {b : Bool} (hi : i < w) (h : n / 2 ^ i % 2 = b.toNat) :
    (BitVec.ofNat w n).getLsbD i = b := by
  rw [BitVec.getLsbD_ofNat, Nat.testBit_eq_decide_div_mod_eq, h]
  cases b <;> simp [hi]

/-- Each bit of the byte is the flag of its name (R129). -/
theorem nflagsByte_getLsbD (n : NFlags) {k : Nat} (hk : k < 8) : (nflagsByte n).getLsbD k =
    ([n.dli, n.uns, n.enc, n.cmp, n.grp, n.ro, n.fap, n.tap] : List Bool).getD k false := by
  have htap := Bool.toNat_le n.tap
  have hfap := Bool.toNat_le n.fap
  have hro := Bool.toNat_le n.ro
  have hgrp := Bool.toNat_le n.grp
  have hcmp := Bool.toNat_le n.cmp
  have henc := Bool.toNat_le n.enc
  have huns := Bool.toNat_le n.uns
  have hdli := Bool.toNat_le n.dli
  refine getLsbD_ofNat_of_div_mod hk ?_
  interval_cases k <;> simp only [List.getD_cons_zero, List.getD_cons_succ] <;> omega

/-- Settles O38: the bits of the byte, with the flags that each version dispatches. -/
theorem flagDispatchPositions : Obligations.FlagDispatchPositions :=
  ⟨fun n _ hk => nflagsByte_getLsbD n hk, fun f1 f2 => ⟨rfl,
    fun _ hk => nflagsByte_getLsbD (flagDispatch .v3 f1 f2) hk,
    fun _ hk => nflagsByte_getLsbD (flagDispatch .v4 f1 f2) hk⟩⟩

end Sys2Proof.Machine
end

section
/-! The integer codec: synchsafe values (R180, R133), the unsynchronization scheme (R182, R184), and what SSDEC, RESYNC
and INFL do (R181, R183, R192). -/

namespace Sys2Proof.Machine

open Sys2Proof (Word Byte Bytes Instr)

/-! ## Synchsafe values (R180, R133) -/

/-- A field above the bits of a number: taking both together is adding them. -/
theorem or_eq_add_of_lt {k b : Nat} (hb : b < 2 ^ k) (a : Nat) : a * 2 ^ k ||| b = a * 2 ^ k + b := by
  rw [← Nat.shiftLeft_eq, Nat.shiftLeft_add_eq_or_of_lt hb]

/-- Four seven-bit groups side by side. -/
theorem or_groups {b c d : Nat} (hb : b < 128) (hc : c < 128) (hd : d < 128) (a : Nat) :
    a * 2 ^ 21 ||| b * 2 ^ 14 ||| c * 2 ^ 7 ||| d = a * 2 ^ 21 + b * 2 ^ 14 + c * 2 ^ 7 + d := by
  rw [Nat.or_assoc, Nat.or_assoc, or_eq_add_of_lt (k := 7) hd c, or_eq_add_of_lt (k := 14) (by omega) b,
    or_eq_add_of_lt (k := 21) (by omega) a]
  omega

/-- A seven-bit group moved to bit k of a word. -/
theorem toNat_shiftedGroup (w : Word) (i : Nat) {k : Nat} (hk : k ≤ 21) :
    ((w.extractLsb' i 7).zeroExtend 32 <<< k).toNat = w.toNat / 2 ^ i % 128 * 2 ^ k := by
  have hlt : w.toNat / 2 ^ i % 128 * 2 ^ k < 2 ^ 32 :=
    calc w.toNat / 2 ^ i % 128 * 2 ^ k < 128 * 2 ^ k :=
          Nat.mul_lt_mul_of_pos_right (Nat.mod_lt _ (by omega)) (Nat.two_pow_pos k)
      _ ≤ 128 * 2 ^ 21 := Nat.mul_le_mul_left 128 (Nat.pow_le_pow_right (by omega) hk)
      _ < 2 ^ 32 := by omega
  rw [BitVec.toNat_shiftLeft, Nat.shiftLeft_eq, BitVec.zeroExtend, BitVec.toNat_setWidth_of_le (by omega),
    BitVec.extractLsb'_toNat, Nat.shiftRight_eq_div_pow]
  exact Nat.mod_eq_of_lt hlt

/-- Decoding as arithmetic (R180). -/
theorem toNat_fromSynchsafe (w : Word) : (fromSynchsafe w).toNat =
    w.toNat / 2 ^ 24 % 128 * 2 ^ 21 + w.toNat / 2 ^ 16 % 128 * 2 ^ 14 + w.toNat / 2 ^ 8 % 128 * 2 ^ 7
      + w.toNat % 128 := by
  have hlow : ((w.extractLsb' 0 7).zeroExtend 32).toNat = w.toNat % 128 := by
    simpa using toNat_shiftedGroup w 0 (k := 0) (by omega)
  rw [fromSynchsafe, BitVec.toNat_or, BitVec.toNat_or, BitVec.toNat_or, toNat_shiftedGroup w 24 (by omega),
    toNat_shiftedGroup w 16 (by omega), toNat_shiftedGroup w 8 (by omega), hlow]
  exact or_groups (Nat.mod_lt _ (by omega)) (Nat.mod_lt _ (by omega)) (Nat.mod_lt _ (by omega)) _

/-- Decoding reads the low seven bits of each byte and no other bit (R180). -/
theorem fromSynchsafe_congr {v w : Word} (h : v &&& 0x7F7F7F7F = w &&& 0x7F7F7F7F) :
    fromSynchsafe v = fromSynchsafe w := by
  have hmask : ∀ g < 4, ∀ j < 7, (0x7F7F7F7F : Word).getLsbD (8 * g + j) = true := by decide
  refine eq_of_sevenBitGroups (fromSynchsafe_lt v) (fromSynchsafe_lt w) fun g hg j hj => ?_
  have hbit := congrArg (·.getLsbD (8 * g + j)) h
  simp only [BitVec.getLsbD_and, hmask g hg j hj, Bool.and_true] at hbit
  rw [getLsbD_fromSynchsafe v hg hj, getLsbD_fromSynchsafe w hg hj, hbit]

theorem toNat_beWord_four (a b c d : Byte) : (beWord [a, b, c, d]).toNat =
    a.toNat * 2 ^ 24 + b.toNat * 2 ^ 16 + c.toNat * 2 ^ 8 + d.toNat := by
  rw [beWord, BitVec.toNat_ofNat, Nat.mod_eq_of_lt (be_lt_four rfl)]
  simp only [be, List.foldl_cons, List.foldl_nil]
  omega

/-- Settles O25: the value as arithmetic, for a word and for the word of four bytes. -/
theorem synchsafeDecodeArithmetic : Obligations.SynchsafeDecodeArithmetic := by
  refine fun w => ⟨toNat_fromSynchsafe w, fromSynchsafe_lt w, fun v => fromSynchsafe_congr, fun a b c d => ?_⟩
  rw [synchsafe, toNat_fromSynchsafe, toNat_beWord_four]
  have hb := b.isLt
  have hc := c.isLt
  have hd := d.isLt
  omega

/-! ## The unsynchronization scheme (R16, R182, R184) -/

/-- y is a 0x00 that stands between 0xFF and a byte that triggers stuffing (R182). -/
def StuffedZero (x y : Byte) (rest : Bytes) : Prop := x = 0xFF ∧ y = 0x00 ∧ ∃ z ∈ rest.head?, triggers z = true

theorem not_stuffedZero_nil (x y : Byte) : ¬StuffedZero x y [] := by simp [StuffedZero]

theorem stuffedZero_cons {x y z : Byte} {rest : Bytes} :
    StuffedZero x y (z :: rest) ↔ x = 0xFF ∧ y = 0x00 ∧ triggers z = true := by simp [StuffedZero]

/-- A 0x00 between 0xFF and a byte that triggers stuffing is dropped (R182). -/
theorem resynchronize_drop {z : Byte} (hz : triggers z = true) (rest : Bytes) :
    resynchronize (0xFF :: 0x00 :: z :: rest) = 0xFF :: resynchronize (z :: rest) := by
  rw [resynchronize, if_pos ⟨rfl, rfl, hz⟩]

/-- Every byte but a stuffed 0x00 is kept (R182). -/
theorem resynchronize_keep {x y : Byte} {rest : Bytes} (h : ¬StuffedZero x y rest) :
    resynchronize (x :: y :: rest) = x :: resynchronize (y :: rest) := by
  cases rest with
  | nil => rfl
  | cons z rest => rw [resynchronize, if_neg (h ∘ stuffedZero_cons.mpr)]

/-- Stuffing inserts bytes after the first one only. -/
theorem unsynchronize_cons (x : Byte) (rest : Bytes) : ∃ tail, unsynchronize (x :: rest) = x :: tail := by
  cases rest with
  | nil => exact ⟨[], rfl⟩
  | cons y rest =>
    unfold unsynchronize
    split
    · exact ⟨_, rfl⟩
    · exact ⟨_, rfl⟩

/-- Settles O29: a stuffed 0x00 is dropped again, and a 0x00 that was not stuffed stands after no 0xFF. -/
theorem unsyncLaw : Obligations.UnsyncLaw := by
  intro x
  induction x using unsynchronize.induct with
  | case1 x y rest hstuff ih =>
    obtain ⟨rfl, hy⟩ := hstuff
    obtain ⟨tail, htail⟩ := unsynchronize_cons y rest
    rw [unsynchronize, if_pos ⟨rfl, hy⟩]
    rw [htail] at ih ⊢
    rw [resynchronize_drop hy, ih]
  | case2 x y rest hplain ih =>
    obtain ⟨tail, htail⟩ := unsynchronize_cons y rest
    rw [unsynchronize, if_neg hplain]
    rw [htail] at ih ⊢
    rw [resynchronize_keep, ih]
    rintro ⟨rfl, rfl, -⟩
    exact hplain ⟨rfl, by decide⟩
  | case3 xs hshort =>
    match xs with
    | [] => rfl
    | [x] => rfl
    | x :: y :: rest => exact (hshort x y rest rfl).elim

/-! ## Resynchronization decided byte by byte (R182) -/

/-- Byte i of the input where resynchronization keeps it, none where it is a stuffed 0x00 (R182). -/
def keptByte (x : Bytes) (i : Nat) : Option Byte :=
  if 0 < i ∧ i + 1 < x.length ∧ byteAt x (i - 1) = 0xFF ∧ byteAt x i = 0x00
      ∧ (byteAt x (i + 1) = 0x00 ∨ byteAt x (i + 1) &&& 0xE0 = 0xE0) then none else x[i]?

/-- The kept bytes in their order. -/
def keptBytes (x : Bytes) : Bytes := (List.range x.length).filterMap (keptByte x)

theorem triggers_iff {z : Byte} : triggers z = true ↔ z = 0x00 ∨ z &&& 0xE0 = 0xE0 := by simp [triggers]

theorem keptByte_zero (x : Byte) (rest : Bytes) : keptByte (x :: rest) 0 = some x :=
  if_neg fun h => absurd h.1 (Nat.lt_irrefl 0)

theorem keptByte_one_drop {z : Byte} (hz : triggers z = true) (rest : Bytes) :
    keptByte (0xFF :: 0x00 :: z :: rest) 1 = none :=
  if_pos ⟨by omega, by simp, rfl, rfl, triggers_iff.mp hz⟩

theorem keptByte_one_keep {x y : Byte} {rest : Bytes} (h : ¬StuffedZero x y rest) :
    keptByte (x :: y :: rest) 1 = some y := by
  refine if_neg ?_
  rintro ⟨-, hlen, hx, hy, hz⟩
  cases rest with
  | nil => exact Nat.lt_irrefl 2 hlen
  | cons z rest => exact h (stuffedZero_cons.mpr ⟨hx, hy, triggers_iff.mpr hz⟩)

/-- Whether a byte is kept depends on its two neighbours, not on where the input begins. -/
theorem keptByte_succ_succ (x : Byte) (w : Bytes) (i : Nat) : keptByte (x :: w) (i + 2) = keptByte w (i + 1) := by
  simp [keptByte, byteAt]

theorem keptBytes_cons (x : Byte) (w : Bytes) :
    keptBytes (x :: w) = x :: (List.range w.length).filterMap fun i => keptByte (x :: w) (i + 1) := by
  rw [keptBytes, List.length_cons, List.range_succ_eq_map, List.filterMap_cons_some (keptByte_zero x w),
    List.filterMap_map]
  rfl

/-- What is kept after the first byte: the second byte unless it is stuffed, and what follows the second. -/
theorem keptBytes_cons_cons (x y : Byte) (w : Bytes) : keptBytes (x :: y :: w) =
    x :: ((keptByte (x :: y :: w) 1).toList ++ (keptBytes (y :: w)).tail) := by
  rw [keptBytes_cons x, keptBytes_cons y, List.length_cons, List.range_succ_eq_map, List.tail_cons]
  simp only [List.filterMap_cons, List.filterMap_map, Function.comp_def, Nat.succ_eq_add_one, keptByte_succ_succ]
  cases keptByte (x :: y :: w) 1 <;> rfl

theorem keptBytes_keep {x y : Byte} {rest : Bytes} (h : ¬StuffedZero x y rest) :
    keptBytes (x :: y :: rest) = x :: keptBytes (y :: rest) := by
  rw [keptBytes_cons_cons, keptByte_one_keep h, keptBytes_cons y]
  rfl

theorem keptBytes_drop {z : Byte} (hz : triggers z = true) (rest : Bytes) :
    keptBytes (0xFF :: 0x00 :: z :: rest) = 0xFF :: keptBytes (z :: rest) := by
  rw [keptBytes_cons_cons, keptByte_one_drop hz, keptBytes_keep (fun h => absurd h.1 (by decide))]
  rfl

theorem resynchronize_eq_keptBytes (x : Bytes) : resynchronize x = keptBytes x := by
  induction x using resynchronize.induct with
  | case1 x y z rest hstuffed ih =>
    obtain ⟨rfl, rfl, hz⟩ := hstuffed
    rw [resynchronize_drop hz, keptBytes_drop hz, ih]
  | case2 x y z rest hkeep ih =>
    have h : ¬StuffedZero x y (z :: rest) := hkeep ∘ stuffedZero_cons.mp
    rw [resynchronize_keep h, keptBytes_keep h, ih]
  | case3 xs hshort =>
    match xs with
    | [] => rfl
    | [x] => rfl
    | [x, y] => exact (keptBytes_keep (not_stuffedZero_nil x y)).symm
    | x :: y :: z :: rest => exact (hshort x y z rest rfl).elim

/-- Settles O28: the scan keeps the kept bytes, of which there are no more than bytes of input. -/
theorem resynchronizeDropsExactlyTheStuffedZeros : Obligations.ResynchronizeDropsExactlyTheStuffedZeros := by
  refine fun x => ⟨resynchronize_eq_keptBytes x, ?_⟩
  calc (resynchronize x).length = (keptBytes x).length := by rw [resynchronize_eq_keptBytes]
    _ ≤ (List.range x.length).length := List.length_filterMap_le _ _
    _ = x.length := List.length_range

/-! ## The commands SSDEC, RESYNC and INFL (R181, R183, R192)

Each command is followed line by line with `Sat` to the one state in which it can complete. -/

/-- A command that has passed its prologue ends in `t` where every ending of its pseudocode `body` does. -/
theorem Ready.finishes {i : Instr} {s t : State} {body : Eng Unit} (h : Ready i s)
    (hexec : exec i s = runCommand s (prologue (memSize s) s.opr (rangesUsed i) >>= fun _ => body))
    (hb : Sat (· = startRun s) body (fun _ r => complete s r = t) (fun r => complete s r = t)) :
    exec i s = .next t := by
  obtain ⟨r, hrun, rfl⟩ := h.completes hexec hb
  exact hrun

/-- SRC that has been written is read as it stands and nothing else changes (R82, R83). -/
theorem readBytes_srcIs {i : Instr} {s : State} {bs : Bytes} (h : Ready i s) (hi : .src ∈ rangesUsed i)
    (hsrc : SrcIs s bs) :
    readBytes (memSize s) s.opr.srcBase.toNat s.opr.srcLen.toNat (startRun s) = .ok bs (startRun s) := by
  rw [hsrc.1]
  exact readBytes_src h hi hsrc.starts (startRun_mem s)

/-- SSDEC uses no range, so nothing keeps it from running (R87, R181). -/
theorem ready_ssdec (s : State) : Ready .ssdec s := ⟨by simp [rangesUsed], by simp [rangesUsed]⟩

/-- Settles O27: every state passes SSDEC's prologue, and its one line writes RES0. -/
theorem ssdecResult : Obligations.SsdecResult := by
  refine ⟨decode_encode .ssdec, fun s => ?_, by decide, by decide, by decide, by decide, by decide⟩
  refine (ready_ssdec s).finishes (body := putRes0 _) rfl (Sat.done (putRes0_apply _ _) ?_)
  rw [BitVec.ofNat_toNat, BitVec.setWidth_eq]
  rfl

/-- Settles O30: the bytes read are those of SRC, and the two registers are written before the capacity test. -/
theorem resyncResult : Obligations.ResyncResult := by
  refine ⟨decode_encode .resync, fun s xs hready hsrc => ?_⟩
  have hdst := hready.dst (by decide)
  refine hready.finishes rfl (Sat.step (readBytes_srcIs hready (by decide) hsrc) ?_)
  refine Sat.step (putRes0_apply _ _) (Sat.step (putRes1_apply _ _) ?_)
  refine Sat.ite (fun hfull => Sat.raises ?_) fun hfits => Sat.done (writeBytes_apply (by omega)) ?_
  · exact (if_pos hfull).symm
  · exact (if_neg hfits).symm

theorem inflateChecked_of_none {inflate : InflateFn} {c : Bytes} (h : inflate c = none) (n : Nat) :
    inflateChecked inflate c n = .error .inflateFail := by simp [inflateChecked, h]

theorem inflateChecked_of_length_ne {inflate : InflateFn} {c d : Bytes} {n : Nat} (h : inflate c = some d)
    (hn : d.length ≠ n) : inflateChecked inflate c n = .error .inflateLen := by simp [inflateChecked, h, hn]

theorem inflateChecked_of_length_eq {inflate : InflateFn} {c d : Bytes} {n : Nat} (h : inflate c = some d)
    (hn : d.length = n) : inflateChecked inflate c n = .ok d := by simp [inflateChecked, h, hn]

/-- Settles O31: by what the engine answers, then by the length and the capacity. -/
theorem inflResult : Obligations.InflResult := by
  refine ⟨decode_encode .infl, fun s c hready hsrc => ?_⟩
  have hdst := hready.dst (by decide)
  refine hready.finishes rfl (Sat.step (readBytes_srcIs hready (by decide) hsrc) ?_)
  cases hinf : Config.inflate c with
  | none =>
    rw [inflateChecked_of_none hinf]
    exact Sat.raises rfl
  | some d =>
    by_cases hlen : d.length = s.opr.arg0.toNat
    · rw [inflateChecked_of_length_eq hinf hlen]
      refine Sat.ite (fun hfull => Sat.raises ?_) fun hfits => ?_
      · exact ((if_neg (not_not.mpr hlen)).trans (if_pos hfull)).symm
      · refine Sat.step (writeBytes_apply (by omega)) (Sat.done (putRes0_apply _ _) ?_)
        rw [BitVec.ofNat_toNat, BitVec.setWidth_eq]
        exact ((if_neg (not_not.mpr hlen)).trans (if_neg hfits)).symm
    · rw [inflateChecked_of_length_ne hinf hlen]
      exact Sat.raises (if_pos hlen).symm

end Sys2Proof.Machine
end

section
/-! The tag header and its extended header on bytes that stand in memory: what each stage of `TagHeaderDecode` answers
and leaves (R221 to R237), and with it what THDR does (R220). -/

namespace Sys2Proof.Machine

open Sys2Proof (Word Byte Bytes Instr)

/-! ## Engine operations from one run -/

/-- A line of pseudocode that goes on, then what follows it. -/
theorem eng_bind_step {α β : Type} {m : Eng α} {f : α → Eng β} {r r' : Run} {x : α}
    {out : EStateM.Result Ending Run β} (h : m r = .ok x r') (hf : f x r' = out) :
    (m >>= f) r = out := (eng_bind_ok h).trans hf

/-- A run that a `raise` has ended (R361). -/
def raisedRun (e : ErrCode) (d : Detail) (off : Nat) (r : Run) : Run :=
  { r with err := e, res := { r.res with detail := d, errOff := BitVec.ofNat 32 off } }

theorem raise_eq {α : Type} (e : ErrCode) (d : Detail) (off : Nat) (r : Run) :
    (raise e d off : Eng α) r = .error .raised (raisedRun e d off r) := rfl

theorem need_met {n k : Nat} (h : k ≤ n) (d : Detail) (r : Run) : need n k d r = .ok () r := by
  unfold need
  rw [if_neg (Nat.not_lt.mpr h)]
  rfl

theorem need_unmet {n k : Nat} (h : n < k) (d : Detail) (r : Run) :
    need n k d r = .error .raised (raisedRun .truncated d n r) := by
  unfold need
  rw [if_pos h, raise_eq]

/-- The first byte of a run that stands. -/
theorem readByte_held {ms a : Nat} {b : Byte} {bs : Bytes} {r : Run} (h : Holds r.mem a (b :: bs)) (ha : a < ms) :
    readByte ms a r = .ok b r :=
  readByte_written ha ((memGetRange_eq_some.mp h).2 0 (by simp))

theorem readBytes_held {ms a n : Nat} {bs : Bytes} {r : Run} (h : Holds r.mem a bs) (hn : bs.length = n)
    (ha : a + n ≤ ms) : readBytes ms a n r = .ok bs r := hn ▸ readBytes_holds h (.inr (hn ▸ ha))

/-- What stands whole of a run that the end of SRC cuts after n bytes. -/
theorem Holds.of_take {m : Memory} {a n : Nat} {p q : Bytes} (h : Holds m a ((p ++ q).take n)) (hp : p.length ≤ n) :
    Holds m a p := by
  rw [List.take_append, List.take_of_length_le hp] at h
  exact h.append_left

/-! ## The basic header (R120, R222) -/

/-- `TagHeaderDecode` once the extended header's reported size and consumed bytes `out` are known (R236). -/
def dataSizeStage (ver : FrameVer) (flags : Byte) (raw : Word) (out : Nat × Nat) : Eng TagHeader := do
  putHdr fun g => { g with extSize := BitVec.ofNat 32 out.1, extConsumed := BitVec.ofNat 32 out.2 }
  let size := (fromSynchsafe raw).toNat
  if size < out.1 then raise .corruptHeader .dataSizeNeg 10
  else do
    putHdr fun g =>
      { g with dataSize := BitVec.ofNat 32 (size - out.1), hdrEnd := BitVec.ofNat 32 (10 + out.2) }
    pure ⟨ver, flags, 10 + out.2, size - out.1⟩

/-- `TagHeaderDecode` once version, revision and flags are recorded; the version is none unless it is 2, 3 or 4
(R222, R225). -/
def versionStage (ms base n : Nat) (flags : Byte) (raw : Word) : Option FrameVer → Eng TagHeader
  | none => raise .invalidVersion .version 3
  | some ver => do
    putHdr fun g => { g with hdrOk := true, thSizeRaw := raw, thSize := fromSynchsafe raw }
    let out ← extHeader ms base n ver flags
    dataSizeStage ver flags raw out

/-- Too few bytes for a marker (R222). -/
theorem tagHeaderDecode_short {ms base n : Nat} {r : Run} (hn : n < 3) :
    tagHeaderDecode ms base n r = .error .raised (raisedRun .notATag .marker 0 { r with hdr := HeaderRegs.zero }) := by
  unfold tagHeaderDecode
  refine eng_bind_step (putHdr_apply _ _) ?_
  rw [if_pos hn, raise_eq]

/-- A bad marker (R222). -/
theorem tagHeaderDecode_badMarker {ms base n : Nat} {m : Bytes} {r : Run} (hh : Holds r.mem base m)
    (hlen : m.length = 3) (hm : m ≠ [0x49, 0x44, 0x33]) (hn : 3 ≤ n) (hms : base + n ≤ ms) :
    tagHeaderDecode ms base n r = .error .raised (raisedRun .notATag .marker 0 { r with hdr := HeaderRegs.zero }) := by
  unfold tagHeaderDecode
  refine eng_bind_step (putHdr_apply _ _) ?_
  rw [if_neg (by omega)]
  refine eng_bind_step (readBytes_held hh hlen (by omega)) ?_
  rw [if_pos hm, raise_eq]

/-- A good marker with fewer bytes than a basic header has (R222). -/
theorem tagHeaderDecode_shortHeader {ms base n : Nat} {r : Run} (hh : Holds r.mem base [0x49, 0x44, 0x33])
    (hn : 3 ≤ n) (hn10 : n < 10) (hms : base + n ≤ ms) :
    tagHeaderDecode ms base n r =
      .error .raised (raisedRun .truncated .shortHeader n { r with hdr := HeaderRegs.zero }) := by
  unfold tagHeaderDecode
  refine eng_bind_step (putHdr_apply _ _) ?_
  rw [if_neg (by omega)]
  refine eng_bind_step (readBytes_held hh rfl (by omega)) ?_
  rw [if_neg (by simp)]
  exact eng_bind_error (need_unmet hn10 _ _)

/-- Ten bytes with a good marker: version, revision and flags are recorded (R222). -/
theorem tagHeaderDecode_marked {ms base n : Nat} {ver rev flags : Byte} {size : Bytes} {r : Run}
    (hlen : size.length = 4) (hh : Holds r.mem base ([0x49, 0x44, 0x33, ver, rev, flags] ++ size)) (hn : 10 ≤ n)
    (hms : base + n ≤ ms) :
    tagHeaderDecode ms base n r = versionStage ms base n flags (beWord size) (verOfByte ver)
      { r with hdr := { HeaderRegs.zero with ver := ver, rev := rev, flags := flags } } := by
  have hmarker : Holds r.mem base [0x49, 0x44, 0x33] :=
    Holds.append_left (cs := [ver, rev, flags] ++ size) (by simpa using hh)
  have hsize : slice ([0x49, 0x44, 0x33, ver, rev, flags] ++ size) 6 10 = size := by
    simp [slice, List.take_of_length_le hlen.le]
  unfold tagHeaderDecode
  refine eng_bind_step (putHdr_apply _ _) ?_
  rw [if_neg (by omega)]
  refine eng_bind_step (readBytes_held hmarker rfl (by omega)) ?_
  rw [if_neg (by simp)]
  refine eng_bind_step (need_met hn _ _) (eng_bind_step (readBytes_held hh (by simp [hlen]) (by omega)) ?_)
  refine eng_bind_step (putHdr_apply _ _) ?_
  rw [hsize]
  simp only [byteAt, List.cons_append, List.getD_cons_succ, List.getD_cons_zero]
  cases verOfByte ver <;> rfl

theorem verOfByte_none {v : Byte} (h2 : v ≠ 2) (h3 : v ≠ 3) (h4 : v ≠ 4) : verOfByte v = none := by
  have hne : v.toNat ≠ 2 ∧ v.toNat ≠ 3 ∧ v.toNat ≠ 4 :=
    ⟨fun h => h2 (BitVec.eq_of_toNat_eq h), fun h => h3 (BitVec.eq_of_toNat_eq h),
      fun h => h4 (BitVec.eq_of_toNat_eq h)⟩
  unfold verOfByte
  split <;> simp_all

theorem verOfByte_verNum (ver : FrameVer) : verOfByte (BitVec.ofNat 8 (verNum ver)) = some ver := by
  cases ver <;> rfl

/-- A basic header of a version that the IFP decodes: every field of it is recorded, then the extended header is
decoded (R222, R225). -/
theorem tagHeaderDecode_basic {ms base n : Nat} {ver : FrameVer} {rev flags : Byte} {size : Bytes} {r : Run}
    (hlen : size.length = 4) (hh : Holds r.mem base (tagHeaderBytes ver rev flags size)) (hn : 10 ≤ n)
    (hms : base + n ≤ ms) :
    tagHeaderDecode ms base n r = (extHeader ms base n ver flags >>= dataSizeStage ver flags (beWord size))
      { r with hdr := basicRegs (BitVec.ofNat 8 (verNum ver)) rev flags true (beWord size) } := by
  rw [tagHeaderDecode_marked hlen hh hn hms, verOfByte_verNum]
  rfl

/-! ## The data size (R236) -/

theorem toNat_beWord_of_length_four {b : Bytes} (h : b.length = 4) : (beWord b).toNat = be b := by
  simp only [beWord, BitVec.toNat_ofNat, Nat.mod_eq_of_lt (be_lt_four h)]

/-- A data size that would be negative is CORRUPT_HEADER. -/
theorem dataSizeStage_negative {ver : FrameVer} {flags : Byte} {raw : Word} {out : Nat × Nat} {r : Run}
    (h : (fromSynchsafe raw).toNat < out.1) :
    dataSizeStage ver flags raw out r = .error .raised (raisedRun .corruptHeader .dataSizeNeg 10
      { r with hdr := { r.hdr with
          extSize := BitVec.ofNat 32 out.1, extConsumed := BitVec.ofNat 32 out.2 } }) := by
  unfold dataSizeStage
  refine eng_bind_step (putHdr_apply _ _) ?_
  simp only [if_pos h, raise_eq]

/-- Otherwise it is the tag size less the reported size, and the frame region begins where the headers end. -/
theorem dataSizeStage_known {ver : FrameVer} {flags : Byte} {raw : Word} {out : Nat × Nat} {r : Run}
    (h : out.1 ≤ (fromSynchsafe raw).toNat) (hsize : r.hdr.thSize = fromSynchsafe raw) :
    dataSizeStage ver flags raw out r =
      .ok ⟨ver, flags, 10 + out.2, (fromSynchsafe raw).toNat - out.1⟩ { r with hdr := withRegion { r.hdr with
          extSize := BitVec.ofNat 32 out.1, extConsumed := BitVec.ofNat 32 out.2 } } := by
  have hds : BitVec.ofNat 32 ((fromSynchsafe raw).toNat - out.1) = r.hdr.thSize - BitVec.ofNat 32 out.1 := by
    rw [hsize]
    bv_omega
  unfold dataSizeStage
  refine eng_bind_step (putHdr_apply _ _) ?_
  simp only [if_neg (Nat.not_lt.mpr h)]
  refine eng_bind_step (putHdr_apply _ _) ?_
  rw [hds, BitVec.ofNat_add]
  rfl

/-! ## The v2.3 extended header (R226 to R228) -/

/-- The fields that every v2.3 extended header has, recorded. -/
def fixedV23 (x : ExtV23Layout) (g : HeaderRegs) : HeaderRegs :=
  { g with extField := beWord x.size, extFlags := beWord x.flags, extPad := beWord x.pad }

/-- `ExtV23` once those fields are recorded: the CRC where flag bit 15 is set (R227, R228). -/
def crcStageV23 (ms base n : Nat) (x : ExtV23Layout) : Eng (Nat × Nat) :=
  if (beWord x.flags).getLsbD 15 then do
    need n 24 .shortExt
    crcTrackV23 ms base
    pure (Config.v23CrcExtSize, 14)
  else pure (be x.size, 10)

/-- The CRC is there exactly with its flag. -/
theorem ExtV23Ok.crc {x : ExtV23Layout} (hx : ExtV23Ok x) :
    ((beWord x.flags).getLsbD 15 = true ∧ x.crc.length = 4)
      ∨ ((beWord x.flags).getLsbD 15 = false ∧ x.crc = []) := by
  obtain ⟨-, -, -, hcrc⟩ := hx
  cases hbit : (beWord x.flags).getLsbD 15 with
  | true => exact .inl ⟨rfl, by rw [hcrc, hbit]; rfl⟩
  | false => exact .inr ⟨rfl, List.length_eq_zero_iff.mp (by rw [hcrc, hbit]; rfl)⟩

theorem extV23_fixed {ms base n : Nat} {x : ExtV23Layout} {r : Run} (hx : ExtV23Ok x)
    (hh : Holds r.mem (base + 10) (x.size ++ x.flags ++ x.pad)) (hn : 20 ≤ n) (hms : base + n ≤ ms) :
    extV23 ms base n r = crcStageV23 ms base n x { r with hdr := fixedV23 x r.hdr } := by
  obtain ⟨hsize, hflags, hpad, -⟩ := hx
  have hf : Holds r.mem (base + 14) x.flags := by
    have := hh.append_left.append_right
    rwa [hsize] at this
  have hp : Holds r.mem (base + 16) x.pad := by
    have := hh.append_right
    rwa [List.length_append, hsize, hflags] at this
  unfold extV23
  refine eng_bind_step (need_met hn _ _) (eng_bind_step (readBytes_held hh.append_left.append_left hsize (by omega)) ?_)
  refine eng_bind_step (putHdr_apply _ _) (eng_bind_step (readBytes_held hf hflags (by omega)) ?_)
  refine eng_bind_step (putHdr_apply _ _) (eng_bind_step (readBytes_held hp hpad (by omega)) ?_)
  exact eng_bind_step (putHdr_apply _ _) rfl

theorem extV23_cut {ms base n : Nat} (hn : n < 20) (r : Run) :
    extV23 ms base n r = .error .raised (raisedRun .truncated .shortExt n r) :=
  eng_bind_error (need_unmet hn _ _)

/-- The CRC is cut by the end of SRC. -/
theorem crcStageV23_cut {ms base n : Nat} {x : ExtV23Layout} (hx : ExtV23Ok x) (hn : 20 ≤ n)
    (hcut : n < 20 + x.crc.length) (r : Run) :
    crcStageV23 ms base n x r = .error .raised (raisedRun .truncated .shortExt n r) := by
  unfold crcStageV23
  rcases hx.crc with ⟨hbit, hlen⟩ | ⟨-, hnil⟩
  · rw [if_pos hbit]
    exact eng_bind_error (need_unmet (by omega) _ _)
  · rw [hnil, List.length_nil] at hcut
    omega

/-- The header group of `extV23Regs` while OK and the two sizes are still to be written. -/
def runningV23 (base : Nat) (rev flags : Byte) (size : Bytes) (x : ExtV23Layout) : HeaderRegs :=
  { extV23Regs base rev flags size x with extOk := false, extSize := 0, extConsumed := 0 }

/-- A v2.3 extended header that stands whole (R226 to R228). -/
theorem extV23_whole {ms base n : Nat} {rev flags : Byte} {size : Bytes} {x : ExtV23Layout} {r : Run}
    (hx : ExtV23Ok x) (hr : r.hdr = extStartRegs .v3 rev flags size) (hh : Holds r.mem (base + 10) (extV23Bytes x))
    (hn : 10 + (extV23Bytes x).length ≤ n) (hms : base + n ≤ ms) (h32 : ms ≤ 2 ^ 32) :
    extV23 ms base n r = .ok (if x.crc = [] then be x.size else 10, (extV23Bytes x).length)
      { r with hdr := runningV23 base rev flags size x } := by
  have ⟨hsize, hflags, hpad, _⟩ := hx
  have hlen : (extV23Bytes x).length = 10 + x.crc.length := by
    simp only [extV23Bytes, List.length_append, hsize, hflags, hpad]
  rw [extV23_fixed hx hh.append_left (by omega) hms, hr]
  unfold crcStageV23
  rcases hx.crc with ⟨hbit, hfour⟩ | ⟨hbit, hnil⟩
  · have hne : x.crc ≠ [] := List.length_pos_iff.mp (by omega)
    have hc : Holds r.mem (base + 20) x.crc := by
      have := hh.append_right
      rwa [List.length_append, List.length_append, hsize, hflags, hpad] at this
    rw [if_pos hbit, if_neg hne, hlen, hfour]
    refine eng_bind_step (need_met (by omega) _ _) (eng_bind_step (m := crcTrackV23 ms base) (x := ()) ?_ (eng_pure _ _))
    refine eng_bind_step (readBytes_held hc hfour (by omega)) (eng_bind_step (addrWord_apply (by omega) _) ?_)
    rw [putHdr_apply]
    simp only [runningV23, extV23Regs, if_neg hne]
    rfl
  · rw [if_neg (by rw [hbit]; simp), if_pos hnil, hlen, hnil]
    simp only [runningV23, extV23Regs, hnil]
    rfl

/-! ## One block of a v2.4 extended header (R231, R232) -/

/-- A block that stands whole, or is absent, is recorded. Its address is a free word where it does not fit its register
(log entry 8). `put` leaves the header group alone when it records an absent block. -/
theorem extBlock_whole {ms base n p : Nat} {b : Option Bytes} {put : BlockStat → Word → HeaderRegs → HeaderRegs}
    {r : Run} (hb : ∀ c ∈ b, c.length ≤ 128) (hput : put ⟨false, 0⟩ 0 r.hdr = r.hdr)
    (hh : Holds r.mem (base + p) (optBlockBytes b)) (hn : p + (optBlockBytes b).length ≤ n) (hms : base + n ≤ ms) :
    ∃ k w, extBlock ms base n b.isSome put p r =
        .ok (p + (optBlockBytes b).length) { r with draws := k, hdr := put (statOf b) w r.hdr }
      ∧ (base + p + (optBlockBytes b).length < 2 ^ 32 → k = r.draws ∧ w = addrOf (base + p) b) := by
  cases b with
  | none => exact ⟨r.draws, 0, by simp only [statOf, hput]; rfl, fun _ => ⟨rfl, rfl⟩⟩
  | some c =>
    have hc := hb c rfl
    have hl : (BitVec.ofNat 8 c.length).toNat = c.length := by simp only [BitVec.toNat_ofNat]; omega
    simp only [optBlockBytes, blockBytes, List.length_cons] at hh hn ⊢
    have hgo : ∀ w k, addrWord (base + p + 1) r = .ok w { r with draws := k } →
        extBlock ms base n (some c).isSome put p r = .ok (p + (c.length + 1))
          { r with draws := k, hdr := put (statOf (some c)) w r.hdr } := by
      intro w k hw
      unfold extBlock
      rw [Option.isSome_some, if_pos rfl]
      refine eng_bind_step (need_met (by omega) _ _) (eng_bind_step (readByte_held hh (by omega)) ?_)
      rw [hl, if_neg (by simp only [Config.extBlockMax]; omega)]
      refine eng_bind_step (need_met (by omega) _ _) (eng_bind_step hw (eng_bind_step (putHdr_apply _ _) ?_))
      rw [eng_pure, Nat.add_assoc, Nat.add_comm 1]
      rfl
    by_cases ha : base + p + 1 < 2 ^ 32
    · exact ⟨r.draws, _, hgo _ _ (addrWord_apply ha r), fun _ => ⟨rfl, rfl⟩⟩
    · exact ⟨_, _, hgo _ _ (if_neg ha), fun h => absurd h (by omega)⟩

/-- A block that the end of SRC cuts, in its payload or before its length byte. -/
theorem extBlock_cut {ms base n p : Nat} {c : Bytes} {put : BlockStat → Word → HeaderRegs → HeaderRegs} {r : Run}
    (hc : c.length ≤ 128) (hh : Holds r.mem (base + p) ((blockBytes c).take (n - p)))
    (hn : n < p + (blockBytes c).length) (hms : base + n ≤ ms) :
    extBlock ms base n true put p r = .error .raised (raisedRun .truncated .shortExt n r) := by
  have hl : (BitVec.ofNat 8 c.length).toNat = c.length := by simp only [BitVec.toNat_ofNat]; omega
  simp only [blockBytes, List.length_cons] at hn
  unfold extBlock
  rw [if_pos rfl]
  by_cases hlen : n < p + 1
  · exact eng_bind_error (need_unmet hlen _ _)
  · obtain ⟨j, hj⟩ : ∃ j, n - p = j + 1 := ⟨n - p - 1, by omega⟩
    rw [hj, blockBytes, List.take_succ_cons] at hh
    refine eng_bind_step (need_met (by omega) _ _) (eng_bind_step (readByte_held hh (by omega)) ?_)
    rw [hl, if_neg (by simp only [Config.extBlockMax]; omega)]
    exact eng_bind_error (need_unmet (by omega) _ _)

/-- A block whose length byte is above 128. -/
theorem extBlock_long {ms base n p : Nat} {l : Byte} {put : BlockStat → Word → HeaderRegs → HeaderRegs} {r : Run}
    (hl : 128 < l.toNat) (hh : Holds r.mem (base + p) [l]) (hp : p + 1 ≤ n) (hms : base + n ≤ ms) :
    extBlock ms base n true put p r = .error .raised (raisedRun .corruptHeader .extBlockLen p r) := by
  unfold extBlock
  rw [if_pos rfl]
  refine eng_bind_step (need_met hp _ _) (eng_bind_step (readByte_held hh (by omega)) ?_)
  rw [if_pos (show l.toNat > Config.extBlockMax from hl), raise_eq]

/-! ## The flags of a v2.4 extended header (R230) -/

/-- The fields before the blocks, recorded. -/
def fixedV24 (x : ExtV24Layout) (g : HeaderRegs) : HeaderRegs :=
  { g with
    extField := fromSynchsafe (beWord x.size), nfb := BitVec.ofNat 8 x.flags.length,
    extFlags := (firstFlags x).zeroExtend 32 }

theorem firstFlagByte_held {ms base : Nat} {x : ExtV24Layout} {r : Run} (hh : Holds r.mem (base + 15) x.flags)
    (hms : base + 15 + x.flags.length ≤ ms) : firstFlagByte ms base x.flags.length r = .ok (firstFlags x) r := by
  unfold firstFlagByte firstFlags
  cases hf : x.flags with
  | nil => rfl
  | cons b bs =>
    rw [hf] at hh hms
    simp only [List.length_cons] at hms ⊢
    rw [if_pos (Nat.succ_pos _)]
    exact readByte_held hh (by omega)

/-- Everything before the blocks stands: it is recorded and the blocks are decoded. -/
theorem extV24_flags {ms base n : Nat} {x : ExtV24Layout} {r : Run} (hsize : x.size.length = 4)
    (hflags : x.flags.length ≤ 255)
    (hh : Holds r.mem (base + 10) (x.size ++ [BitVec.ofNat 8 x.flags.length] ++ x.flags))
    (hn : 15 + x.flags.length ≤ n) (hms : base + n ≤ ms) :
    extV24 ms base n r =
      (extV24Blocks ms base n (firstFlags x) (15 + x.flags.length) >>= fun p => pure (p - 10, p - 10))
        { r with hdr := fixedV24 x r.hdr } := by
  have hl : (BitVec.ofNat 8 x.flags.length).toNat = x.flags.length := by simp only [BitVec.toNat_ofNat]; omega
  have hcount : Holds r.mem (base + 14) [BitVec.ofNat 8 x.flags.length] := by
    have := hh.append_left.append_right
    rwa [hsize] at this
  have hf : Holds r.mem (base + 15) x.flags := by
    have := hh.append_right
    rwa [List.length_append, hsize] at this
  unfold extV24
  refine eng_bind_step (need_met (by omega) _ _)
    (eng_bind_step (readBytes_held hh.append_left.append_left hsize (by omega)) ?_)
  refine eng_bind_step (putHdr_apply _ _) (eng_bind_step (readByte_held hcount (by omega)) ?_)
  refine eng_bind_step (putHdr_apply _ _) ?_
  rw [hl]
  refine eng_bind_step (need_met hn _ _) (eng_bind_step (firstFlagByte_held hf (by omega)) ?_)
  refine eng_bind_step (putHdr_apply _ _) ?_
  simp only [synchsafe, BitVec.ofNat_toNat, BitVec.setWidth_eq]
  rfl

/-- The end of SRC cuts the size field or the flag count. -/
theorem extV24_cutSize {ms base n : Nat} (hn : n < 15) (r : Run) :
    extV24 ms base n r = .error .raised (raisedRun .truncated .shortExt n r) :=
  eng_bind_error (need_unmet hn _ _)

/-- The end of SRC cuts the flag bytes: the size field and their count are recorded. -/
theorem extV24_cutFlags {ms base n : Nat} {x : ExtV24Layout} {r : Run} (hsize : x.size.length = 4)
    (hflags : x.flags.length ≤ 255) (hh : Holds r.mem (base + 10) (x.size ++ [BitVec.ofNat 8 x.flags.length]))
    (hn : 15 ≤ n) (hcut : n < 15 + x.flags.length) (hms : base + n ≤ ms) :
    extV24 ms base n r = .error .raised (raisedRun .truncated .shortExt n { r with hdr := { r.hdr with
      extField := fromSynchsafe (beWord x.size), nfb := BitVec.ofNat 8 x.flags.length } }) := by
  have hl : (BitVec.ofNat 8 x.flags.length).toNat = x.flags.length := by simp only [BitVec.toNat_ofNat]; omega
  have hcount : Holds r.mem (base + 14) [BitVec.ofNat 8 x.flags.length] := by
    have := hh.append_right
    rwa [hsize] at this
  unfold extV24
  refine eng_bind_step (need_met hn _ _) (eng_bind_step (readBytes_held hh.append_left hsize (by omega)) ?_)
  refine eng_bind_step (putHdr_apply _ _) (eng_bind_step (readByte_held hcount (by omega)) ?_)
  refine eng_bind_step (putHdr_apply _ _) ?_
  rw [hl]
  refine (eng_bind_error (need_unmet hcut _ _)).trans ?_
  simp only [synchsafe, BitVec.ofNat_toNat, BitVec.setWidth_eq]

/-! ## The blocks of a v2.4 extended header (R231 to R234) -/

/-- The header group of `extV24Regs` while OK and the two sizes are still to be written. -/
def runningV24 (base : Nat) (rev flags : Byte) (size : Bytes) (x : ExtV24Layout) : HeaderRegs :=
  { extV24Regs base rev flags size x with extOk := false, extSize := 0, extConsumed := 0 }

/-- The part of a v2.4 extended header before its blocks. -/
def flagPartV24 (x : ExtV24Layout) : Bytes := x.size ++ [BitVec.ofNat 8 x.flags.length] ++ x.flags

theorem flagPartV24_length {x : ExtV24Layout} (h : x.size.length = 4) :
    (flagPartV24 x).length = 5 + x.flags.length := by
  simp only [flagPartV24, List.length_append, h, List.length_singleton]

theorem extV24Bytes_eq (x : ExtV24Layout) :
    extV24Bytes x = flagPartV24 x ++ optBlockBytes x.upd ++ optBlockBytes x.crc ++ optBlockBytes x.rstr := rfl

theorem extV24Bytes_length {x : ExtV24Layout} (h : x.size.length = 4) :
    (extV24Bytes x).length = 5 + x.flags.length + (optBlockBytes x.upd).length + (optBlockBytes x.crc).length
      + (optBlockBytes x.rstr).length := by
  simp only [extV24Bytes_eq, List.length_append, flagPartV24_length h]

/-- Where each part of a v2.4 extended header stands. -/
theorem Holds.partsV24 {m : Memory} {base : Nat} {x : ExtV24Layout} (hh : Holds m (base + 10) (extV24Bytes x))
    (hsize : x.size.length = 4) :
    Holds m (base + 10) (flagPartV24 x) ∧ Holds m (base + (15 + x.flags.length)) (optBlockBytes x.upd)
      ∧ Holds m (base + (15 + x.flags.length + (optBlockBytes x.upd).length)) (optBlockBytes x.crc)
      ∧ Holds m (base + (15 + x.flags.length + (optBlockBytes x.upd).length + (optBlockBytes x.crc).length))
        (optBlockBytes x.rstr) := by
  have hplace : ∀ k, base + 10 + (5 + k) = base + (15 + k) := fun k => by omega
  rw [extV24Bytes_eq] at hh
  refine ⟨hh.append_left.append_left.append_left, ?_, ?_, ?_⟩
  · simpa only [flagPartV24_length hsize, hplace] using hh.append_left.append_left.append_right
  · simpa only [List.length_append, flagPartV24_length hsize, Nat.add_assoc, hplace] using hh.append_left.append_right
  · simpa only [List.length_append, flagPartV24_length hsize, Nat.add_assoc, hplace] using hh.append_right

/-- The is-update block, recorded. -/
def recordUpd (b : BlockStat) (a : Word) (g : HeaderRegs) : HeaderRegs := { g with updStat := b, updAddr := a }
@[inherit_doc recordUpd] def recordCrc (b : BlockStat) (a : Word) (g : HeaderRegs) : HeaderRegs :=
  { g with crcStat := b, crcAddr := a }
@[inherit_doc recordUpd] def recordRstr (b : BlockStat) (a : Word) (g : HeaderRegs) : HeaderRegs :=
  { g with rstrStat := b, rstrAddr := a }

/-- A v2.4 extended header that stands whole (R230 to R234). -/
theorem extV24_whole {ms base n : Nat} {rev flags : Byte} {size : Bytes} {x : ExtV24Layout} {r : Run}
    (hx : ExtV24Ok x) (hr : r.hdr = extStartRegs .v4 rev flags size) (hh : Holds r.mem (base + 10) (extV24Bytes x))
    (hn : 10 + (extV24Bytes x).length ≤ n) (hms : base + n ≤ ms)
    (h32 : base + 10 + (extV24Bytes x).length < 2 ^ 32) :
    extV24 ms base n r = .ok ((extV24Bytes x).length, (extV24Bytes x).length)
      { r with hdr := runningV24 base rev flags size x } := by
  obtain ⟨hsize, hflags, hbUpd, hbCrc, hbRstr, hupd, hcrc, hrstr⟩ := hx
  have hlen := extV24Bytes_length hsize
  obtain ⟨hFlag, hUpd, hCrc, hRstr⟩ := hh.partsV24 hsize
  rw [extV24_flags hsize hflags hFlag (by omega) hms, hr]
  obtain ⟨k, w, hstep, hfit⟩ := extBlock_whole (put := recordUpd)
    (r := { r with hdr := fixedV24 x (extStartRegs .v4 rev flags size) }) hupd rfl hUpd (by omega) hms
  obtain ⟨rfl, rfl⟩ := hfit (by omega)
  obtain ⟨k, w, hstep', hfit⟩ := extBlock_whole (put := recordCrc)
    (r := { r with hdr := recordUpd (statOf x.upd) _ (fixedV24 x (extStartRegs .v4 rev flags size)) })
    hcrc rfl hCrc (by omega) hms
  obtain ⟨rfl, rfl⟩ := hfit (by omega)
  obtain ⟨k, w, hstep'', hfit⟩ := extBlock_whole (put := recordRstr)
    (r := { r with hdr := recordCrc (statOf x.crc) _ (recordUpd (statOf x.upd) _
      (fixedV24 x (extStartRegs .v4 rev flags size))) })
    hrstr rfl hRstr (by omega) hms
  obtain ⟨rfl, rfl⟩ := hfit (by omega)
  rw [hbUpd] at hstep
  rw [hbCrc] at hstep'
  rw [hbRstr] at hstep''
  refine eng_bind_step (eng_bind_step hstep (eng_bind_step hstep' hstep'')) ?_
  rw [eng_pure]
  have hend : 15 + x.flags.length + (optBlockBytes x.upd).length + (optBlockBytes x.crc).length
      + (optBlockBytes x.rstr).length - 10 = (extV24Bytes x).length := by omega
  simp only [hend, ← Nat.add_assoc]
  rfl

/-- The first flagged block of a v2.4 extended header that ends in an error: the blocks before it have been recorded,
at addresses that are free words where they do not fit their registers (R231, R237). -/
theorem extV24_blockRaises {ms base n : Nat} {rev flags : Byte} {size : Bytes} {x : ExtV24Layout} {r : Run}
    {e : ErrCode} {d : Detail} {off : Nat}
    (hx : ExtV24Upto x) (hr : r.hdr = extStartRegs .v4 rev flags size) (hh : Holds r.mem (base + 10) (extV24Bytes x))
    (hn : 10 + (extV24Bytes x).length ≤ n) (hms : base + n ≤ ms)
    (hraise : ∀ put r', r'.mem = r.mem → extBlock ms base n true put (10 + (extV24Bytes x).length) r' =
      .error .raised (raisedRun e d off r')) :
    ∃ k wUpd wCrc, extV24 ms base n r = .error .raised (raisedRun e d off { r with draws := k, hdr :=
        { runningV24 base rev flags size x with updAddr := wUpd, crcAddr := wCrc } })
      ∧ (base + 10 + (extV24Bytes x).length < 2 ^ 32 → k = r.draws
        ∧ wUpd = (runningV24 base rev flags size x).updAddr ∧ wCrc = (runningV24 base rev flags size x).crcAddr) := by
  obtain ⟨hsize, hflags, hupd, hcrc, hrstr, hflag⟩ := hx
  have hlen := extV24Bytes_length hsize
  obtain ⟨hFlag, hUpd, hCrc, -⟩ := hh.partsV24 hsize
  rw [extV24_flags hsize hflags hFlag (by omega) hms, hr]
  have hraises : ∀ {flag put r' p}, flag = true → r'.mem = r.mem → p = 10 + (extV24Bytes x).length →
      extBlock ms base n flag put p r' = .error .raised (raisedRun e d off r') := by
    rintro _ put r' _ rfl hmem rfl
    exact hraise put r' hmem
  obtain ⟨size', flags', upd, crc, rstr⟩ := x
  dsimp only at hsize hflags hupd hcrc hrstr hflag hlen hUpd hCrc ⊢
  subst hrstr
  change _ = _ + 0 at hlen
  rcases hflag with ⟨hbit, rfl, rfl⟩ | ⟨hbit, hbUpd, rfl⟩ | ⟨hbit, hbUpd, hbCrc⟩
  · change _ = _ + 0 + 0 + 0 at hlen
    refine ⟨r.draws, 0, 0, eng_bind_error (eng_bind_error ?_), fun _ => ⟨rfl, rfl, rfl⟩⟩
    exact hraises hbit rfl (by omega)
  · change _ = _ + 0 + 0 at hlen
    obtain ⟨k, w, hstep, hfit⟩ := extBlock_whole (put := recordUpd)
      (r := { r with hdr := fixedV24 _ (extStartRegs .v4 rev flags size) }) hupd rfl hUpd (by omega) hms
    rw [hbUpd] at hstep
    refine ⟨k, w, 0, eng_bind_error (eng_bind_step hstep (eng_bind_error ?_)), fun h => ?_⟩
    · exact hraises hbit rfl (by omega)
    · obtain ⟨hk, rfl⟩ := hfit (by omega)
      exact ⟨hk, by rw [← Nat.add_assoc]; rfl, rfl⟩
  · obtain ⟨k, w, hstep, hfit⟩ := extBlock_whole (put := recordUpd)
      (r := { r with hdr := fixedV24 _ (extStartRegs .v4 rev flags size) }) hupd rfl hUpd (by omega) hms
    obtain ⟨k', w', hstep', hfit'⟩ := extBlock_whole (put := recordCrc)
      (r := { r with draws := k, hdr := recordUpd (statOf upd) w (fixedV24 _ (extStartRegs .v4 rev flags size)) })
      hcrc rfl hCrc (by omega) hms
    rw [hbUpd] at hstep
    rw [hbCrc] at hstep'
    refine ⟨k', w, w', eng_bind_error (eng_bind_step hstep (eng_bind_step hstep' ?_)), fun h => ?_⟩
    · exact hraises hbit rfl (by omega)
    · obtain ⟨hk, rfl⟩ := hfit (by omega)
      obtain ⟨hk', rfl⟩ := hfit' (by omega)
      exact ⟨hk'.trans hk, by rw [← Nat.add_assoc]; rfl, by rw [← Nat.add_assoc, ← Nat.add_assoc]; rfl⟩

/-! ## The headers of a tag (R225, R236) -/

theorem extHeader_absent {flags : Byte} {ver : FrameVer} (h : flags.getLsbD 6 = false ∨ ver = .v2) (ms base n : Nat)
    (r : Run) : extHeader ms base n ver flags r = .ok (0, 0) r := by
  have hc : (flags.getLsbD 6 && ver != .v2) = false :=
    Bool.and_eq_false_iff.mpr (h.imp_right fun hver => by rw [hver]; rfl)
  unfold extHeader
  rw [if_neg (by rw [Config.tagExtBit, hc]; simp)]
  rfl

/-- A flagged extended header is the decoder's of its version, between FLAGGED and OK (R225). -/
theorem extHeader_flagged {flags : Byte} {ver : FrameVer} (hf : flags.getLsbD 6 = true) (hver : ver ≠ .v2)
    (ms base n : Nat) (r : Run) : extHeader ms base n ver flags r = (do
      let out ← extDecoder ms base n ver
      putHdr fun h => { h with extOk := true }
      pure out : Eng (Nat × Nat)) { r with hdr := { r.hdr with extFlagged := true } } := by
  have hc : (flags.getLsbD 6 && ver != .v2) = true := by simp [hf, hver]
  unfold extHeader
  rw [if_pos (by rw [Config.tagExtBit, hc])]
  exact eng_bind_step (putHdr_apply _ _) rfl

/-- The header group once a tag's headers have been decoded and their sizes are known, the data size not yet. -/
def decodedRegs (base : Nat) (h : TagLayout) : HeaderRegs :=
  match h.ext with
  | .absent => { plainHeader h.ver h.rev h.flags h.size with dataSize := 0, hdrEnd := 0 }
  | .v23 x => extV23Regs base h.rev h.flags h.size x
  | .v24 x => extV24Regs base h.rev h.flags h.size x

theorem tagRegs_eq (base : Nat) (h : TagLayout) : tagRegs base h = withRegion (decodedRegs base h) := by
  obtain ⟨ver, rev, flags, size, _ | x | x⟩ := h
  · simp [tagRegs, decodedRegs, withRegion, plainHeader, HeaderRegs.zero]
  · rfl
  · rfl

theorem decodedRegs_thSize (base : Nat) (h : TagLayout) :
    (decodedRegs base h).thSize = fromSynchsafe (beWord h.size) := by
  obtain ⟨ver, rev, flags, size, _ | x | x⟩ := h <;> rfl

theorem tagBytes_length {h : TagLayout} (hlen : h.size.length = 4) :
    (tagBytes h).length = 10 + (extBytes h.ext).length := by
  simp only [tagBytes, tagHeaderBytes, List.length_append, hlen, List.length_cons, List.length_nil]

/-- The bytes consumed are those of the extended header; for v2.3 the reported size may differ (R228, R234). -/
theorem decodedRegs_extConsumed {base : Nat} {h : TagLayout} (hok : TagOk base h) :
    (decodedRegs base h).extConsumed = BitVec.ofNat 32 (extBytes h.ext).length := by
  obtain ⟨ver, rev, flags, size, _ | x | x⟩ := h
  · rfl
  · obtain ⟨-, -, -, hx⟩ := hok
    have ⟨hsize, hflags, hpad, _⟩ := hx
    rcases hx.crc with ⟨-, hfour⟩ | ⟨-, hnil⟩
    · have hne : x.crc ≠ [] := List.length_pos_iff.mp (by omega)
      simp [decodedRegs, extV23Regs, hne, extBytes, extV23Bytes, hsize, hflags, hpad, hfour]
    · simp [decodedRegs, extV23Regs, hnil, extBytes, extV23Bytes, hsize, hflags, hpad]
  · rfl

/-- The extended header of a tag whose headers stand: recorded but for its two sizes, which are answered. -/
theorem extHeader_tag {ms base n : Nat} {h : TagLayout} {r : Run} (hok : TagOk base h)
    (hh : Holds r.mem base (tagBytes h)) (hn : (tagBytes h).length ≤ n) (hms : base + n ≤ ms) (h32 : ms ≤ 2 ^ 32) :
    extHeader ms base n h.ver h.flags
        { r with hdr := basicRegs (BitVec.ofNat 8 (verNum h.ver)) h.rev h.flags true (beWord h.size) } =
      .ok ((decodedRegs base h).extSize.toNat, (extBytes h.ext).length)
        { r with hdr := { decodedRegs base h with extSize := 0, extConsumed := 0 } } := by
  have hlen := tagBytes_length hok.1
  have hext : Holds r.mem (base + 10) (extBytes h.ext) := by
    have := hh.append_right
    rwa [tagHeaderBytes, List.length_append, hok.1] at this
  obtain ⟨ver, rev, flags, size, _ | x | x⟩ := h
  · exact extHeader_absent hok.2 _ _ _ _
  · obtain ⟨-, rfl, hflag, hx⟩ := hok
    refine (extHeader_flagged hflag (by simp) _ _ _ _).trans ?_
    refine eng_bind_step (extV23_whole hx rfl hext (hlen ▸ hn) hms h32) (eng_bind_step (putHdr_apply _ _) ?_)
    rw [eng_pure]
    have hsize : (decodedRegs base ⟨.v3, rev, flags, size, .v23 x⟩).extSize.toNat =
        if x.crc = [] then be x.size else 10 := by
      simp only [decodedRegs, extV23Regs]
      split
      · exact toNat_beWord_of_length_four hx.1
      · rfl
    rw [hsize]
    rfl
  · obtain ⟨-, rfl, hflag, hx, hfit⟩ := hok
    refine (extHeader_flagged hflag (by simp) _ _ _ _).trans ?_
    refine eng_bind_step (extV24_whole hx rfl hext (hlen ▸ hn) hms hfit) (eng_bind_step (putHdr_apply _ _) ?_)
    have hsize : (decodedRegs base ⟨.v4, rev, flags, size, .v24 x⟩).extSize.toNat = (extV24Bytes x).length := by
      simp only [decodedRegs, extV24Regs, BitVec.toNat_ofNat]
      omega
    rw [hsize]
    rfl

/-- A tag's headers that stand, with a tag size below the reported size of the extended header (R236). -/
theorem tagHeaderDecode_negative {ms base n : Nat} {h : TagLayout} {r : Run} (hok : TagOk base h)
    (hh : Holds r.mem base (tagBytes h)) (hn : (tagBytes h).length ≤ n) (hms : base + n ≤ ms) (h32 : ms ≤ 2 ^ 32)
    (hneg : (decodedRegs base h).thSize.toNat < (decodedRegs base h).extSize.toNat) :
    tagHeaderDecode ms base n r = .error .raised
      (raisedRun .corruptHeader .dataSizeNeg 10 { r with hdr := decodedRegs base h }) := by
  have hlen := tagBytes_length hok.1
  rw [tagHeaderDecode_basic hok.1 hh.append_left (by omega) hms]
  refine eng_bind_step (extHeader_tag hok hh hn hms h32) ?_
  rw [decodedRegs_thSize] at hneg
  rw [dataSizeStage_negative hneg, BitVec.ofNat_toNat, BitVec.setWidth_eq]
  simp only [← decodedRegs_extConsumed hok]

/-- A tag's headers that stand decode to what they carry (R221 to R236). -/
theorem tagHeaderDecode_tag {ms base n : Nat} {h : TagLayout} {r : Run} (hok : TagOk base h)
    (hh : Holds r.mem base (tagBytes h)) (hn : (tagBytes h).length ≤ n) (hms : base + n ≤ ms) (h32 : ms ≤ 2 ^ 32)
    (hsize : (decodedRegs base h).extSize.toNat ≤ (decodedRegs base h).thSize.toNat) :
    tagHeaderDecode ms base n r = .ok ⟨h.ver, h.flags, (tagBytes h).length,
        (decodedRegs base h).thSize.toNat - (decodedRegs base h).extSize.toNat⟩
      { r with hdr := tagRegs base h } := by
  have hlen := tagBytes_length hok.1
  rw [tagHeaderDecode_basic hok.1 hh.append_left (by omega) hms]
  refine eng_bind_step (extHeader_tag hok hh hn hms h32) ?_
  have hth := decodedRegs_thSize base h
  rw [hth] at hsize
  rw [dataSizeStage_known hsize hth, BitVec.ofNat_toNat, BitVec.setWidth_eq, tagRegs_eq, hth, hlen]
  simp only [← decodedRegs_extConsumed hok]

/-! ## The two commands that decode a tag header (R220, R320) -/

theorem memSize_le (s : State) : memSize s ≤ 2 ^ 32 := s.memLast.isLt

/-- PARSE after it has decoded the header as `t` (R321 to R324). -/
def parseAfterHeader (s : State) (t : TagHeader) : Eng Unit :=
  if t.start + t.ds > s.opr.srcLen.toNat then raise .truncated .shortRegion s.opr.srcLen.toNat
  else do
    let xs ← readBytes (memSize s) (s.opr.srcBase.toNat + t.start) t.ds
    let y := regionOf t.flags xs
    putRes1 y.length
    if y.length > s.opr.dstCap.toNat then raise .capacity .dstFull 0
    else do
      writeBytes (memSize s) s.opr.dstBase.toNat y
      parseLoop Config.inflate (memSize s) s.opr t.ver y.length (y.length / 6 + 1) 0 0 0

theorem exec_thdr_ready {s : State} (h : Ready .thdr s) :
    exec .thdr s = runCommand s (tagHeaderDecode (memSize s) s.opr.srcBase.toNat s.opr.srcLen.toNat >>= fun t => do
      putRes0 t.start
      putRes1 t.ds) := h.run _

theorem exec_parse_ready {s : State} (h : Ready .parse s) :
    exec .parse s = runCommand s
      (tagHeaderDecode (memSize s) s.opr.srcBase.toNat s.opr.srcLen.toNat >>= parseAfterHeader s) := h.run _

/-- THDR and PARSE alike end with an error of the tag header (R220, R320). -/
theorem exec_of_headerRaise {i : Instr} {s : State} {r : Run} (hi : i = .thdr ∨ i = .parse) (h : Ready i s)
    (hraise : tagHeaderDecode (memSize s) s.opr.srcBase.toNat s.opr.srcLen.toNat (startRun s) = .error .raised r) :
    exec i s = .next (complete s r) := by
  rcases hi with rfl | rfl
  · rw [exec_thdr_ready h]
    exact runCommand_raised (eng_bind_error hraise)
  · rw [exec_parse_ready h]
    exact runCommand_raised (eng_bind_error hraise)

theorem exec_thdr_of_ok {s : State} {t : TagHeader} {r : Run} (h : Ready .thdr s)
    (hok : tagHeaderDecode (memSize s) s.opr.srcBase.toNat s.opr.srcLen.toNat (startRun s) = .ok t r) :
    exec .thdr s = .next (complete s { r with res := { r.res with
      res0 := BitVec.ofNat 32 t.start, res1 := BitVec.ofNat 32 t.ds } }) := by
  rw [exec_thdr_ready h]
  exact runCommand_ok (eng_bind_step hok (eng_bind_step (putRes0_apply _ _) (putRes1_apply _ _)))

/-- SRC that holds a byte lies inside memory (R86). -/
theorem Ready.src_inside {i : Instr} {s : State} (h : Ready i s) (hi : .src ∈ rangesUsed i)
    (hpos : 0 < s.opr.srcLen.toNat) : s.opr.srcBase.toNat + s.opr.srcLen.toNat ≤ memSize s :=
  (h.src hi).resolve_left hpos.ne'

/-! ## THDR of a tag (R225 to R236) -/

/-- THDR of a tag whose headers stand. -/
theorem exec_thdr_tag {s : State} {h : TagLayout} (hready : Ready .thdr s) (hok : TagOk s.opr.srcBase.toNat h)
    (hsrc : SrcStarts s (tagBytes h)) :
    exec .thdr s = .next (afterExtHeader s (decodedRegs s.opr.srcBase.toNat h)) := by
  obtain ⟨hn, hh⟩ := hsrc
  have hlen := tagBytes_length hok.1
  have hms := hready.src_inside (by decide) (by omega)
  unfold afterExtHeader
  split
  · rename_i hneg
    exact exec_of_headerRaise (.inl rfl) hready (tagHeaderDecode_negative hok hh hn hms (memSize_le s) hneg)
  · rename_i hge
    rw [exec_thdr_of_ok hready (tagHeaderDecode_tag hok hh hn hms (memSize_le s) (Nat.le_of_not_lt hge)), tagRegs_eq]
    have hres0 : BitVec.ofNat 32 (tagBytes h).length = 10 + (decodedRegs s.opr.srcBase.toNat h).extConsumed := by
      rw [hlen, decodedRegs_extConsumed hok, BitVec.ofNat_add]
      rfl
    have hres1 : BitVec.ofNat 32 ((decodedRegs s.opr.srcBase.toNat h).thSize.toNat
        - (decodedRegs s.opr.srcBase.toNat h).extSize.toNat) =
          (decodedRegs s.opr.srcBase.toNat h).thSize - (decodedRegs s.opr.srcBase.toNat h).extSize := by
      bv_omega
    rw [hres0, hres1]
    rfl

/-- Settles O33: a tag with no extended header reports the size 0 for it, and its data size cannot be negative. -/
theorem thdrBasicHeader : Obligations.ThdrBasicHeader := by
  intro s ver rev flags size hready hlen hsrc hflag
  have hbytes : tagBytes ⟨ver, rev, flags, size, .absent⟩ = tagHeaderBytes ver rev flags size := List.append_nil _
  rw [exec_thdr_tag (h := ⟨ver, rev, flags, size, .absent⟩) hready ⟨hlen, hflag⟩ (hbytes ▸ hsrc)]
  unfold afterExtHeader
  rw [if_neg (by exact Nat.not_lt_zero _), ← tagRegs_eq]
  simp [decodedRegs, plainHeader, HeaderRegs.zero, tagRegs]

/-- Settles O34, as a tag with a v2.3 extended header. -/
theorem thdrExtendedHeaderV23 : Obligations.ThdrExtendedHeaderV23 := fun _ rev flags size x hready hlen hflag hx hsrc =>
  exec_thdr_tag (h := ⟨.v3, rev, flags, size, .v23 x⟩) hready ⟨hlen, rfl, hflag, hx⟩ hsrc

/-- Settles O35, as a tag with a v2.4 extended header; it ends in SRC, and so below 2^32. -/
theorem thdrExtendedHeaderV24 : Obligations.ThdrExtendedHeaderV24 := by
  intro s rev flags size x hready hlen hflag hx hend hsrc
  have hfit := hsrc.1
  simp only [List.length_append, tagHeaderBytes, hlen, List.length_cons, List.length_nil] at hfit
  exact exec_thdr_tag (h := ⟨.v4, rev, flags, size, .v24 x⟩) hready ⟨hlen, rfl, hflag, hx, by omega⟩ hsrc

/-! ## Errors of the tag header (R237) -/

/-- A version byte other than 2, 3 and 4 (R222). -/
theorem tagHeaderDecode_badVersion {ms base n : Nat} {ver rev flags : Byte} {size : Bytes} {r : Run}
    (hlen : size.length = 4) (hh : Holds r.mem base ([0x49, 0x44, 0x33, ver, rev, flags] ++ size))
    (hver : verOfByte ver = none) (hn : 10 ≤ n) (hms : base + n ≤ ms) :
    tagHeaderDecode ms base n r = .error .raised (raisedRun .invalidVersion .version 3
      { r with hdr := { HeaderRegs.zero with ver := ver, rev := rev, flags := flags } }) := by
  rw [tagHeaderDecode_marked hlen hh hn hms, hver]
  rfl

/-- Settles O32: the three checks of the basic header, in their order. -/
theorem basicHeaderErrors : Obligations.BasicHeaderErrors := by
  intro i s hi hready
  have huse : RangeName.src ∈ rangesUsed i := by rcases hi with rfl | rfl <;> decide
  refine ⟨fun hbad => ?_, fun hmark hlt => ?_, fun ver rev flags size hlen hsrc h2 h3 h4 => ?_⟩
  · by_cases hn : s.opr.srcLen.toNat < 3
    · exact exec_of_headerRaise hi hready (tagHeaderDecode_short hn)
    · obtain ⟨m, hm3, ⟨-, hh⟩, hm⟩ := hbad.resolve_left hn
      exact exec_of_headerRaise hi hready
        (tagHeaderDecode_badMarker hh hm3 hm (by omega) (hready.src_inside huse (by omega)))
  · obtain ⟨h3, hh⟩ := hmark
    simp only [List.length_cons, List.length_nil] at h3
    rw [exec_of_headerRaise hi hready
      (tagHeaderDecode_shortHeader hh (by omega) hlt (hready.src_inside huse (by omega)))]
    simp only [raisedRun, BitVec.ofNat_toNat, BitVec.setWidth_eq]
    rfl
  · obtain ⟨hn, hh⟩ := hsrc
    simp only [List.length_append, List.length_cons, List.length_nil, hlen] at hn
    exact exec_of_headerRaise hi hready
      (tagHeaderDecode_badVersion hlen hh (verOfByte_none h2 h3 h4) (by omega) (hready.src_inside huse (by omega)))

/-- An error of the extended header ends the decode of the tag header (R225, R237). -/
theorem tagHeaderDecode_extRaise {ms base n : Nat} {ver : FrameVer} {rev flags : Byte} {size : Bytes} {r r' : Run}
    (hlen : size.length = 4) (hh : Holds r.mem base (tagHeaderBytes ver rev flags size)) (hn : 10 ≤ n)
    (hms : base + n ≤ ms) (hflag : flags.getLsbD 6 = true) (hver : ver ≠ .v2)
    (hraise : extDecoder ms base n ver { r with hdr := extStartRegs ver rev flags size } = .error .raised r') :
    tagHeaderDecode ms base n r = .error .raised r' := by
  rw [tagHeaderDecode_basic hlen hh hn hms]
  exact eng_bind_error ((extHeader_flagged hflag hver _ _ _ _).trans (eng_bind_error hraise))

/-- Settles O37: the blocks before the long one are recorded, and since its length byte lies in SRC, their addresses
fit their registers. -/
theorem longBlockIsCorruptHeader : Obligations.LongBlockIsCorruptHeader := by
  intro s rev flags l size x hready hlen hflag hx hl ⟨hn, hh⟩
  have htag : (tagHeaderBytes .v4 rev flags size).length = 10 := by simp [tagHeaderBytes, hlen]
  simp only [List.length_append, htag, List.length_singleton] at hn
  have hms := hready.src_inside (by decide) (by omega)
  have h32 := memSize_le s
  have hext := hh.append_left.append_right
  have hbyte := hh.append_right
  rw [htag] at hext
  rw [List.length_append, htag] at hbyte
  obtain ⟨k, wUpd, wCrc, hraise, hfit⟩ := extV24_blockRaises (ms := memSize s) (n := s.opr.srcLen.toNat)
    (r := { startRun s with hdr := extStartRegs .v4 rev flags size }) hx rfl hext (by omega) hms
    fun put r' hmem => extBlock_long hl (hmem ▸ hbyte) (by omega) hms
  obtain ⟨rfl, rfl, rfl⟩ := hfit (by omega)
  exact exec_of_headerRaise (.inl rfl) hready
    (tagHeaderDecode_extRaise hlen hh.append_left.append_left (by omega) hms hflag (by simp) hraise)

/-! ### Extended headers cut by the end of SRC -/

/-- A v2.3 extended header that SRC ends in. -/
theorem extV23_truncated {ms base n : Nat} {rev flags : Byte} {size : Bytes} {x : ExtV23Layout} {r : Run}
    (hx : ExtV23Ok x) (hr : r.hdr = extStartRegs .v3 rev flags size)
    (hh : Holds r.mem (base + 10) ((extV23Bytes x).take (n - 10))) (hn : n < 10 + (extV23Bytes x).length)
    (hms : base + n ≤ ms) :
    extV23 ms base n r = .error .raised
      (raisedRun .truncated .shortExt n { r with hdr := cutV23Regs rev flags size x n }) := by
  have ⟨hsize, hflags, hpad, _⟩ := hx
  have hfixed : (x.size ++ x.flags ++ x.pad).length = 10 := by simp only [List.length_append, hsize, hflags, hpad]
  unfold cutV23Regs
  by_cases hcut : n < 20
  · rw [extV23_cut hcut, if_pos hcut, ← hr]
  · rw [extV23Bytes, List.length_append, hfixed] at hn
    rw [extV23_fixed hx (Holds.of_take hh (by omega)) (by omega) hms, crcStageV23_cut hx (by omega) (by omega),
      if_neg hcut, hr]
    rfl

/-- A v2.4 extended header that SRC ends in, in the first block that is not there whole: `x'` is what stands before
that block and `c` the block's payload. -/
theorem extV24_cutBlock {ms base n : Nat} {rev flags : Byte} {size : Bytes} {x x' : ExtV24Layout} {c rest : Bytes}
    {r : Run} (hx' : ExtV24Upto x') (hr : r.hdr = extStartRegs .v4 rev flags size) (hc : c.length ≤ 128)
    (hsplit : extV24Bytes x = extV24Bytes x' ++ (blockBytes c ++ rest))
    (hh : Holds r.mem (base + 10) ((extV24Bytes x).take (n - 10))) (hn : 10 + (extV24Bytes x').length ≤ n)
    (hcut : n < 10 + (extV24Bytes x').length + (blockBytes c).length) (hms : base + n ≤ ms) :
    ∃ k wUpd wCrc, extV24 ms base n r = .error .raised (raisedRun .truncated .shortExt n { r with draws := k, hdr :=
        { runningV24 base rev flags size x' with updAddr := wUpd, crcAddr := wCrc } })
      ∧ (base + n < 2 ^ 32 → k = r.draws ∧ wUpd = (runningV24 base rev flags size x').updAddr
        ∧ wCrc = (runningV24 base rev flags size x').crcAddr) := by
  rw [hsplit, List.take_append, List.take_of_length_le (by omega), List.take_append_of_le_length (by omega)] at hh
  have hblock := hh.append_right
  rw [Nat.sub_sub, Nat.add_assoc] at hblock
  obtain ⟨k, wUpd, wCrc, hraise, hfit⟩ := extV24_blockRaises hx' hr hh.append_left hn hms
    fun put r' hmem => extBlock_cut hc (hmem ▸ hblock) hcut hms
  exact ⟨k, wUpd, wCrc, hraise, fun h => hfit (by omega)⟩

/-! The header group of `cutV24Regs`, by where SRC ends. -/

section

variable {base n : Nat} {rev flags : Byte} {size : Bytes} {x : ExtV24Layout}

theorem cutV24Regs_size (h : n < 15) : cutV24Regs base rev flags size x n = extStartRegs .v4 rev flags size := by
  have h0 := Nat.lt_add_right x.flags.length h
  have h1 := Nat.lt_add_right (optBlockBytes x.upd).length h0
  simp only [cutV24Regs, if_pos h, if_pos h0, if_pos h1, if_pos (Nat.lt_add_right _ h1)]
  rfl

theorem cutV24Regs_flags (h15 : ¬n < 15) (h : n < 15 + x.flags.length) :
    cutV24Regs base rev flags size x n = { extStartRegs .v4 rev flags size with
      extField := fromSynchsafe (beWord x.size), nfb := BitVec.ofNat 8 x.flags.length } := by
  have h1 := Nat.lt_add_right (optBlockBytes x.upd).length h
  simp only [cutV24Regs, if_neg h15, if_pos h, if_pos h1, if_pos (Nat.lt_add_right _ h1)]
  rfl

theorem cutV24Regs_upd (hflags : ¬n < 15 + x.flags.length)
    (h : n < 15 + x.flags.length + (optBlockBytes x.upd).length) :
    cutV24Regs base rev flags size x n =
      runningV24 base rev flags size { x with upd := none, crc := none, rstr := none } := by
  simp only [cutV24Regs, if_neg (show ¬n < 15 by omega), if_neg hflags, if_pos h,
    if_pos (Nat.lt_add_right _ h)]
  rfl

theorem cutV24Regs_crc (hupd : ¬n < 15 + x.flags.length + (optBlockBytes x.upd).length)
    (h : n < 15 + x.flags.length + (optBlockBytes x.upd).length + (optBlockBytes x.crc).length) :
    cutV24Regs base rev flags size x n = runningV24 base rev flags size { x with crc := none, rstr := none } := by
  simp only [cutV24Regs, if_neg (show ¬n < 15 by omega), if_neg (show ¬n < 15 + x.flags.length by omega),
    if_neg hupd, if_pos h, ← Nat.add_assoc]
  rfl

theorem cutV24Regs_rstr
    (hcrc : ¬n < 15 + x.flags.length + (optBlockBytes x.upd).length + (optBlockBytes x.crc).length) :
    cutV24Regs base rev flags size x n = runningV24 base rev flags size { x with rstr := none } := by
  simp only [cutV24Regs, if_neg (show ¬n < 15 by omega), if_neg (show ¬n < 15 + x.flags.length by omega),
    if_neg (show ¬n < 15 + x.flags.length + (optBlockBytes x.upd).length by omega), if_neg hcrc, ← Nat.add_assoc]
  rfl

end

/-- A block that takes room is there, with its payload. -/
theorem exists_of_lt_optBlockBytes {b : Option Bytes} {p n : Nat} (hp : ¬n < p)
    (h : n < p + (optBlockBytes b).length) : ∃ c, b = some c := by
  cases b with
  | none => exact absurd h hp
  | some c => exact ⟨c, rfl⟩

/-- A v2.4 extended header that SRC ends in. -/
theorem extV24_truncated {ms base n : Nat} {rev flags : Byte} {size : Bytes} {x : ExtV24Layout} {r : Run}
    (hx : ExtV24Ok x) (hr : r.hdr = extStartRegs .v4 rev flags size)
    (hh : Holds r.mem (base + 10) ((extV24Bytes x).take (n - 10))) (hn : n < 10 + (extV24Bytes x).length)
    (hms : base + n ≤ ms) :
    ∃ k wUpd wCrc, extV24 ms base n r = .error .raised (raisedRun .truncated .shortExt n { r with draws := k, hdr :=
        { cutV24Regs base rev flags size x n with updAddr := wUpd, crcAddr := wCrc } })
      ∧ (base + n < 2 ^ 32 → k = r.draws ∧ wUpd = (cutV24Regs base rev flags size x n).updAddr
        ∧ wCrc = (cutV24Regs base rev flags size x n).crcAddr) := by
  obtain ⟨hsize, hflags, hbUpd, hbCrc, hbRstr, hupd, hcrc, hrstr⟩ := hx
  obtain ⟨xsize, xflags, upd, crc, rstr⟩ := x
  have hlen : ∀ upd crc rstr, (extV24Bytes ⟨xsize, xflags, upd, crc, rstr⟩).length = 5 + xflags.length
      + (optBlockBytes upd).length + (optBlockBytes crc).length + (optBlockBytes rstr).length :=
    fun _ _ _ => extV24Bytes_length hsize
  have hnone : (optBlockBytes none).length = 0 := rfl
  dsimp only at hsize hflags hbUpd hbCrc hbRstr hupd hcrc hrstr
  by_cases h15 : n < 15
  · rw [cutV24Regs_size h15]
    refine ⟨r.draws, 0, 0, (extV24_cutSize h15 r).trans ?_, fun _ => ⟨rfl, rfl, rfl⟩⟩
    obtain ⟨mem, draws, res, err, stop, hdr⟩ := r
    subst hr
    rfl
  by_cases h0 : n < 15 + xflags.length
  · rw [cutV24Regs_flags h15 h0]
    refine ⟨r.draws, 0, 0, ?_, fun _ => ⟨rfl, rfl, rfl⟩⟩
    have hfixed : (xsize ++ [BitVec.ofNat 8 xflags.length]).length = 5 := by
      rw [List.length_append, hsize, List.length_singleton]
    have hp : Holds r.mem (base + 10) (xsize ++ [BitVec.ofNat 8 xflags.length]) := by
      refine Holds.of_take (n := n - 10) (q := xflags ++ optBlockBytes upd ++ optBlockBytes crc ++ optBlockBytes rstr)
        ?_ (by omega)
      simpa only [extV24Bytes, List.append_assoc] using hh
    rw [extV24_cutFlags (x := ⟨xsize, xflags, upd, crc, rstr⟩) hsize hflags hp (by omega) h0 hms, hr]
    rfl
  by_cases h1 : n < 15 + xflags.length + (optBlockBytes upd).length
  · rw [cutV24Regs_upd h0 h1]
    obtain ⟨c, rfl⟩ := exists_of_lt_optBlockBytes h0 h1
    refine extV24_cutBlock (c := c) (rest := optBlockBytes crc ++ optBlockBytes rstr)
      ⟨hsize, hflags, by simp, by simp, rfl, .inl ⟨hbUpd.symm, rfl, rfl⟩⟩ hr (hupd c rfl) ?_ hh ?_ ?_ hms
    · simp [extV24Bytes, optBlockBytes]
    · simp only [hlen, hnone]
      omega
    · simp only [hlen, hnone]
      simp only [optBlockBytes] at h1
      omega
  by_cases h2 : n < 15 + xflags.length + (optBlockBytes upd).length + (optBlockBytes crc).length
  · rw [cutV24Regs_crc h1 h2]
    obtain ⟨c, rfl⟩ := exists_of_lt_optBlockBytes h1 h2
    refine extV24_cutBlock (c := c) (rest := optBlockBytes rstr)
      ⟨hsize, hflags, hupd, by simp, rfl, .inr (.inl ⟨hbCrc.symm, hbUpd, rfl⟩)⟩ hr (hcrc c rfl) ?_ hh ?_ ?_ hms
    · simp [extV24Bytes, optBlockBytes]
    · simp only [hlen, hnone]
      omega
    · simp only [hlen, hnone]
      simp only [optBlockBytes] at h2 ⊢
      omega
  · rw [cutV24Regs_rstr h2]
    rw [hlen] at hn
    obtain ⟨c, rfl⟩ := exists_of_lt_optBlockBytes (n := n) (p := 15 + xflags.length + (optBlockBytes upd).length
      + (optBlockBytes crc).length) (b := rstr) h2 (by omega)
    refine extV24_cutBlock (c := c) (rest := [])
      ⟨hsize, hflags, hupd, hcrc, rfl, .inr (.inr ⟨hbRstr.symm, hbUpd, hbCrc⟩)⟩ hr (hrstr c rfl) ?_ hh ?_ ?_ hms
    · simp [extV24Bytes, optBlockBytes]
    · simp only [hlen, hnone]
      omega
    · simp only [hlen, hnone]
      simp only [optBlockBytes] at hn ⊢
      omega

/-- Settles O36: the fields before the cut have been recorded; where SRC ends below 2^32 no address of a block was a
free word. -/
theorem cutExtendedHeaderIsTruncated : Obligations.CutExtendedHeaderIsTruncated := by
  intro s rev flags size bs hready hlen hflag ⟨hbs, hh⟩ h10 res
  rw [← hbs] at h10 ⊢
  have hms := hready.src_inside (by decide) (by omega)
  have hres : res = { ResultRegs.zero with detail := .shortExt, errOff := BitVec.ofNat 32 s.opr.srcLen.toNat } := by
    rw [BitVec.ofNat_toNat, BitVec.setWidth_eq]
  have htag : ∀ ver, (tagHeaderBytes ver rev flags size).length = 10 := fun ver => by simp [tagHeaderBytes, hlen]
  -- what stands of a tag with these headers
  have hstands : ∀ ver ext, bs = (tagHeaderBytes ver rev flags size ++ ext).take s.opr.srcLen.toNat →
      Holds s.mem s.opr.srcBase.toNat (tagHeaderBytes ver rev flags size)
        ∧ Holds s.mem (s.opr.srcBase.toNat + 10) (ext.take (s.opr.srcLen.toNat - 10)) := by
    intro ver ext hcut
    rw [hcut, List.take_append, List.take_of_length_le (htag ver ▸ h10), htag] at hh
    exact ⟨hh.append_left, htag ver ▸ hh.append_right⟩
  rw [hres]
  refine ⟨fun x hx hshort hcut => ?_, fun x hx hshort hcut => ?_⟩ <;> rw [List.length_append, htag] at hshort
  · obtain ⟨hbasic, hext⟩ := hstands _ _ hcut
    exact exec_of_headerRaise (.inl rfl) hready (tagHeaderDecode_extRaise (r := startRun s) hlen hbasic h10 hms hflag
      (by simp) (extV23_truncated (r := { startRun s with hdr := _ }) hx rfl hext hshort hms))
  · obtain ⟨hbasic, hext⟩ := hstands _ _ hcut
    obtain ⟨k, wUpd, wCrc, hraise, hfit⟩ := extV24_truncated (ms := memSize s)
      (r := { startRun s with hdr := extStartRegs .v4 rev flags size }) hx rfl hext hshort hms
    refine ⟨_, exec_of_headerRaise (.inl rfl) hready
      (tagHeaderDecode_extRaise hlen hbasic h10 hms hflag (by simp) hraise), rfl, rfl, rfl, rfl, rfl, fun h => ?_⟩
    obtain ⟨rfl, rfl, rfl⟩ := hfit h
    rfl

end Sys2Proof.Machine
end

section
/-! PARSE: the region it works on, the frame loop over a list of frames that decode, and what it shares with THDR (R320
to R324). -/

namespace Sys2Proof.Machine

open Sys2Proof (Word Byte Bytes Instr)

/-! ## From the header to the frame loop (R321, R322) -/

section

variable {s : State} {t : TagHeader} {r : Run}

/-- The frame region reaches beyond SRC. -/
theorem parseAfterHeader_short (h : s.opr.srcLen.toNat < t.start + t.ds) :
    parseAfterHeader s t r = .error .raised (raisedRun .truncated .shortRegion s.opr.srcLen.toNat r) := by
  unfold parseAfterHeader
  rw [if_pos h, raise_eq]

/-- The frame region is read, and `rest` follows with its length in RES1. -/
theorem parseAfterHeader_region {xs : Bytes} (hready : Ready .parse s)
    (hh : Holds r.mem (s.opr.srcBase.toNat + t.start) xs) (hds : xs.length = t.ds) (hpos : 0 < t.start)
    (hin : t.start + xs.length ≤ s.opr.srcLen.toNat) :
    parseAfterHeader s t r = (if (regionOf t.flags xs).length > s.opr.dstCap.toNat then raise .capacity .dstFull 0
      else do
        writeBytes (memSize s) s.opr.dstBase.toNat (regionOf t.flags xs)
        parseLoop Config.inflate (memSize s) s.opr t.ver (regionOf t.flags xs).length
          ((regionOf t.flags xs).length / 6 + 1) 0 0 0 : Eng Unit)
      { r with res := { r.res with res1 := BitVec.ofNat 32 (regionOf t.flags xs).length } } := by
  have hms := hready.src_inside (by decide) (by omega)
  unfold parseAfterHeader
  rw [if_neg (by omega)]
  exact eng_bind_step (readBytes_held hh hds (by omega)) (eng_bind_step (putRes1_apply _ _) rfl)

/-- The region does not fit DST. -/
theorem parseAfterHeader_full {xs : Bytes} (hready : Ready .parse s)
    (hh : Holds r.mem (s.opr.srcBase.toNat + t.start) xs) (hds : xs.length = t.ds) (hpos : 0 < t.start)
    (hin : t.start + xs.length ≤ s.opr.srcLen.toNat) (hfull : s.opr.dstCap.toNat < (regionOf t.flags xs).length) :
    parseAfterHeader s t r = .error .raised (raisedRun .capacity .dstFull 0
      { r with res := { r.res with res1 := BitVec.ofNat 32 (regionOf t.flags xs).length } }) := by
  rw [parseAfterHeader_region hready hh hds hpos hin, if_pos hfull, raise_eq]

/-- The region fits DST: it is written there and the frame loop begins. -/
theorem parseAfterHeader_enters {xs : Bytes} (hready : Ready .parse s)
    (hh : Holds r.mem (s.opr.srcBase.toNat + t.start) xs) (hds : xs.length = t.ds) (hpos : 0 < t.start)
    (hin : t.start + xs.length ≤ s.opr.srcLen.toNat) (hfits : (regionOf t.flags xs).length ≤ s.opr.dstCap.toNat) :
    parseAfterHeader s t r = parseLoop Config.inflate (memSize s) s.opr t.ver (regionOf t.flags xs).length
      ((regionOf t.flags xs).length / 6 + 1) 0 0 0
      { r with
        res := { r.res with res1 := BitVec.ofNat 32 (regionOf t.flags xs).length }
        mem := memSetRange r.mem s.opr.dstBase.toNat (regionOf t.flags xs) } := by
  have hdst := hready.dst (by decide)
  rw [parseAfterHeader_region hready hh hds hpos hin, if_neg (Nat.not_lt.mpr hfits)]
  exact eng_bind_step (writeBytes_apply (by omega)) rfl

end

/-! ## What the frame loop leaves alone -/

/-- A write that takes no room or goes elsewhere leaves a run of bytes, empty or not. -/
theorem Holds.apart {m : Memory} {a c : Nat} {bs ws : Bytes} (h : Holds m a bs)
    (hd : bs.length = 0 ∨ ws.length = 0 ∨ a + bs.length ≤ c ∨ c + ws.length ≤ a) :
    Holds (memSetRange m c ws) a bs := by
  rcases hd with hbs | hws | hd
  · rw [List.length_eq_zero_iff.mp hbs]
    rfl
  · rw [List.length_eq_zero_iff.mp hws]
    exact h
  · exact h.after hd

/-- A descriptor leaves the bytes of DST. -/
theorem Holds.after_descriptor {s : State} {m : Memory} {q k : Nat} {bs desc : Bytes} (hready : Ready .parse s)
    (h : Holds m (s.opr.dstBase.toNat + q) bs) (hq : q + bs.length ≤ s.opr.dstCap.toNat)
    (hk : k < s.opr.descCap.toNat) (hdesc : desc.length = 64) :
    Holds (memSetRange m (s.opr.descBase.toNat + 64 * k) desc) (s.opr.dstBase.toNat + q) bs := by
  have hd := hready.disjoint (x := .dst) (y := .desc) (by decide) (by decide) (by decide)
  simp only [spanOf_dst, spanOf_desc] at hd
  exact h.apart (by omega)

/-- An inflated payload leaves the bytes of DST. -/
theorem Holds.after_payload {s : State} {m : Memory} {q used : Nat} {bs d : Bytes} (hready : Ready .parse s)
    (h : Holds m (s.opr.dstBase.toNat + q) bs) (hq : q + bs.length ≤ s.opr.dstCap.toNat)
    (hu : used + d.length ≤ s.opr.payCap.toNat) :
    Holds (memSetRange m (s.opr.payBase.toNat + used) d) (s.opr.dstBase.toNat + q) bs := by
  have hd := hready.disjoint (x := .dst) (y := .pay) (by decide) (by decide) (by decide)
  simp only [spanOf_dst, spanOf_pay] at hd
  exact h.apart (by omega)

/-! ## The frame loop over frames that decode (R323) -/

theorem frameDesc_length {ver : FrameVer} {f : RegionFrame} (hf : FrameOk ver f) (dst pay p : Nat) :
    (frameDesc dst pay p f).length = 64 := by
  obtain ⟨hl, -, -, -, -, -, cls, hcls⟩ := hf
  have hclass : frameClass f = cls := by simp only [frameClass, hcls]
  exact descBytes_length (layoutHeader_ident_length hl) (hclass ▸ classify_lang hcls) _ _ _

theorem frameBytes_ge {ver : FrameVer} {f : RegionFrame} (hf : FrameOk ver f) : 6 ≤ (frameBytes f).length := by
  have := layoutBytes_ge hf.1
  rw [frameBytes, List.length_append]
  omega

/-- Every frame takes six bytes of a region at least, which bounds the rounds of the loop (R325). -/
theorem regionBytes_ge {ver : FrameVer} {fs : List RegionFrame} (h : ∀ f ∈ fs, FrameOk ver f) :
    6 * fs.length ≤ (regionBytes fs).length := by
  induction fs with
  | nil => exact Nat.le_refl 0
  | cons f fs ih =>
    have hf := frameBytes_ge (h f List.mem_cons_self)
    have := ih fun g hg => h g (List.mem_cons_of_mem f hg)
    rw [regionBytes_cons, List.length_append, List.length_cons]
    omega

theorem storeFrames_cons (o : OperandRegs) (p k used : Nat) (f : RegionFrame) (fs : List RegionFrame) (m : Memory) :
    storeFrames o p k used (f :: fs) m = storeFrames o (p + (frameBytes f).length) (k + 1) (used + (paid f).length) fs
      (storeFrames o p k used [f] m) := rfl

theorem storeFrames_one (o : OperandRegs) (p k used : Nat) (f : RegionFrame) (m : Memory) :
    storeFrames o p k used [f] m = memSetRange (memSetRange m (o.payBase.toNat + used) (paid f))
      (o.descBase.toNat + 64 * k) (frameDesc o.dstBase.toNat (o.payBase.toNat + used) p f) := by
  simp only [storeFrames]

/-- Storing a frame leaves the bytes of DST. -/
theorem Holds.after_frame {s : State} {ver : FrameVer} {f : RegionFrame} {m : Memory} {p k used q : Nat} {bs : Bytes}
    (hready : Ready .parse s) (hf : FrameOk ver f) (hk : k < s.opr.descCap.toNat)
    (hu : used + (paid f).length ≤ s.opr.payCap.toNat) (h : Holds m (s.opr.dstBase.toNat + q) bs)
    (hq : q + bs.length ≤ s.opr.dstCap.toNat) :
    Holds (storeFrames s.opr p k used [f] m) (s.opr.dstBase.toNat + q) bs := by
  rw [storeFrames_one]
  exact (h.after_payload hready hq hu).after_descriptor hready hq hk (frameDesc_length hf _ _ _)

/-- A round begins with writing RES0, RES2 and RES3, so what they held does not matter. -/
theorem parseLoop_progress (inflate : InflateFn) (ms : Nat) (o : OperandRegs) (ver : FrameVer)
    (len rounds p k used : Nat) (res0 res2 res3 : Word) (r : Run) :
    parseLoop inflate ms o ver len (rounds + 1) p k used
        { r with res := { r.res with res0 := res0, res2 := res2, res3 := res3 } } =
      parseLoop inflate ms o ver len (rounds + 1) p k used r := rfl

/-- What decoding a frame of a region at address `a` gets. -/
def gotFrame (a : Nat) (f : RegionFrame) : Frame :=
  ⟨layoutHeader f.layout, frameClass f, f.data, packed f, a + (layoutBytes f.layout).length, (frameBytes f).length⟩

theorem inflatedBytes_gotFrame (a : Nat) (f : RegionFrame) : inflatedBytes (gotFrame a f) = paid f := rfl

theorem payloadUsed_gotFrame (a : Nat) (f : RegionFrame) : payloadUsed (gotFrame a f) = (paid f).length :=
  (length_inflatedBytes (gotFrame a f)).symm

/-- Two lines of pseudocode taken as one, then what follows them. -/
theorem eng_seq_step {α : Type} {m m' : Eng Unit} {f : Unit → Eng α} {r r' : Run} {out : EStateM.Result Ending Run α}
    (h : (do m; m' : Eng Unit) r = .ok () r') (hf : f () r' = out) : (m >>= fun _ => m' >>= f) r = out := by
  rw [← bind_assoc]
  exact eng_bind_step h hf

/-- Storing a frame: its inflated payload, then its descriptor. -/
theorem store_gotFrame {s : State} {ver : FrameVer} {f : RegionFrame} {p k used : Nat} (hready : Ready .parse s)
    (hf : FrameOk ver f) (hk : k < s.opr.descCap.toNat) (hu : used + (paid f).length ≤ s.opr.payCap.toNat) (r : Run) :
    (do
      storePayload (memSize s) (s.opr.payBase.toNat + used) (gotFrame (s.opr.dstBase.toNat + p) f)
      writeDesc (memSize s) (s.opr.descBase.toNat + Config.descSize * k) (layoutHeader f.layout) (frameClass f) p
        (payloadAddr (s.opr.payBase.toNat + used) (gotFrame (s.opr.dstBase.toNat + p) f)) f.data.length : Eng Unit) r =
      .ok () { r with mem := storeFrames s.opr p k used [f] r.mem } := by
  have hdesc := hready.desc (by decide)
  have hpay := hready.pay (by decide)
  have hstore : (paid f).length = 0 ∨ s.opr.payBase.toNat + used + (paid f).length ≤ memSize s := by omega
  have hdescriptor : (frameDesc s.opr.dstBase.toNat (s.opr.payBase.toNat + used) p f).length = 0
      ∨ s.opr.descBase.toNat + 64 * k
        + (frameDesc s.opr.dstBase.toNat (s.opr.payBase.toNat + used) p f).length ≤ memSize s := by
    rw [frameDesc_length hf]
    omega
  refine eng_bind_step (storePayload_inflatedBytes hstore) ?_
  rw [storeFrames_one, Config.descSize]
  exact writeBytes_apply hdescriptor

/-- A round over a frame that decodes and fits: the frame is stored and the next round begins behind it. -/
theorem parseLoop_frame {s : State} {ver : FrameVer} {f : RegionFrame} {len rounds p k used : Nat} {r : Run}
    (hready : Ready .parse s) (hf : FrameOk ver f) (hh : Holds r.mem (s.opr.dstBase.toNat + p) (frameBytes f))
    (hp : p + (frameBytes f).length ≤ len) (hlen : len ≤ s.opr.dstCap.toNat) (hk : k < s.opr.descCap.toNat)
    (hu : used + (paid f).length ≤ s.opr.payCap.toNat) :
    parseLoop Config.inflate (memSize s) s.opr ver len (rounds + 2) p k used r =
      parseLoop Config.inflate (memSize s) s.opr ver len (rounds + 1) (p + (frameBytes f).length) (k + 1)
        (used + (paid f).length) { r with mem := storeFrames s.opr p k used [f] r.mem } := by
  have hdst := hready.dst (by decide)
  have hroom : ¬(packed f = true ∧ used + f.data.length > s.opr.payCap.toNat) := by
    rintro ⟨hpk, hgt⟩
    simp only [paid, if_pos hpk] at hu
    omega
  rw [parseLoop]
  refine eng_bind_step (putProgress_apply _ _ _ _)
    (eng_bind_step (frameDecode_frameOk hf hh (by omega) (by omega)) ?_)
  simp only [if_neg (Nat.not_le.mpr hk), if_neg hroom]
  have hstored := store_gotFrame hready hf hk hu (p := p)
    { r with res := { r.res with
      res0 := BitVec.ofNat 32 k, res2 := BitVec.ofNat 32 p, res3 := BitVec.ofNat 32 used } }
  dsimp only at hstored
  rw [← payloadUsed_gotFrame (s.opr.dstBase.toNat + p) f]
  generalize storeFrames s.opr p k used [f] r.mem = m at hstored ⊢
  refine eng_seq_step hstored ?_
  exact parseLoop_progress (r := { r with mem := m }) ..

/-- The rounds over a list of frames that decode and fit: each frame is stored, and a round begins behind the last. -/
theorem parseLoop_frames {s : State} {ver : FrameVer} {len rounds : Nat} {fs : List RegionFrame} {tail : Bytes}
    {p k used : Nat} {r : Run} (hready : Ready .parse s) (hfs : ∀ f ∈ fs, FrameOk ver f)
    (hh : Holds r.mem (s.opr.dstBase.toNat + p) (regionBytes fs ++ tail))
    (hp : p + (regionBytes fs ++ tail).length = len) (hlen : len ≤ s.opr.dstCap.toNat)
    (hk : k + fs.length ≤ s.opr.descCap.toNat) (hu : used + payUsed fs ≤ s.opr.payCap.toNat) :
    parseLoop Config.inflate (memSize s) s.opr ver len (fs.length + (rounds + 1)) p k used r =
        parseLoop Config.inflate (memSize s) s.opr ver len (rounds + 1) (p + (regionBytes fs).length) (k + fs.length)
          (used + payUsed fs) { r with mem := storeFrames s.opr p k used fs r.mem }
      ∧ Holds (storeFrames s.opr p k used fs r.mem) (s.opr.dstBase.toNat + (p + (regionBytes fs).length)) tail := by
  induction fs generalizing p k used r with
  | nil => exact ⟨by rw [List.length_nil, Nat.zero_add]; rfl, hh⟩
  | cons f fs ih =>
    rw [regionBytes_cons, List.append_assoc] at hh hp
    rw [List.length_append] at hp
    rw [List.length_cons] at hk
    rw [payUsed_cons] at hu
    have hf := hfs f List.mem_cons_self
    have hround := parseLoop_frame (rounds := fs.length + rounds) (k := k) (used := used) hready hf hh.append_left
      (by omega) hlen (by omega) (by omega)
    have hrest := hh.append_right
    rw [Nat.add_assoc] at hrest
    have hrest := hrest.after_frame (p := p) (k := k) (used := used) hready hf (by omega) (by omega) (by omega)
    rw [storeFrames_cons, regionBytes_cons, payUsed_cons, List.length_append, List.length_cons, ← Nat.add_assoc p,
      ← Nat.add_assoc used, show k + (fs.length + 1) = k + 1 + fs.length by omega,
      show fs.length + 1 + (rounds + 1) = fs.length + rounds + 2 by omega]
    rw [Nat.add_assoc fs.length rounds 1] at hround
    generalize storeFrames s.opr p k used [f] r.mem = m at hround hrest ⊢
    obtain ⟨hloop, htail⟩ := ih (k := k + 1) (used := used + (paid f).length) (r := { r with mem := m })
      (fun g hg => hfs g (List.mem_cons_of_mem f hg)) hrest (by omega) (by omega) (by omega)
    exact ⟨hround.trans hloop, htail⟩

/-! ## PARSE of a region that begins with frames that decode (R320 to R324) -/

/-- The run of PARSE once its frame loop has stored these frames of this region, none of them ended the loop, and the
header group is `g`. -/
def enumeratedRun (s : State) (g : HeaderRegs) (region : Bytes) (fs : List RegionFrame) : Run :=
  { startRun s with
    hdr := g, mem := parsedMem s region fs
    res := { ResultRegs.zero with res1 := BitVec.ofNat 32 region.length } }

/-- A program that behaves as another one does from another run. -/
theorem Sat.of_eq {α : Type} {m m' : Eng α} {r r' : Run} {Q : α → Run → Prop} {E : Run → Prop} (h : m r = m' r')
    (hs : Sat (· = r') m' Q E) : Sat (· = r) m Q E := by
  rintro _ rfl
  rw [h]
  exact hs r' rfl

theorem decodedRegs_sizes {s : State} {h : TagLayout} {xs : Bytes} (hin : ParseInput s h xs) :
    (decodedRegs s.opr.srcBase.toNat h).thSize.toNat =
      xs.length + (decodedRegs s.opr.srcBase.toNat h).extSize.toNat := by
  obtain ⟨-, -, hsize, -⟩ := hin
  rw [tagRegs_eq] at hsize
  rw [decodedRegs_thSize]
  exact hsize.symm

/-- PARSE stores every frame that decodes and fits, and goes on at the bytes `tail` after them: it ends in `t` where
every way on from there does. -/
theorem ParseInput.exec_parse {s t : State} {h : TagLayout} {xs tail : Bytes} {fs : List RegionFrame}
    (hin : ParseInput s h xs) (hfit : FramesFit s h.ver fs) (hregion : regionOf h.flags xs = regionBytes fs ++ tail)
    (hend : ∀ rounds run, run = enumeratedRun s (tagRegs s.opr.srcBase.toNat h) (regionOf h.flags xs) fs →
      Holds run.mem (s.opr.dstBase.toNat + (regionBytes fs).length) tail →
      Sat (· = run) (parseLoop Config.inflate (memSize s) s.opr h.ver (regionOf h.flags xs).length (rounds + 1)
        (regionBytes fs).length fs.length (payUsed fs)) (fun _ r => complete s r = t) (fun r => complete s r = t)) :
    exec .parse s = .next t := by
  have hsizes := decodedRegs_sizes hin
  obtain ⟨hready, hok, -, ⟨hlen, hsrc⟩, hcap⟩ := hin
  obtain ⟨hframes, hdesc, hpay⟩ := hfit
  have htag := tagBytes_length hok.1
  rw [List.length_append] at hlen
  have hms := hready.src_inside (by decide) (by omega)
  have hcount := regionBytes_ge hframes
  obtain ⟨rounds, hrounds⟩ : ∃ rounds, (regionOf h.flags xs).length / 6 + 1 = fs.length + (rounds + 1) := by
    refine ⟨(regionOf h.flags xs).length / 6 - fs.length, ?_⟩
    rw [hregion, List.length_append]
    omega
  refine hready.finishes rfl (Sat.step (tagHeaderDecode_tag hok hsrc.append_left (by omega) hms (memSize_le s)
    (by omega)) ?_)
  refine Sat.of_eq (m := parseAfterHeader s _) (parseAfterHeader_enters hready hsrc.append_right ?_ ?_ ?_ hcap) ?_
  · dsimp only
    omega
  · dsimp only
    omega
  · exact hlen
  rw [hrounds]
  obtain ⟨hloop, htail⟩ := parseLoop_frames (s := s) (ver := h.ver) (len := (regionOf h.flags xs).length)
    (rounds := rounds) (p := 0) (k := 0) (used := 0)
    (r := { startRun s with
      hdr := tagRegs s.opr.srcBase.toNat h
      res := { ResultRegs.zero with res1 := BitVec.ofNat 32 (regionOf h.flags xs).length }
      mem := memSetRange s.mem s.opr.dstBase.toNat (regionOf h.flags xs) })
    hready hframes (by rw [← hregion]; exact Holds.written _ _ _) (by rw [Nat.zero_add, hregion]) hcap (by omega)
    (by omega)
  simp only [Nat.zero_add] at hloop htail
  exact Sat.of_eq hloop (hend rounds _ rfl htail)

/-- The loop's last round, over bytes that end the enumeration cleanly (R323). -/
theorem parseLoop_stop {inflate : InflateFn} {ms : Nat} {o : OperandRegs} {ver : FrameVer}
    {len rounds p k used c : Nat} {reason : StopReason} {r : Run}
    (h : ∀ r', r'.mem = r.mem →
      frameDecode inflate ms (o.dstBase.toNat + p) (len - p) ver r' = .ok (.stop reason c) r') :
    parseLoop inflate ms o ver len (rounds + 1) p k used r = .ok () { r with
      stop := reason
      res := if reason = .padding then
          { r.res with
            res0 := BitVec.ofNat 32 k, res2 := BitVec.ofNat 32 (p + c), res3 := BitVec.ofNat 32 used
            errOff := BitVec.ofNat 32 p, region := true }
        else
          { r.res with
            res0 := BitVec.ofNat 32 k, res2 := BitVec.ofNat 32 (p + c), res3 := BitVec.ofNat 32 used } } := by
  rw [parseLoop]
  refine eng_bind_step (putProgress_apply _ _ _ _) (eng_bind_step (h _ rfl) ?_)
  refine eng_bind_step (notePadding_apply _ _ _) (eng_bind_step (putStop_apply _ _) ?_)
  rw [putProgress_apply]
  split <;> rfl

/-- Settles O48: the frames are stored one by one, and what follows them, nothing or padding, ends the enumeration. -/
theorem parseEnumeratesTheFrames : Obligations.ParseEnumeratesTheFrames := by
  intro s h xs tail fs reason used hin hfit hregion htail region
  obtain ⟨hready, -, -, -, hcap⟩ := id hin
  have hdst := hready.dst (by decide)
  have hlen : region.length = (regionBytes fs).length + tail.length := by
    rw [← List.length_append, ← hregion]
  refine hin.exec_parse hfit hregion fun rounds run hrun hholds => ?_
  have hstop : ∀ r', r'.mem = run.mem → frameDecode Config.inflate (memSize s)
      (s.opr.dstBase.toNat + (regionBytes fs).length) (region.length - (regionBytes fs).length) h.ver r' =
        .ok (.stop reason used) r' := by
    intro r' hmem
    rw [hlen, Nat.add_sub_cancel_left]
    rw [← hmem] at hholds
    have hms : tail.length = 0 ∨ s.opr.dstBase.toNat + (regionBytes fs).length + tail.length ≤ memSize s := by
      change region.length ≤ _ at hcap
      omega
    rcases htail with hends | ⟨hzero, rfl, rfl⟩
    · exact frameDecode_of_stop (frameHeaderDecode_ends hends hholds hms)
    · exact frameDecode_zeroResidue hzero hholds hms
  refine Sat.done (parseLoop_stop hstop) ?_
  subst hrun
  split <;> rfl

/-! ## PARSE and THDR from one state (R320 to R324) -/

/-- THDR reads the one range that PARSE reads too (R87). -/
theorem Ready.thdr_of_parse {s : State} (h : Ready .parse s) : Ready .thdr s :=
  ⟨fun x hx => h.1 x (by simp_all [rangesUsed]), fun x hx y hy hxy => absurd hxy (by simp_all [rangesUsed])⟩

theorem headerErrors_ne_noError {e : ErrCode} {d : Detail} (h : (e, d) ∈ headerErrors) : e ≠ .noError := by
  have hall : ∀ q ∈ headerErrors, q.1 ≠ .noError := by decide
  exact hall (e, d) h

/-- THDR ends in an error of the tag header, or with what `TagHeaderDecode` answers; PARSE's decode does the same. -/
theorem exec_thdr_cases {s th : State} (h : Ready .parse s) (hth : exec .thdr s = .next th) :
    (th.status.err ≠ .noError ∧ exec .parse s = .next th)
      ∨ ∃ t k g, HeaderDone s.opr.srcLen.toNat t g
        ∧ tagHeaderDecode (memSize s) s.opr.srcBase.toNat s.opr.srcLen.toNat (startRun s) =
          .ok t { startRun s with draws := k, hdr := g }
        ∧ th = complete s { startRun s with
          draws := k, hdr := g
          res := { ResultRegs.zero with res0 := BitVec.ofNat 32 t.start, res1 := BitVec.ofNat 32 t.ds } } := by
  have hdecode := HdrSat.tagHeaderDecode (h.src (by decide)) (startRun s) trivial
  rcases hrun : tagHeaderDecode (memSize s) s.opr.srcBase.toNat s.opr.srcLen.toNat (startRun s)
    with ⟨t, r⟩ | ⟨_ | _, r⟩ <;> rw [hrun] at hdecode
  · obtain ⟨k, g, rfl, hdone⟩ := hdecode
    rw [exec_thdr_of_ok h.thdr_of_parse hrun] at hth
    cases hth
    exact .inr ⟨t, k, g, hdone, rfl, rfl⟩
  · obtain ⟨k, g, e, d, off, rfl, hmem, -⟩ := hdecode
    rw [exec_of_headerRaise (.inl rfl) h.thdr_of_parse hrun] at hth
    cases hth
    exact .inl ⟨headerErrors_ne_noError hmem, exec_of_headerRaise (.inr rfl) h hrun⟩
  · exact hdecode.elim

/-- However the enumeration of a region in DST ends: the region stands, its length is in RES1, the header group is as
the decode of the tag header left it, and the only error is CAPACITY (R323, R324). -/
theorem parseLoop_keepsRegion {s : State} {ver : FrameVer} {region : Bytes} {g : HeaderRegs} {k : Nat}
    (h : Ready .parse s) (hcap : region.length ≤ s.opr.dstCap.toNat) :
    let Kept (r : Run) : Prop := r.hdr = g ∧ r.res.res1 = BitVec.ofNat 32 region.length
      ∧ Holds r.mem s.opr.dstBase.toNat region ∧ (r.err = .noError ∨ r.err = .capacity ∧ r.stop = .capacity)
    Sat (· = { startRun s with
        draws := k, hdr := g, res := { ResultRegs.zero with res1 := BitVec.ofNat 32 region.length }
        mem := memSetRange s.mem s.opr.dstBase.toNat region })
      (parseLoop Config.inflate (memSize s) s.opr ver region.length (region.length / 6 + 1) 0 0 0)
      (fun _ => Kept) Kept := by
  have hdst := h.dst (by decide)
  refine (Sat.parseLoop (M := fun _ _ m => Holds m s.opr.dstBase.toNat region) (h := g)
    (res1 := BitVec.ofNat 32 region.length) (by omega) (h.desc (by decide)) (h.pay (by decide))
    (fun k used m bs hk hbs hm => ?_) (fun k used m d hu hm => ?_) (Nat.le_refl _) (Nat.zero_le _) (Nat.zero_le _)
    (Nat.zero_le _)).mono ?_ ?_ ?_
  · exact Holds.after_descriptor (q := 0) h hm (by omega) hk hbs
  · exact Holds.after_payload (q := 0) h hm (by omega) hu
  · rintro _ rfl
    exact ⟨⟨rfl, rfl, rfl, rfl, rfl, rfl, rfl, rfl⟩, Holds.written _ _ _⟩
  · rintro - r ⟨hhdr, hres1, herr, -, -, -, -, -, -, -, hm⟩
    exact ⟨hhdr, hres1, hm, .inl herr⟩
  · rintro r ⟨hhdr, hres1, herr, hstop, -, -, -, -, -, -, -, hm⟩
    exact ⟨hhdr, hres1, hm, .inr ⟨herr, hstop⟩⟩

/-- Settles O52: both commands run `TagHeaderDecode` from the same run, and PARSE goes on from what it answers. -/
theorem parseDecodesTheHeaderAsThdr : Obligations.ParseDecodesTheHeaderAsThdr := by
  intro s th hready hth
  rcases exec_thdr_cases hready hth with ⟨herr, hparse⟩ | ⟨t, k, g, hdone, hrun, rfl⟩
  · exact ⟨fun _ => hparse, fun h => absurd h herr⟩
  obtain ⟨-, h10, -, hstart, hds, -, -, hflags⟩ := hdone
  have hres0 : (BitVec.ofNat 32 t.start).toNat = t.start := by rw [BitVec.toNat_ofNat]; omega
  have hres1 : (BitVec.ofNat 32 t.ds).toNat = t.ds := by rw [BitVec.toNat_ofNat]; omega
  refine ⟨fun h => absurd rfl h, fun _ => ⟨fun hshort => ?_, fun xs hxs hlen hin => ?_⟩⟩ <;>
    simp only [complete_res, complete_hdr, hres0, hres1, hflags] at *
  · rw [exec_parse_ready hready, runCommand_raised (eng_bind_step hrun (parseAfterHeader_short hshort))]
    simp only [raisedRun, BitVec.ofNat_toNat, BitVec.setWidth_eq]
    rfl
  split
  · rename_i hfull
    rw [exec_parse_ready hready, runCommand_raised (eng_bind_step hrun
      (parseAfterHeader_full hready hxs hlen (by omega) hin hfull))]
    rfl
  · rename_i hfits
    have hfits := Nat.le_of_not_lt hfits
    obtain ⟨r, hexec, hhdr, hres, hholds, herr⟩ := hready.completes rfl (Sat.step hrun (Sat.of_eq
      (parseAfterHeader_enters hready hxs hlen (by omega) hin hfits)
      (parseLoop_keepsRegion (ver := t.ver) (g := g) (k := k) hready hfits)))
    exact ⟨complete s r, hexec, hhdr, hres, hholds, herr⟩

end Sys2Proof.Machine
end

section
/-! FHDR and FRAME: what each command leaves by what its decoder answers (R260, R280), with the answers of the two
decoders on every kind of input, and the classification of payloads (R285 to R287). -/

namespace Sys2Proof.Machine

open Sys2Proof (Word Byte Bytes Instr)

/-! ## Classification (R285 to R287) -/

theorem classify_text {ident d : Bytes} (h : byteAt ident 0 = 0x54) (hd : 0 < d.length) :
    classify ident d = .ok ⟨.text, byteAt d 0, [0, 0, 0], 1, d.length - 1, 0, 0⟩ := by
  rw [classify, if_pos h, if_neg (by omega)]

theorem classify_comment {ident d : Bytes} (h : slice ident 0 3 = [0x43, 0x4F, 0x4D]) (hd : 4 ≤ d.length) :
    classify ident d = .ok (commentClass d) := by
  have hfirst : byteAt ident 0 = 0x43 := by
    cases ident with
    | nil => cases h
    | cons a t => exact (List.cons.inj h).1
  rw [classify, if_neg (by rw [hfirst]; decide), if_pos h, if_neg (by omega)]

theorem classify_generic {ident : Bytes} (ht : byteAt ident 0 ≠ 0x54) (hc : slice ident 0 3 ≠ [0x43, 0x4F, 0x4D])
    (d : Bytes) : classify ident d = .ok (plainClass .generic) := by
  rw [classify, if_neg ht, if_neg hc]

theorem findIdx?_zero_of_nonzero {desc : Bytes} (h : ∀ w ∈ desc, w ≠ 0) : desc.findIdx? (· == 0x00) = none := by
  simpa [List.findIdx?_eq_none_iff] using h

/-- A description that a 0x00 ends (R286). -/
theorem commentClass_terminated {desc : Bytes} (h : ∀ w ∈ desc, w ≠ 0) (enc x y z : Byte) (text : Bytes) :
    commentClass ([enc, x, y, z] ++ desc ++ [0x00] ++ text) =
      ⟨.comment, enc, [x, y, z], 4, desc.length, desc.length + 5, text.length⟩ := by
  have hrest : ([enc, x, y, z] ++ desc ++ [0x00] ++ text).drop 4 = desc ++ 0x00 :: text := by simp
  have hend : (desc ++ 0x00 :: text).findIdx? (· == 0x00) = some desc.length := by
    rw [List.findIdx?_append, findIdx?_zero_of_nonzero h, List.findIdx?_cons]
    simp
  have hlen : ([enc, x, y, z] ++ desc ++ [0x00] ++ text).length - (desc.length + 4) - 1 = text.length := by
    simp only [List.length_append, List.length_cons, List.length_nil]
    omega
  simp only [commentClass, hrest, hend, hlen]
  rfl

/-- A description that nothing ends is the whole rest (R286). -/
theorem commentClass_unterminated {desc : Bytes} (h : ∀ w ∈ desc, w ≠ 0) (enc x y z : Byte) :
    commentClass ([enc, x, y, z] ++ desc) =
      ⟨.comment, enc, [x, y, z], 4, desc.length, desc.length + 4, 0⟩ := by
  have hrest : ([enc, x, y, z] ++ desc).drop 4 = desc := rfl
  simp only [commentClass, hrest, findIdx?_zero_of_nonzero h]
  rfl

/-- Settles O47: by the first byte of the identifier, then by its first three. -/
theorem classificationOfPayloads : Obligations.ClassificationOfPayloads := by
  intro a b c e
  refine ⟨fun htext => ⟨?_, fun enc text => ?_⟩,
    fun hcom => ⟨fun d hd => ?_, fun enc x y z desc text hdesc => ⟨?_, ?_⟩⟩, fun htext hcom => ?_⟩
  · exact classify_text_nil (id := [a, b, c, e]) (congrArg some htext) []
  · exact classify_text (d := enc :: text) htext (Nat.succ_pos _)
  · exact classify_comment_short (id := [a, b, c, e]) (q := []) hcom hd
  · rw [classify_comment (ident := [a, b, c, e]) hcom (by simp), commentClass_terminated hdesc]
  · rw [classify_comment (ident := [a, b, c, e]) hcom (by simp), commentClass_unterminated hdesc]
  · exact classify_generic htext hcom

/-! ## FHDR and FRAME after their decoder (R260, R280) -/

/-- What holds of all that a program can read holds of what it has read. -/
theorem Reads.answer {α : Type} {m : Eng α} {G : α → Prop} {r r' : Run} {x : α} (h : Reads m G)
    (hx : m r = .ok x r') : G x := by
  obtain ⟨y, k, hy, hg⟩ := h r
  rw [hy] at hx
  cases hx
  exact hg

theorem descCap_lt_one {s : State} : s.opr.descCap.toNat < 1 ↔ s.opr.descCap = 0 := by bv_omega

/-- What FHDR and FRAME leave where decoding ended cleanly (R260, R280). -/
def afterStop (s : State) (reason : StopReason) (used : Nat) : State :=
  finished s .noError reason { ResultRegs.zero with res0 := BitVec.ofNat 32 used } s.hdr s.mem

/-- What FHDR and FRAME leave where decoding failed (R260, R280). -/
def afterFail (s : State) (e : FailKind) (d : Detail) (id : Word) : State :=
  finished s (failErr e) (failStop e) { ResultRegs.zero with detail := d, errId := id } s.hdr s.mem

/-- What FHDR and FRAME leave where an output range has no room; ERR_ID stays 0 (R260, R290, log entry 22). -/
def afterFull (s : State) (d : Detail) : State :=
  finished s .capacity .capacity { ResultRegs.zero with detail := d } s.hdr s.mem

/-- What FRAME leaves of a frame it has got (R280, R290). -/
def afterFrame (s : State) (fr : Frame) : State :=
  if s.opr.descCap = 0 then afterFull s .descFull
  else if s.opr.payCap.toNat < (inflatedBytes fr).length then afterFull s .payFull
  else finished s .noError .frame
    { ResultRegs.zero with
      res0 := BitVec.ofNat 32 fr.consumed, res1 := 1, res2 := BitVec.ofNat 32 (inflatedBytes fr).length }
    s.hdr
    (memSetRange (memSetRange s.mem s.opr.payBase.toNat (inflatedBytes fr)) s.opr.descBase.toNat
      (descBytes fr.hd fr.cls 0 (payloadAddr s.opr.payBase.toNat fr) fr.d.length))

/-- The PAY check of R290 is about the bytes that go there. -/
theorem payFull_iff (fr : Frame) (cap : Nat) :
    fr.inflated = true ∧ fr.d.length > cap ↔ cap < (inflatedBytes fr).length := by
  unfold inflatedBytes
  cases fr.inflated <;> simp

section
variable {ver : FrameVer} {s t : State}

/-- FHDR ends in `t` where every ending of its pseudocode does. -/
theorem exec_fhdr_finishes
    (hprog : Sat (· = startRun s) (fhdrProg (memSize s) s.opr ver)
      (fun _ r => complete s r = t) (fun r => complete s r = t)) : exec (fhdrOf ver) s = .next t := by
  obtain ⟨r, hrun, rfl⟩ := Sat.completes hprog
  cases ver <;> exact hrun

theorem Ready.fhdr_prologue (h : Ready (fhdrOf ver) s) :
    prologue (memSize s) s.opr [.src, .desc] (startRun s) = .ok () (startRun s) :=
  prologue_ok (by have := h.rangeError; cases ver <;> exact this) _

/-- FRAME ends in `t` where every ending of its pseudocode does. -/
theorem exec_frame_finishes
    (hprog : Sat (· = startRun s) (frameProg Config.inflate (memSize s) s.opr ver)
      (fun _ r => complete s r = t) (fun r => complete s r = t)) : exec (frameOf ver) s = .next t := by
  obtain ⟨r, hrun, rfl⟩ := Sat.completes hprog
  cases ver <;> exact hrun

theorem Ready.frame_prologue (h : Ready (frameOf ver) s) :
    prologue (memSize s) s.opr [.src, .desc, .pay] (startRun s) = .ok () (startRun s) :=
  prologue_ok (by have := h.rangeError; cases ver <;> exact this) _

theorem exec_fhdr_of_stop {reason : StopReason} {used : Nat} (h : Ready (fhdrOf ver) s)
    (hdec : frameHeaderDecode (memSize s) s.opr.srcBase.toNat s.opr.srcLen.toNat ver (startRun s) =
      .ok (.stop reason used) (startRun s)) :
    exec (fhdrOf ver) s = .next (afterStop s reason used) :=
  exec_fhdr_finishes <| Sat.step h.fhdr_prologue <| Sat.step hdec <|
    Sat.step (putRes0_apply _ _) <| Sat.done (putStop_apply _ _) rfl

theorem exec_fhdr_of_truncated {d : Detail} {id : Word} (h : Ready (fhdrOf ver) s)
    (hdec : frameHeaderDecode (memSize s) s.opr.srcBase.toNat s.opr.srcLen.toNat ver (startRun s) =
      .ok (.fail .truncated d id) (startRun s)) :
    exec (fhdrOf ver) s = .next (afterFail s .truncated d id) :=
  exec_fhdr_finishes <| Sat.step h.fhdr_prologue <| Sat.step hdec <|
    Sat.step (putStop_apply _ _) <| Sat.step (putErrId_apply _ _) <| Sat.raises rfl

theorem exec_fhdr_of_got {hd : FrameHeader} (h : Ready (fhdrOf ver) s)
    (hdec : frameHeaderDecode (memSize s) s.opr.srcBase.toNat s.opr.srcLen.toNat ver (startRun s) =
      .ok (.got hd) (startRun s)) :
    exec (fhdrOf ver) s = .next (if s.opr.descCap = 0 then afterFull s .descFull
      else finished s .noError .frame { ResultRegs.zero with res0 := BitVec.ofNat 32 hd.hdrlen, res1 := 1 } s.hdr
        (memSetRange s.mem s.opr.descBase.toNat (descBytes hd (plainClass .headerOnly) 0 0 0))) := by
  obtain ⟨-, -, -, hid⟩ := (Reads.frameHeaderDecode (h.src (by cases ver <;> decide))).answer hdec
  refine exec_fhdr_finishes <| Sat.step h.fhdr_prologue <| Sat.step hdec <|
    Sat.ite (fun hnone => ?_) fun hroom => ?_
  · exact Sat.step (putStop_apply _ _) (Sat.raises (if_pos (descCap_lt_one.mp hnone)).symm)
  · have hin := h.descriptor_inside (by cases ver <;> decide) hroom
      (descBytes_length hid (cls := plainClass .headerOnly) rfl 0 0 0)
    refine Sat.step (writeBytes_apply hin) (Sat.step (putRes0_apply _ _) (Sat.step (putRes1_apply _ _) ?_))
    exact Sat.done (putStop_apply _ _) (if_neg (descCap_lt_one.not.mp hroom)).symm

theorem exec_frame_of_stop {reason : StopReason} {used : Nat} (h : Ready (frameOf ver) s)
    (hdec : frameDecode Config.inflate (memSize s) s.opr.srcBase.toNat s.opr.srcLen.toNat ver (startRun s) =
      .ok (.stop reason used) (startRun s)) :
    exec (frameOf ver) s = .next (afterStop s reason used) :=
  exec_frame_finishes <| Sat.step h.frame_prologue <| Sat.step hdec <|
    Sat.step (putRes0_apply _ _) <| Sat.done (putStop_apply _ _) rfl

theorem exec_frame_of_fail {e : FailKind} {d : Detail} {id : Word} (h : Ready (frameOf ver) s)
    (hdec : frameDecode Config.inflate (memSize s) s.opr.srcBase.toNat s.opr.srcLen.toNat ver (startRun s) =
      .ok (.fail e d id) (startRun s)) :
    exec (frameOf ver) s = .next (afterFail s e d id) :=
  exec_frame_finishes <| Sat.step h.frame_prologue <| Sat.step hdec <|
    Sat.step (putStop_apply _ _) <| Sat.step (putErrId_apply _ _) <| Sat.raises rfl

theorem exec_frame_of_got {fr : Frame} (h : Ready (frameOf ver) s)
    (hdec : frameDecode Config.inflate (memSize s) s.opr.srcBase.toNat s.opr.srcLen.toNat ver (startRun s) =
      .ok (.got fr) (startRun s)) :
    exec (frameOf ver) s = .next (afterFrame s fr) := by
  obtain ⟨-, -, -, hid, hlang⟩ := (Reads.frameDecode (h.src (by cases ver <;> decide))).answer hdec
  have hpay := h.pay (by cases ver <;> decide)
  unfold afterFrame
  refine exec_frame_finishes <| Sat.step h.frame_prologue <| Sat.step hdec <|
    Sat.ite (fun hnone => ?_) fun hroom => Sat.ite (fun hfull => ?_) fun hfits => ?_
  · exact Sat.step (putStop_apply _ _) (Sat.raises (if_pos (descCap_lt_one.mp hnone)).symm)
  · rw [if_neg (descCap_lt_one.not.mp hroom), if_pos ((payFull_iff fr _).mp hfull)]
    exact Sat.step (putStop_apply _ _) (Sat.raises rfl)
  · rw [if_neg (descCap_lt_one.not.mp hroom), if_neg ((payFull_iff fr _).not.mp hfits)]
    have hused := length_inflatedBytes_le hfits
    have hin := h.descriptor_inside (by cases ver <;> decide) hroom
      (descBytes_length hid hlang 0 (payloadAddr s.opr.payBase.toNat fr) fr.d.length)
    refine Sat.step (storePayload_inflatedBytes (by omega)) (Sat.step (writeBytes_apply hin) ?_)
    refine Sat.step (putRes0_apply _ _) (Sat.step (putRes1_apply _ _) (Sat.step (putRes2_apply _ _)
      (Sat.done (putStop_apply _ _) ?_)))
    rw [length_inflatedBytes]
    rfl

end

/-! ## Clean ends, cut headers and FHDR's descriptor (R260 to R269) -/

/-- FHDR and FRAME both read SRC, which is empty or lies inside memory (R86, R87). -/
theorem Ready.src_of_fhdr_or_frame {i : Instr} {ver : FrameVer} {s : State} (hi : i = fhdrOf ver ∨ i = frameOf ver)
    (h : Ready i s) : s.opr.srcLen.toNat = 0 ∨ s.opr.srcBase.toNat + s.opr.srcLen.toNat ≤ memSize s := by
  refine h.src ?_
  rcases hi with rfl | rfl <;> cases ver <;> decide

/-- Settles O41: a clean end of the header decoder is one of the frame decoder. -/
theorem endAndPaddingStops : Obligations.EndAndPaddingStops := by
  refine ⟨rfl, fun ver i s bs reason used hi hready hsrc hends => ?_⟩
  have hms := hready.src_of_fhdr_or_frame hi
  obtain ⟨hlen, hholds⟩ := hsrc
  have hdec := frameHeaderDecode_ends (ms := memSize s) (r := startRun s) hends hholds (hlen ▸ hms)
  rw [← hlen] at hdec
  rcases hi with rfl | rfl
  · exact exec_fhdr_of_stop hready hdec
  · exact exec_frame_of_stop hready (frameDecode_of_stop hdec)

/-- A cut header has a byte at least: what is cut is a core that is not all zero, or a trailing field after a core. -/
theorem HeaderCut.ne_nil {ver : FrameVer} {bs : Bytes} {id : Word} (h : HeaderCut ver bs id) : bs ≠ [] := by
  have hcore := coreLen_ge ver
  rintro rfl
  rcases h with ⟨-, hzero, -⟩ | ⟨l, -, -, hlen, -⟩
  · cases hzero
  · rw [List.length_nil] at hlen
    omega

/-- Settles O42: a cut of the header decoder is one of the frame decoder. -/
theorem cutFrameHeaderIsTruncated : Obligations.CutFrameHeaderIsTruncated := by
  intro ver i s bs id hi hready hsrc hcut
  have hms := hready.src_of_fhdr_or_frame hi
  have hpos := List.length_pos_of_ne_nil hcut.ne_nil
  obtain ⟨hlen, hholds⟩ := hsrc
  have hdec := frameHeaderDecode_cut (ms := memSize s) (r := startRun s) hcut hcut.ne_nil hholds (by omega)
  rw [← hlen] at hdec
  rcases hi with rfl | rfl
  · exact exec_fhdr_of_truncated hready hdec
  · exact exec_frame_of_fail hready (frameDecode_of_fail hdec)

/-- Settles O40: the header decodes to the layout's fields. -/
theorem fhdrWritesTheHeaderDescriptor : Obligations.FhdrWritesTheHeaderDescriptor := by
  rintro s l hl hready ⟨hlen, hholds⟩
  exact exec_fhdr_of_got hready
    (frameHeaderDecode_layout hl hholds hlen (hready.src_of_fhdr_or_frame (.inl rfl)))

/-! ## FRAME (R280 to R290) -/

/-- Settles O43: each corrupt frame fails its check in the decoder. -/
theorem corruptFrameIsReported : Obligations.CorruptFrameIsReported := by
  refine ⟨rfl, fun ver s bs d id hready hsrc hcorrupt => ?_⟩
  have hms := hready.src_of_fhdr_or_frame (.inr rfl)
  obtain ⟨hlen, hholds⟩ := hsrc
  refine exec_frame_of_fail (e := .corruptFrame) hready ?_
  rw [hlen] at hms ⊢
  exact frameDecode_corrupt hcorrupt hholds hms

/-- Settles O44: the decoder reads the zeros up to the end of SRC. -/
theorem zeroResidueIsPadding : Obligations.ZeroResidueIsPadding := by
  intro ver s bs hready hsrc hzero
  have hms := hready.src_of_fhdr_or_frame (.inr rfl)
  obtain ⟨hlen, hholds⟩ := hsrc
  have hused : s.opr.srcLen = BitVec.ofNat 32 bs.length := by
    rw [← hlen, BitVec.ofNat_toNat, BitVec.setWidth_eq]
  rw [hused]
  refine exec_frame_of_stop hready ?_
  rw [hlen] at hms ⊢
  exact frameDecode_zeroResidue hzero hholds hms

/-- An uncompressed frame puts nothing in PAY, so only DESC can be full; its descriptor points into SRC (R152). -/
theorem afterFrame_stored {f : RegionFrame} (s : State) (hstored : packed f = false) :
    afterFrame s (gotFrame s.opr.srcBase.toNat f) = if s.opr.descCap = 0 then afterFull s .descFull
      else finished s .noError .frame
        { ResultRegs.zero with res0 := BitVec.ofNat 32 (frameBytes f).length, res1 := 1 } s.hdr
        (memSetRange s.mem s.opr.descBase.toNat (frameDesc s.opr.srcBase.toNat 0 0 f)) := by
  have hpaid : inflatedBytes (gotFrame s.opr.srcBase.toNat f) = [] := by
    rw [inflatedBytes_gotFrame, paid, hstored]
    rfl
  have hdesc : frameDesc s.opr.srcBase.toNat 0 0 f = descBytes (layoutHeader f.layout) (frameClass f) 0
      (payloadAddr s.opr.payBase.toNat (gotFrame s.opr.srcBase.toNat f)) f.data.length := by
    rw [frameDesc, payloadAddr, gotFrame, hstored]
    rfl
  rw [afterFrame, hpaid, List.length_nil, if_neg (Nat.not_lt_zero _), hdesc]
  rfl

/-- Settles O45: a frame that decodes is got, with its payload left where it stands. -/
theorem frameWritesTheStoredFrameDescriptor : Obligations.FrameWritesTheStoredFrameDescriptor := by
  rintro s ver f hf hstored hready ⟨hlen, hholds⟩
  have hms := hready.src_of_fhdr_or_frame (.inr rfl)
  have hgot := exec_frame_of_got hready (frameDecode_frameOk hf hholds hlen hms)
  exact hgot.trans (congrArg Host.Outcome.next (afterFrame_stored s hstored))

/-- A compressed payload, with the indicator v2.4 asks for, is what the engine makes of it (R283, R284). -/
theorem decodePayload_compressed {inflate : InflateFn} {hd : FrameHeader} (hcmp : hd.nf.cmp = true)
    (hdli : hd.ver = .v4 → hd.nf.dli = true) (raw : Bytes) :
    decodePayload inflate hd raw = (inflateChecked inflate raw hd.dlen).map (·, true) := by
  have hv4 : ¬(hd.ver = .v4 ∧ hd.nf.dli = false) := by
    rintro ⟨hver, hno⟩
    rw [hdli hver] at hno
    cases hno
  rw [decodePayload, if_pos hcmp, if_neg hv4]
  cases inflateChecked inflate raw hd.dlen <;> rfl

section
variable {inflate : InflateFn} {hd : FrameHeader} {stored : Nat} {raw d : Bytes} {dd : Detail}

theorem finishFrame_of_inflateError (hcmp : hd.nf.cmp = true) (hdli : hd.ver = .v4 → hd.nf.dli = true)
    (h : inflateChecked inflate raw hd.dlen = .error dd) :
    finishFrame inflate hd stored raw = .fail .corruptFrame dd (beWord hd.ident) := by
  rw [finishFrame, decodePayload_compressed hcmp hdli, h]
  rfl

theorem finishFrame_of_classError (hcmp : hd.nf.cmp = true) (hdli : hd.ver = .v4 → hd.nf.dli = true)
    (h : inflateChecked inflate raw hd.dlen = .ok d) (hclass : classify hd.ident d = .error dd) :
    finishFrame inflate hd stored raw = .fail .corruptFrame dd (beWord hd.ident) := by
  rw [finishFrame, decodePayload_compressed hcmp hdli, h]
  simp only [Except.map, hclass]

theorem finishFrame_of_inflated {cls : FrameClass} (hcmp : hd.nf.cmp = true) (hdli : hd.ver = .v4 → hd.nf.dli = true)
    (h : inflateChecked inflate raw hd.dlen = .ok d) (hclass : classify hd.ident d = .ok cls) :
    finishFrame inflate hd stored raw = .got ⟨hd, cls, d, true, stored, hd.hdrlen + hd.size⟩ := by
  rw [finishFrame, decodePayload_compressed hcmp hdli, h]
  simp only [Except.map, hclass]

end

/-- Settles O46: by what the engine answers, its length, and the class of what it delivers. -/
theorem frameInflatesTheCompressedFrame : Obligations.FrameInflatesTheCompressedFrame := by
  rintro s l raw hl hready hcmp hdli hsize hceil ⟨hlen, hholds⟩
  have hms := hready.src_of_fhdr_or_frame (.inr rfl)
  rw [List.length_append] at hlen
  have hdec := frameDecode_layout (inflate := Config.inflate) (r := startRun s) hl hholds hsize hceil hlen hms
  cases hinf : Config.inflate raw with
  | none =>
    rw [finishFrame_of_inflateError hcmp hdli (inflateChecked_of_none hinf _)] at hdec
    exact exec_frame_of_fail hready hdec
  | some d =>
    by_cases hdlen : d.length = (layoutHeader l).dlen
    · have hchecked := inflateChecked_of_length_eq hinf hdlen
      dsimp only
      rw [if_neg (not_not.mpr hdlen)]
      cases hclass : classify (layoutHeader l).ident d with
      | error dd =>
        rw [finishFrame_of_classError hcmp hdli hchecked hclass] at hdec
        exact exec_frame_of_fail hready hdec
      | ok cls =>
        rw [finishFrame_of_inflated hcmp hdli hchecked hclass, hsize] at hdec
        exact exec_frame_of_got hready hdec
    · rw [finishFrame_of_inflateError hcmp hdli (inflateChecked_of_length_ne hinf hdlen)] at hdec
      dsimp only
      rw [if_pos hdlen]
      exact exec_frame_of_fail hready hdec

end Sys2Proof.Machine
end

section
/-! PARSE at the frame that ends its enumeration, after any list of frames that decode: a frame that fails, a frame
with no room for its descriptor or its inflated payload, and a compressed frame for every answer of the engine (R323,
R324, R356). -/

namespace Sys2Proof.Machine

open Sys2Proof (Word Byte Bytes Instr)

/-! ## The loop's last round -/

section
variable {inflate : InflateFn} {ms : Nat} {o : OperandRegs} {ver : FrameVer} {len rounds p k used : Nat} {r : Run}

/-- The loop's last round, over a frame that fails: the loop recovers and records where and why (R323). -/
theorem parseLoop_fail {e : FailKind} {d : Detail} {id : Word}
    (h : ∀ r', r'.mem = r.mem →
      frameDecode inflate ms (o.dstBase.toNat + p) (len - p) ver r' = .ok (.fail e d id) r') :
    parseLoop inflate ms o ver len (rounds + 1) p k used r = .ok () { r with
      stop := failStop e
      res := { r.res with
        res0 := BitVec.ofNat 32 k, res2 := BitVec.ofNat 32 p, res3 := BitVec.ofNat 32 used
        errOff := BitVec.ofNat 32 p, region := true, detail := d, errId := id } } := by
  rw [parseLoop]
  exact eng_bind_step (putProgress_apply _ _ _ _) (eng_bind_step (h _ rfl) rfl)

/-- An output range has no room for this frame, with `k` frames and `used` bytes of PAY before it: DESC is full, or DESC
has room and PAY would overflow (R323). -/
def NoRoom (o : OperandRegs) (k used : Nat) (fr : Frame) (d : Detail) : Prop :=
  (o.descCap.toNat ≤ k ∧ d = .descFull)
    ∨ (k < o.descCap.toNat ∧ o.payCap.toNat < used + fr.d.length ∧ fr.inflated = true ∧ d = .payFull)

/-- The loop's last round, over a frame that decodes and does not fit: CAPACITY, with what the loop knows of the frame
(R323). -/
theorem parseLoop_noRoom {fr : Frame} {d : Detail} (hfull : NoRoom o k used fr d)
    (h : ∀ r', r'.mem = r.mem →
      frameDecode inflate ms (o.dstBase.toNat + p) (len - p) ver r' = .ok (.got fr) r') :
    parseLoop inflate ms o ver len (rounds + 1) p k used r = .error .raised { r with
      err := .capacity, stop := .capacity
      res := { r.res with
        res0 := BitVec.ofNat 32 k, res2 := BitVec.ofNat 32 p, res3 := BitVec.ofNat 32 used
        errOff := BitVec.ofNat 32 p, region := true, detail := d, errId := beWord fr.hd.ident } } := by
  rw [parseLoop]
  refine eng_bind_step (putProgress_apply _ _ _ _) (eng_bind_step (h _ rfl) ?_)
  dsimp only
  rcases hfull with ⟨hdesc, rfl⟩ | ⟨hdesc, hpay, hinflated, rfl⟩
  · rw [if_pos hdesc, parseFull_apply]
  · rw [if_neg (Nat.not_le.mpr hdesc), if_pos ⟨hinflated, hpay⟩, parseFull_apply]

end

/-- A program that raises leaves what it leaves. -/
theorem Sat.raised {α : Type} {m : Eng α} {r r' : Run} {Q : α → Run → Prop} {E : Run → Prop}
    (h : m r = .error .raised r') (he : E r') : Sat (· = r) m Q E := by
  rintro _ rfl
  rwa [h]

/-! ## PARSE, from what decoding the bytes after the frames answers -/

/-- Decoding a frame of the last bytes of a region, at region offset `p`, answers `x`. -/
def TailDecodes (s : State) (ver : FrameVer) (p : Nat) (tail : Bytes) (x : Decoded Frame) : Prop :=
  ∀ r : Run, Holds r.mem (s.opr.dstBase.toNat + p) tail →
    frameDecode Config.inflate (memSize s) (s.opr.dstBase.toNat + p) tail.length ver r = .ok x r

section
variable {s : State} {h : TagLayout} {xs tail : Bytes} {fs : List RegionFrame}

/-- The bytes after the frames of a region that fits DST lie inside memory. -/
theorem ParseInput.tail_inside (hin : ParseInput s h xs) (hregion : regionOf h.flags xs = regionBytes fs ++ tail) :
    tail.length = 0 ∨ s.opr.dstBase.toNat + (regionBytes fs).length + tail.length ≤ memSize s := by
  obtain ⟨hready, -, -, -, hcap⟩ := hin
  have hdst := hready.dst (by decide)
  rw [hregion, List.length_append] at hcap
  omega

/-- The frame loop reads what stands after the frames as a region's last bytes. -/
theorem TailDecodes.at_cursor {x : Decoded Frame} {run r : Run}
    (hdec : TailDecodes s h.ver (regionBytes fs).length tail x)
    (hregion : regionOf h.flags xs = regionBytes fs ++ tail)
    (hholds : Holds run.mem (s.opr.dstBase.toNat + (regionBytes fs).length) tail) (hmem : r.mem = run.mem) :
    frameDecode Config.inflate (memSize s) (s.opr.dstBase.toNat + (regionBytes fs).length)
      ((regionOf h.flags xs).length - (regionBytes fs).length) h.ver r = .ok x r := by
  rw [hregion, List.length_append, Nat.add_sub_cancel_left]
  exact hdec r (hmem ▸ hholds)

/-- PARSE recovers from a frame that fails after any list of frames (R323, R356). -/
theorem ParseInput.exec_parse_of_fail {e : FailKind} {d : Detail} {id : Word} (hin : ParseInput s h xs)
    (hfit : FramesFit s h.ver fs) (hregion : regionOf h.flags xs = regionBytes fs ++ tail)
    (hdec : TailDecodes s h.ver (regionBytes fs).length tail (.fail e d id)) :
    exec .parse s = .next (finished s .noError (failStop e) (parseStopRes (regionOf h.flags xs).length fs 0 d id)
      (tagRegs s.opr.srcBase.toNat h) (parsedMem s (regionOf h.flags xs) fs)) := by
  refine hin.exec_parse hfit hregion fun rounds run hrun hholds => ?_
  refine Sat.done (parseLoop_fail fun r => hdec.at_cursor hregion hholds) ?_
  subst hrun
  rfl

/-- PARSE ends with CAPACITY at a frame that decodes and does not fit, after any list of frames (R323, R324). -/
theorem ParseInput.exec_parse_of_noRoom {fr : Frame} {d : Detail} (hin : ParseInput s h xs)
    (hfit : FramesFit s h.ver fs) (hregion : regionOf h.flags xs = regionBytes fs ++ tail)
    (hdec : TailDecodes s h.ver (regionBytes fs).length tail (.got fr))
    (hfull : NoRoom s.opr fs.length (payUsed fs) fr d) :
    exec .parse s = .next (finished s .capacity .capacity
      (parseStopRes (regionOf h.flags xs).length fs 0 d (beWord fr.hd.ident))
      (tagRegs s.opr.srcBase.toNat h) (parsedMem s (regionOf h.flags xs) fs)) := by
  refine hin.exec_parse hfit hregion fun rounds run hrun hholds => ?_
  refine Sat.raised (parseLoop_noRoom hfull fun r => hdec.at_cursor hregion hholds) ?_
  subst hrun
  rfl

end

/-! ## A bad frame (R323, R356) -/

/-- A cut frame header is the one failure with the detail SHORT_FRAME_HEADER. -/
theorem FrameCorrupt.ne_shortFrameHeader {ver : FrameVer} {bs : Bytes} {d : Detail} {id : Word}
    (h : FrameCorrupt ver bs d id) : d ≠ .shortFrameHeader := by
  obtain ⟨l, rest, -, -, -, -, hcheck⟩ := h
  rcases hcheck with ⟨-, rfl⟩ | ⟨-, ⟨-, -, rfl⟩ | ⟨-, ⟨-, -, -, rfl⟩ | ⟨-, -, -, rfl⟩ | ⟨-, -, -, rfl⟩⟩⟩ <;> decide

/-- Settles O49: what follows the frames fails in the header decoder, or in the frame decoder. -/
theorem parseKeepsTheFramesBeforeABadOne : Obligations.ParseKeepsTheFramesBeforeABadOne := by
  intro s h xs tail fs d id hin hfit hregion hbad
  have hms := hin.tail_inside hregion
  rcases hbad with ⟨hne, hcut, rfl⟩ | hcorrupt
  · have hpos := List.length_pos_of_ne_nil hne
    exact hin.exec_parse_of_fail (e := .truncated) hfit hregion fun r hholds =>
      frameDecode_of_fail (frameHeaderDecode_cut hcut hne hholds (by omega))
  · rw [if_neg hcorrupt.ne_shortFrameHeader]
    exact hin.exec_parse_of_fail (e := .corruptFrame) hfit hregion fun r hholds =>
      frameDecode_corrupt hcorrupt hholds hms

/-! ## A frame with no room (R323, R324) -/

/-- A frame that decodes is got from the front of a region's last bytes. -/
theorem ParseInput.tailDecodes_frameOk {s : State} {h : TagLayout} {xs more : Bytes} {fs : List RegionFrame}
    {f : RegionFrame} (hin : ParseInput s h xs) (hf : FrameOk h.ver f)
    (hregion : regionOf h.flags xs = regionBytes fs ++ (frameBytes f ++ more)) :
    TailDecodes s h.ver (regionBytes fs).length (frameBytes f ++ more)
      (.got (gotFrame (s.opr.dstBase.toNat + (regionBytes fs).length) f)) :=
  fun _ hholds => frameDecode_frameOk hf hholds.append_left
    (by rw [List.length_append]; exact Nat.le_add_right _ _) (hin.tail_inside hregion)

/-- Settles O50: the frame decodes, and DESC has no room for its descriptor. -/
theorem parseStopsWhenDescriptorsRunOut : Obligations.ParseStopsWhenDescriptorsRunOut := by
  intro s h xs more fs f hin hfit hf hfull hregion
  rw [List.append_assoc] at hregion
  exact hin.exec_parse_of_noRoom hfit hregion (hin.tailDecodes_frameOk hf hregion) (.inl ⟨hfull.ge, rfl⟩)

/-! ## A compressed frame (R323, R324, R283, R284) -/

theorem regionBytes_append_one (fs : List RegionFrame) (f : RegionFrame) :
    regionBytes (fs ++ [f]) = regionBytes fs ++ frameBytes f := by simp [regionBytes]

theorem payUsed_append_one (fs : List RegionFrame) (f : RegionFrame) :
    payUsed (fs ++ [f]) = payUsed fs + (paid f).length := by simp [payUsed]

/-- Storing frames one after another, the last of them at what the others have left. -/
theorem storeFrames_append_one (o : OperandRegs) (p k used : Nat) (fs : List RegionFrame) (f : RegionFrame)
    (m : Memory) :
    storeFrames o p k used (fs ++ [f]) m = storeFrames o (p + (regionBytes fs).length) (k + fs.length)
      (used + payUsed fs) [f] (storeFrames o p k used fs m) := by
  induction fs generalizing p k used m with
  | nil => rfl
  | cons g fs ih =>
    rw [List.cons_append, storeFrames_cons, ih, storeFrames_cons o p k used g fs, regionBytes_cons, payUsed_cons,
      List.length_append, List.length_cons, Nat.add_assoc p, Nat.add_assoc used, Nat.add_assoc k,
      Nat.add_comm 1]

/-- Memory once one frame more than these has been stored. -/
theorem parsedMem_append_one (s : State) (region : Bytes) (fs : List RegionFrame) (f : RegionFrame) :
    parsedMem s region (fs ++ [f]) =
      memSetRange (memSetRange (parsedMem s region fs) (s.opr.payBase.toNat + payUsed fs) (paid f))
        (s.opr.descBase.toNat + 64 * fs.length)
        (frameDesc s.opr.dstBase.toNat (s.opr.payBase.toNat + payUsed fs) (regionBytes fs).length f) := by
  simp only [parsedMem, storeFrames_append_one, storeFrames_one, Nat.zero_add]

/-- One frame more fits where a descriptor and the room for its inflated payload are left. -/
theorem FramesFit.append_one {s : State} {ver : FrameVer} {fs : List RegionFrame} {f : RegionFrame}
    (hfit : FramesFit s ver fs) (hf : FrameOk ver f) (hdesc : fs.length ≠ s.opr.descCap.toNat)
    (hpay : payUsed fs + (paid f).length ≤ s.opr.payCap.toNat) : FramesFit s ver (fs ++ [f]) := by
  obtain ⟨hframes, hcount, -⟩ := hfit
  refine ⟨List.forall_mem_append.mpr ⟨hframes, List.forall_mem_singleton.mpr hf⟩, ?_, ?_⟩
  · rw [List.length_append, List.length_singleton]
    omega
  · rwa [payUsed_append_one]

/-- A frame whose payload is all there is decoded from the front of a region's last bytes as `finishFrame` has it. -/
theorem ParseInput.tailDecodes_layout {s : State} {h : TagLayout} {xs raw more : Bytes} {fs : List RegionFrame}
    {l : HeaderLayout} (hin : ParseInput s h xs) (hl : LayoutOk l) (hver : l.ver = h.ver)
    (hsize : (layoutHeader l).size = raw.length) (hceil : raw.length < Config.frameSizeCeil)
    (hregion : regionOf h.flags xs = regionBytes fs ++ (layoutBytes l ++ raw ++ more)) :
    TailDecodes s h.ver (regionBytes fs).length (layoutBytes l ++ raw ++ more) (finishFrame Config.inflate
      (layoutHeader l) (s.opr.dstBase.toNat + (regionBytes fs).length + (layoutBytes l).length) raw) :=
  fun _ hholds => hver ▸ frameDecode_layout hl hholds.append_left hsize hceil
    (by rw [List.length_append (bs := more), List.length_append]; exact Nat.le_add_right _ _)
    (hin.tail_inside hregion)

/-- The frame that a compressed payload makes where the engine delivers bytes of the declared length, long enough for
their kind (R283 to R286). -/
theorem frameOk_of_inflated {l : HeaderLayout} {raw d : Bytes} {cls : FrameClass} (hl : LayoutOk l)
    (hcmp : (layoutHeader l).nf.cmp = true) (hdli : l.ver = .v4 → (layoutHeader l).nf.dli = true)
    (hsize : (layoutHeader l).size = raw.length) (hceil : raw.length < Config.frameSizeCeil)
    (hinf : Config.inflate raw = some d) (hdlen : d.length = (layoutHeader l).dlen)
    (hclass : classify (layoutHeader l).ident d = .ok cls) : FrameOk l.ver ⟨l, raw, d⟩ := by
  have hdelivered : delivered ⟨l, raw, d⟩ = some d := by rw [delivered, packed, if_pos hcmp, hinf]
  exact ⟨hl, rfl, hsize, hceil, hdelivered, fun _ => ⟨hdli, hdlen⟩, cls, hclass⟩

/-- The descriptor of such a frame points into PAY (R152, R289). -/
theorem frameDesc_of_inflated {l : HeaderLayout} {raw d : Bytes} {cls : FrameClass}
    (hcmp : (layoutHeader l).nf.cmp = true) (hclass : classify (layoutHeader l).ident d = .ok cls)
    (dst pay p : Nat) :
    frameDesc dst pay p ⟨l, raw, d⟩ = descBytes (layoutHeader l) cls p pay d.length := by
  simp only [frameDesc, frameClass, packed, hclass, hcmp, if_true]

/-- PARSE ends with a frame that decodes, fits and is the last of its region, after any list of frames (R323, R324). -/
theorem ParseInput.exec_parse_of_last {s : State} {h : TagLayout} {xs : Bytes} {fs : List RegionFrame}
    {f : RegionFrame} (hin : ParseInput s h xs) (hfit : FramesFit s h.ver fs) (hf : FrameOk h.ver f)
    (hdesc : fs.length ≠ s.opr.descCap.toNat) (hpay : payUsed fs + (paid f).length ≤ s.opr.payCap.toNat)
    (hregion : regionOf h.flags xs = regionBytes fs ++ frameBytes f) :
    exec .parse s = .next (finished s .noError .regionEnd
      { ResultRegs.zero with
        res0 := BitVec.ofNat 32 (fs.length + 1), res1 := BitVec.ofNat 32 (regionOf h.flags xs).length,
        res2 := BitVec.ofNat 32 (regionOf h.flags xs).length
        res3 := BitVec.ofNat 32 (payUsed fs + (paid f).length) }
      (tagRegs s.opr.srcBase.toNat h)
      (memSetRange (memSetRange (parsedMem s (regionOf h.flags xs) fs) (s.opr.payBase.toNat + payUsed fs) (paid f))
        (s.opr.descBase.toNat + 64 * fs.length)
        (frameDesc s.opr.dstBase.toNat (s.opr.payBase.toNat + payUsed fs) (regionBytes fs).length f))) := by
  rw [← regionBytes_append_one] at hregion
  have hall := parseEnumeratesTheFrames s h xs [] (fs ++ [f]) .regionEnd 0 hin (hfit.append_one hf hdesc hpay)
    (by rw [hregion, List.append_nil]) (.inl (.inl ⟨rfl, rfl, rfl⟩))
  dsimp only at hall
  rw [if_neg (by decide), parsedMem_append_one, parseRes, ← hregion, Nat.add_zero, payUsed_append_one,
    List.length_append, List.length_singleton] at hall
  exact hall

/-- Settles O51: where the engine's answer fails a check, decoding fails; else the frame decodes, and either does not
fit or is the last of the list that PARSE enumerates. -/
theorem parseInflatesACompressedFrame : Obligations.ParseInflatesACompressedFrame := by
  intro s h xs raw more fs l hin hfit hregion hl hver hcmp hdli hsize hceil
  have hregion' : regionOf h.flags xs = regionBytes fs ++ (layoutBytes l ++ raw ++ more) := by
    rw [hregion, List.append_assoc]
  have hdec := hin.tailDecodes_layout hl hver hsize hceil hregion'
  have hfails {dd : Detail} (hfail : finishFrame Config.inflate (layoutHeader l)
      (s.opr.dstBase.toNat + (regionBytes fs).length + (layoutBytes l).length) raw =
        .fail .corruptFrame dd (beWord (layoutHeader l).ident)) :=
    hin.exec_parse_of_fail hfit hregion' (hfail ▸ hdec)
  intro region hd stopped
  cases hinf : Config.inflate raw with
  | none => exact hfails (finishFrame_of_inflateError hcmp hdli (inflateChecked_of_none hinf _))
  | some d =>
    dsimp only
    by_cases hdlen : d.length = hd.dlen
    · rw [if_neg (not_not.mpr hdlen)]
      have hchecked := inflateChecked_of_length_eq hinf hdlen
      cases hclass : classify hd.ident d with
      | error dd => exact hfails (finishFrame_of_classError hcmp hdli hchecked hclass)
      | ok cls =>
        have hf := hver ▸ frameOk_of_inflated hl hcmp hdli hsize hceil hinf hdlen hclass
        have hpaid : paid ⟨l, raw, d⟩ = d := if_pos hcmp
        dsimp only
        split
        · rename_i hfull
          exact parseStopsWhenDescriptorsRunOut s h xs more fs _ hin hfit hf hfull hregion
        rename_i hdesc
        split
        · rename_i hfull
          obtain ⟨-, hcount, -⟩ := id hfit
          exact hin.exec_parse_of_noRoom hfit hregion' (hin.tailDecodes_frameOk hf hregion')
            (.inr ⟨Nat.lt_of_le_of_ne hcount hdesc, hfull, hcmp, rfl⟩)
        · rename_i hfits
          rintro rfl
          have hlast := hin.exec_parse_of_last hfit hf hdesc (by rw [hpaid]; omega)
            (by rw [hregion, List.append_nil]; rfl)
          rwa [frameDesc_of_inflated hcmp hclass, hpaid] at hlast
    · rw [if_pos hdlen]
      exact hfails (finishFrame_of_inflateError hcmp hdli (inflateChecked_of_length_ne hinf hdlen))

end Sys2Proof.Machine
end

section
/-! The interrupt (R370, R371), and the error, stop reason and detail with which each command can end (R350, R352,
R356). -/

namespace Sys2Proof.Machine

open Sys2Proof (Word Byte Bytes Instr)

/-! ## The interrupt (R370, R371) -/

/-- Of all register writes only one to CTRL changes IE (R32). -/
theorem writeOffset_ie (off : Nat) (v : Word) (s : State) :
    (regAt off = some .ctrl ∧ writeOffset off v s = writeCtrl v s) ∨ (writeOffset off v s).ie = s.ie := by
  unfold writeOffset
  split
  · rename_i r hr
    cases r with
    | ctrl => exact .inl ⟨hr, writeReg_ctrl v s⟩
    | _ => exact .inr (by unfold writeReg; split <;> rfl)
  · exact .inr rfl

/-- A CTRL write leaves IRQ high only where it sets IE without a reset while DONE is 1 (R32, R391). -/
theorem irq_writeCtrl (v : Word) (s : State) :
    irq (writeCtrl v s) = (v.getLsbD 0 && !v.getLsbD 1 && s.status.done) := by
  unfold writeCtrl
  cases v.getLsbD 1 <;> simp [irq, Status.zero]

/-- A register write raises IRQ only where it sets IE while DONE is 1: none raises DONE (R33, R371). -/
theorem irq_writeOffset {off : Nat} {v : Word} {s : State} (h : irq (writeOffset off v s) = true) :
    irq s = true ∨ regAt off = some .ctrl ∧ s.status.done = true ∧ v.getLsbD 0 = true ∧ v.getLsbD 1 = false := by
  rcases writeOffset_ie off v s with ⟨hctrl, hwrite⟩ | hie
  · rw [hwrite, irq_writeCtrl] at h
    simp only [Bool.and_eq_true, Bool.not_eq_true'] at h
    obtain ⟨⟨hset, hkeep⟩, hdone⟩ := h
    exact .inr ⟨hctrl, hdone, hset, hkeep⟩
  · left
    obtain ⟨hset, hhigh⟩ := Bool.and_eq_true_iff.mp h
    rcases writeOffset_status off v s with ⟨-, hacc⟩ | ⟨-, hdone⟩
    · rw [hacc] at hhigh
      cases hhigh
    · exact Bool.and_eq_true_iff.mpr ⟨hie ▸ hset, hdone hhigh⟩

/-- Settles O18, by where the step leads. -/
theorem irqRisesOnlyByCompletionOrEnable : Obligations.IrqRisesOnlyByCompletionOrEnable := by
  intro s t h hlow hhigh
  cases step_leads h with
  | quiet | wroteMem => exact absurd (hlow.symm.trans hhigh) (by decide)
  | poweredOn => cases hhigh
  | ran rdata agenda _ hbusy hrun =>
    obtain ⟨r, rfl⟩ := engineStep_completes hrun
    exact .inl ⟨(Bool.and_eq_true_iff.mp hhigh).1, hbusy, rfl, rfl⟩
  | wroteReg off v rest hnext hok =>
    rcases irq_writeOffset hhigh with hwas | ⟨hctrl, hdone, hbits⟩
    · exact absurd (hlow.symm.trans hwas) (by decide)
    · obtain rfl := offset_eq_of_regAt (off' := 0x000) hok (by decide) hctrl (by decide)
      exact .inr ⟨hdone, v, rest, hnext, hbits⟩

/-! ## Every report of every command

A completed command reports an error, a stop reason and a detail. Which ones go together is a finite table, from which
the statements about errors, stop reasons and details are read off. -/

/-- What a completed command reports: ERR, STOP and DETAIL (R350, R356, R352). -/
abbrev Report := ErrCode × StopReason × Detail

/-- What the host finds reported in a state. -/
def State.report (t : State) : Report := (t.status.err, t.status.stop, t.res.detail)

@[simp] theorem report_complete (s : State) (r : Run) :
    (complete s r).report = (r.err, r.stop, r.res.detail) := rfl

/-- Errors of a command that stopped at no frame. -/
def unstopped (errors : List (ErrCode × Detail)) : List Report := errors.map fun q => (q.1, .noStop, q.2)

/-- The report of a command that succeeds and decodes no frame. -/
def plainSuccess : Report := (.noError, .noStop, .noDetail)

/-- The errors the range checks can raise over these ranges: one for each range that can be invalid, and the overlap
where there are two that can share an address (R86, R88). -/
def rangeErrorsOf (uses : List RangeName) : List (ErrCode × Detail) :=
  uses.map (fun x => (.range, rangeDetail x))
    ++ (overlapPairs.filter fun q => uses.contains q.1 && uses.contains q.2).map fun _ => (.overlap, .overlapD)

/-- The reports FHDR and FRAME share (R260, R280). -/
def headerReports : List Report :=
  [(.noError, .frame, .noDetail), (.noError, .regionEnd, .noDetail), (.noError, .padding, .noDetail),
    (.truncated, .truncated, .shortFrameHeader), (.capacity, .capacity, .descFull)]

/-- The reports that FRAME's payload adds (R280). -/
def payloadReports : List Report :=
  (.capacity, .capacity, .payFull) :: corruptDetails.map fun d => (.corruptFrame, .corrupt, d)

/-- The reports of PARSE's frame loop, which recovers from a failure without an error (R323). -/
def loopReports : List Report :=
  [(.noError, .regionEnd, .noDetail), (.noError, .padding, .noDetail), (.noError, .truncated, .shortFrameHeader),
    (.capacity, .capacity, .descFull), (.capacity, .capacity, .payFull)]
    ++ corruptDetails.map fun d => (.noError, .corrupt, d)

/-- The reports of a command whose range checks passed. -/
def readyReports : Instr → List Report
  | .ssdec => [plainSuccess]
  | .resync => plainSuccess :: unstopped [(.capacity, .dstFull)]
  | .infl => plainSuccess
      :: unstopped [(.corruptFrame, .inflateFail), (.corruptFrame, .inflateLen), (.capacity, .dstFull)]
  | .thdr => plainSuccess :: unstopped headerErrors
  | .fhdrV2 | .fhdrV3 | .fhdrV4 => headerReports
  | .frameV2 | .frameV3 | .frameV4 => headerReports ++ payloadReports
  | .parse => unstopped parseEarlyErrors ++ loopReports

/-- The reports with which a command can complete. -/
def reportsOf (i : Instr) : List Report := unstopped (rangeErrorsOf (rangesUsed i)) ++ readyReports i

theorem mem_unstopped {e : ErrCode} {d : Detail} {errors : List (ErrCode × Detail)} (h : (e, d) ∈ errors) :
    (e, .noStop, d) ∈ unstopped errors := List.mem_map_of_mem (f := fun q => (q.1, StopReason.noStop, q.2)) h

/-- What the range checks raise is one of the errors over the ranges used. -/
theorem rangeError_mem_of_uses {ms : Nat} {o : OperandRegs} {uses : List RangeName} {q : ErrCode × Detail}
    (h : rangeError ms o uses = some q) : q ∈ rangeErrorsOf uses := by
  unfold rangeError at h
  split at h
  · rename_i x hx
    cases h
    have hfound := List.find?_some (p := fun x => uses.contains x && !spanValid ms (spanOf o x)) hx
    have hused := (Bool.and_eq_true_iff.mp hfound).1
    exact List.mem_append_left _ (List.mem_map.mpr ⟨x, List.contains_iff_mem.mp hused, rfl⟩)
  · split at h
    · rename_i hover
      cases h
      obtain ⟨q, hq, hpair⟩ := List.any_eq_true.mp hover
      have hused := (Bool.and_eq_true_iff.mp hpair).1
      exact List.mem_append_right _ (List.mem_map.mpr ⟨q, List.mem_filter.mpr ⟨hq, hused⟩, rfl⟩)
    · cases h

/-- A command whose range checks passed leaves one of its endings. -/
theorem Ready.exec_leaves {i : Instr} {s t : State} (h : Ready i s) (hn : exec i s = .next t) :
    ∃ r, t = complete s r ∧ CommandLeaves s i r := by
  cases i with
  | ssdec => exact execSsdec_leaves h hn
  | resync => exact execResync_leaves h hn
  | infl => exact execInfl_leaves h hn
  | thdr => exact execThdr_leaves h hn
  | fhdrV2 => exact execFhdr_leaves (ver := .v2) h hn
  | fhdrV3 => exact execFhdr_leaves (ver := .v3) h hn
  | fhdrV4 => exact execFhdr_leaves (ver := .v4) h hn
  | frameV2 => exact execFrame_leaves (ver := .v2) h hn
  | frameV3 => exact execFrame_leaves (ver := .v3) h hn
  | frameV4 => exact execFrame_leaves (ver := .v4) h hn
  | parse => exact execParse_leaves h hn

theorem DecodeLeaves.report_mem {s : State} {payload : Bool} {r : Run} (h : DecodeLeaves s payload r) :
    (complete s r).report ∈ headerReports ++ if payload then payloadReports else [] := by
  cases h with
  | stopped _ reason _ hr =>
    have hclean : ((.noError, reason, .noDetail) : Report) ∈ headerReports := by rcases hr with rfl | rfl <;> decide
    exact List.mem_append_left _ hclean
  | failed _ e d _ he =>
    rcases he with ⟨rfl, rfl⟩ | ⟨rfl, rfl, hd⟩
    · exact List.mem_append_left _ (by decide : ((.truncated, .truncated, .shortFrameHeader) : Report) ∈ headerReports)
    · have hcorrupt : ((.corruptFrame, .corrupt, d) : Report) ∈ payloadReports :=
        .tail _ (List.mem_map.mpr ⟨d, hd, rfl⟩)
      exact List.mem_append_right _ hcorrupt
  | full _ _ hd =>
    rcases hd with rfl | ⟨rfl, rfl⟩
    · exact List.mem_append_left _ (by decide : ((.capacity, .capacity, .descFull) : Report) ∈ headerReports)
    · exact List.mem_append_right _ (.head _)
  | stored => exact List.mem_append_left _ (.head _)

theorem ParseLeaves.report_mem {s : State} {r : Run} (h : ParseLeaves s r) :
    (complete s r).report ∈ unstopped parseEarlyErrors ++ loopReports := by
  rw [report_complete]
  cases h with
  | early _ hstop herr => exact List.mem_append_left _ (hstop ▸ mem_unstopped herr)
  | enumerated _ _ _ _ _ _ _ _ _ hend =>
    refine List.mem_append_right _ ?_
    rcases hend with ⟨herr, ⟨hstop, hd, -⟩ | ⟨hstop, hd⟩ | ⟨hstop, hd⟩ | ⟨hstop, hd⟩⟩ | ⟨herr, hstop, hd | hd⟩ <;>
      simp [loopReports, herr, hstop, hd]

/-- Every ending of a command is in its table. -/
theorem CommandLeaves.report_mem {i : Instr} {s : State} {r : Run} (h : CommandLeaves s i r) :
    (complete s r).report ∈ readyReports i := by
  cases i with
  | ssdec => cases h; exact .head _
  | resync =>
    cases h with
    | stored => exact .head _
    | full => exact .tail _ (.head _)
  | infl =>
    cases h with
    | stored => exact .head _
    | failed _ d hd =>
      have hfailed : ((.corruptFrame, .noStop, d) : Report) ∈ readyReports .infl := by
        rcases hd with rfl | rfl <;> decide
      exact hfailed
    | full => exact (by decide : ((.capacity, .noStop, .dstFull) : Report) ∈ readyReports .infl)
  | thdr =>
    cases h with
    | decoded => exact .head _
    | failed _ _ _ _ _ he => exact .tail _ (mem_unstopped he)
  | fhdrV2 | fhdrV3 | fhdrV4 | frameV2 | frameV3 | frameV4 => exact DecodeLeaves.report_mem h
  | parse => exact ParseLeaves.report_mem h

/-- What a command reports is in its table, from every state. -/
theorem report_mem_reportsOf {i : Instr} {s t : State} (h : exec i s = .next t) : t.report ∈ reportsOf i := by
  cases hr : rangeError (memSize s) s.opr (rangesUsed i) with
  | some q =>
    rw [exec_rangeError hr] at h
    cases h
    exact List.mem_append_left _ (mem_unstopped (rangeError_mem_of_uses hr))
  | none =>
    obtain ⟨r, rfl, hleaves⟩ := (ready_of_rangeError hr).exec_leaves h
    exact List.mem_append_right _ hleaves.report_mem

/-! ## Errors (R350) -/

/-- Settles O56: the errors of each command's table. -/
theorem errorsByCommand : Obligations.ErrorsByCommand := by
  refine ⟨by decide, fun i s t h => ?_⟩
  have hmem := report_mem_reportsOf h
  cases i with
  | ssdec => exact (by decide : ∀ q ∈ reportsOf .ssdec, errNum q.1 ∈ [0]) _ hmem
  | resync => exact (by decide : ∀ q ∈ reportsOf .resync, errNum q.1 ∈ [0, 6, 7, 8]) _ hmem
  | infl => exact (by decide : ∀ q ∈ reportsOf .infl, errNum q.1 ∈ [0, 4, 6, 7, 8]) _ hmem
  | thdr => exact (by decide : ∀ q ∈ reportsOf .thdr, errNum q.1 ∈ [0, 1, 2, 3, 5, 7]) _ hmem
  | fhdrV2 | fhdrV3 | fhdrV4 => exact (by decide : ∀ q ∈ reportsOf .fhdrV2, errNum q.1 ∈ [0, 5, 6, 7, 8]) _ hmem
  | frameV2 | frameV3 | frameV4 =>
    exact (by decide : ∀ q ∈ reportsOf .frameV2, errNum q.1 ∈ [0, 4, 5, 6, 7, 8]) _ hmem
  | parse => exact (by decide : ∀ q ∈ reportsOf .parse, errNum q.1 ∈ [0, 1, 2, 3, 5, 6, 7, 8]) _ hmem

/-! ## Stop reasons (R356) -/

/-- FHDR and FRAME stop with FRAME exactly when they made a descriptor (R260, R280). -/
theorem DecodeLeaves.stop_eq_frame_iff {s : State} {payload : Bool} {r : Run} (h : DecodeLeaves s payload r) :
    r.stop = .frame ↔ r.res.res1 = 1 := by
  cases h with
  | stopped _ _ _ hr => rcases hr with rfl | rfl <;> simp [ResultRegs.zero]
  | failed _ e => cases e <;> simp [failStop, ResultRegs.zero]
  | full => simp [ResultRegs.zero]
  | stored => simp

/-- The stop reason of FHDR and FRAME other than FRAME, END and PADDING names their error (R356). -/
theorem stop_iff_err_of_mem {i : Instr} {v : FrameVer} (hi : i = fhdrOf v ∨ i = frameOf v) :
    ∀ q ∈ reportsOf i, (q.2.1 = .truncated ↔ q.1 = .truncated) ∧ (q.2.1 = .corrupt ↔ q.1 = .corruptFrame)
      ∧ (q.2.1 = .capacity ↔ q.1 = .capacity) ∧ (q.2.1 = .noStop ↔ q.1 = .range ∨ q.1 = .overlap) := by
  rcases hi with rfl | rfl <;> cases v <;> decide

/-- Settles O57: the stop reasons of each command's table; that FRAME comes with a descriptor, from the endings. -/
theorem stopReasonsByCommand : Obligations.StopReasonsByCommand := by
  refine ⟨by decide, fun i s t h => ?_⟩
  have hmem := report_mem_reportsOf h
  refine ⟨?_, ?_, ?_⟩
  · have hplain : ∀ i, i = .ssdec ∨ i = .resync ∨ i = .infl ∨ i = .thdr → ∀ q ∈ reportsOf i, q.2.1 = .noStop := by
      rintro i (rfl | rfl | rfl | rfl) <;> decide
    exact fun hi => hplain i hi _ hmem
  · rintro ⟨v, hi⟩
    refine ⟨?_, stop_iff_err_of_mem hi _ hmem⟩
    rcases exec_leaves h with ⟨e, d, -, rfl⟩ | ⟨r, rfl, hleaves⟩
    · exact ⟨nofun, nofun⟩
    · rcases hi with rfl | rfl
      · exact (commandLeaves_fhdrOf hleaves).stop_eq_frame_iff
      · exact (commandLeaves_frameOf hleaves).stop_eq_frame_iff
  · rintro rfl
    exact (by decide : ∀ q ∈ reportsOf .parse,
      (q.1 = .noError → q.2.1 ∈ [StopReason.regionEnd, .padding, .corrupt, .truncated])
        ∧ (q.1 ≠ .noError → q.2.1 ∈ [StopReason.noStop, .capacity])) _ hmem

/-! ## Details (R352) and the error registers (R38, R39) -/

/-- The numbers of the details in an error's row of R352. -/
def detailRow : ErrCode → List Nat
  | .noError => []
  | .notATag => [1]
  | .invalidVersion => [2]
  | .corruptHeader => [3, 4]
  | .truncated => [5, 6, 7, 8]
  | .corruptFrame => [9, 10, 11, 12, 13, 14, 15]
  | .capacity => [16, 17, 18]
  | .illegalCmd => [19, 20, 21]
  | .range => [22, 23, 24, 25]
  | .overlap => [26]

/-- Every error of a command's table has a detail of its row. -/
theorem detail_mem_row (i : Instr) : ∀ q ∈ reportsOf i, q.1 ≠ .noError → detailNum q.2.2 ∈ detailRow q.1 := by
  cases i <;> decide

/-- Without an error only a recovery of PARSE has a detail (R323). -/
theorem detail_of_success (i : Instr) : ∀ q ∈ reportsOf i, q.1 = .noError →
    if i = .parse ∧ (q.2.1 = .corrupt ∨ q.2.1 = .truncated) then
      detailNum q.2.2 ∈ [8, 9, 10, 11, 12, 13, 14, 15]
    else q.2.2 = .noDetail := by
  cases i <;> decide

/-- The frame loop records a place at a padding stop and at a recovery, and none at END (R323). -/
theorem LoopEnds.errRegs_zero {r : Run} (h : LoopEnds r) (hstop : r.stop ∈ [StopReason.noStop, .frame, .regionEnd]) :
    r.res.errOff = 0 ∧ r.res.errId = 0 ∧ r.res.region = false := by
  rcases h with ⟨-, -, hzero⟩ | ⟨hother, -⟩ | ⟨hother, -⟩ | ⟨hother, -⟩
  · exact hzero
  all_goals simp [hother] at hstop

/-- A command that ends without an error, and neither at padding nor by a recovery, records no place of one (R38). -/
theorem CommandLeaves.errRegs_zero {i : Instr} {s : State} {r : Run} (h : CommandLeaves s i r)
    (herr : r.err = .noError) (hstop : r.stop ∈ [StopReason.noStop, .frame, .regionEnd]) :
    r.res.errOff = 0 ∧ r.res.errId = 0 ∧ r.res.region = false := by
  have hearly : ∀ q ∈ parseEarlyErrors, q.1 ≠ .noError := by decide
  have hfail : ∀ e, failErr e ≠ .noError := by rintro ⟨⟩ <;> decide
  cases i with
  | ssdec | resync | infl => cases h <;> exact ⟨rfl, rfl, rfl⟩
  | thdr =>
    cases h with
    | decoded => exact ⟨rfl, rfl, rfl⟩
    | failed _ _ _ _ _ he => exact absurd herr (headerErrors_ne_noError he)
  | fhdrV2 | fhdrV3 | fhdrV4 | frameV2 | frameV3 | frameV4 =>
    cases h with
    | stopped | full | stored => exact ⟨rfl, rfl, rfl⟩
    | failed _ e => exact absurd herr (hfail e)
  | parse =>
    cases h with
    | early _ _ he => exact absurd herr (hearly _ he)
    | enumerated _ _ _ _ _ _ _ _ _ hend =>
      rcases hend with ⟨-, hend⟩ | ⟨hfull, -⟩
      · exact hend.errRegs_zero hstop
      · simp [hfull] at herr

/-- Settles O58: the details of each command's table; the error registers, from the endings. -/
theorem detailsByError : Obligations.DetailsByError := by
  refine ⟨by decide, fun i s t h => ?_⟩
  have hmem := report_mem_reportsOf h
  refine ⟨detail_mem_row i _ hmem, detail_of_success i _ hmem, ?_⟩
  rcases exec_leaves h with ⟨e, d, -, rfl⟩ | ⟨r, rfl, hleaves⟩
  · exact fun _ _ => ⟨rfl, rfl, rfl⟩
  · exact hleaves.errRegs_zero

end Sys2Proof.Machine
end

section
/-! The two resets (R390 to R392), what a host's writes and a running command leave alone (R405, R407), the host duties
(R406), and the engine's turn with and without a pending command (R400 to R402). -/

namespace Sys2Proof.Machine

open Sys2Proof (Word Byte Instr)

/-! ## The engine's turn (R400 to R402) -/

/-- Settles O7: every command ends in a completion, which keeps the fields named. -/
theorem everyCommandCompletes : Obligations.EveryCommandCompletes := by
  intro i s
  obtain ⟨r, hr⟩ := exec_completes i s
  exact ⟨complete s r, hr, rfl, rfl, rfl, rfl, rfl, rfl, rfl, rfl, rfl⟩

theorem engineMove_pending {s : State} {i : Instr} (hbusy : s.status.busy = true) (hcmd : decode s.cmd = .ok i) :
    engineMove s = exec i s := (if_pos hbusy).trans (engineStep_ok hcmd)

theorem engineMove_idle {s : State} (hidle : s.status.busy = false) : engineMove s = .next s := by
  simp [engineMove, hidle]

/-- With nothing left on the agenda the engine takes its turn (R400). -/
theorem step_nil {s : State} (h : s.agenda = []) : step s = engineMove s := by simp [step, h]

/-- A fetched command is latched as a CMD write latches it (R34, R110). -/
theorem withFetchWord_cmd (s : State) (i : Instr) : (s.withFetchWord 32 (encode i).toNat).cmd = encode i := by
  show BitVec.ofNat 32 ((encode i).toNat % 2 ^ 32) = encode i
  rw [Nat.mod_eq_of_lt (encode i).isLt, BitVec.ofNat_toNat, BitVec.setWidth_eq]

/-- Settles O4: in each case the step is the engine's move with a command pending. -/
theorem stepRunsTheDecodedCommand : Obligations.StepRunsTheDecodedCommand := by
  refine ⟨fun s i hbusy hcmd => ⟨fun h => ?_, fun rest h => ?_⟩, fun s i => ?_⟩
  · rw [step_nil h, engineMove_pending hbusy hcmd]
  · rw [step_cons h]
    exact engineMove_pending (s := { s with agenda := rest }) hbusy hcmd
  · have hcmd : decode (s.withFetchWord 32 (encode i).toNat).cmd = .ok i := by
      rw [withFetchWord_cmd, decode_encode]
    exact (step_nil rfl).trans (engineMove_pending rfl hcmd)

/-- Settles O5: in both cases the step is the engine's move with nothing pending. -/
theorem idleEngineDoesNothing : Obligations.IdleEngineDoesNothing := by
  refine fun s hidle => ⟨fun h => ?_, fun rest h => ?_⟩
  · rw [step_nil h, engineMove_idle hidle]
  · rw [step_cons h]
    exact engineMove_idle (s := { s with agenda := rest }) hidle

/-! ## What a register write and a running command leave alone (R405, R407) -/

/-- Where a host's register write can lead: a soft reset; an accepted command; new values of IE, DONE and WIGN, and of
the operands only where nothing runs. -/
inductive WriteLeads (s : State) : State → Prop
  | reset (bit0 : Bool) : WriteLeads s (softReset bit0 s)
  | accepted (w : Word) (hidle : s.status.busy = false) : WriteLeads s (acceptCommand w s)
  | fields (ie done wign : Bool) (opr : OperandRegs) (hopr : s.status.busy = true → opr = s.opr) : WriteLeads s
      { s with ie := ie, status := { s.status with done := done, wign := wign }, opr := opr }

theorem writeReg_leads (r : RegName) (v : Word) (s : State) : WriteLeads s (writeReg r v s) := by
  unfold writeReg
  split
  · exact .fields s.ie s.status.done true s.opr fun _ => rfl
  · rename_i hfree
    split
    · unfold writeCtrl
      split
      · exact .reset _
      · exact .fields _ s.status.done s.status.wign s.opr fun _ => rfl
    · exact .fields s.ie _ _ s.opr fun _ => rfl
    · exact .accepted v (by simpa [ignoredWhileBusy] using hfree)
    · refine .fields s.ie s.status.done s.status.wign _ fun hbusy => ?_
      cases r with
      | arg0 | srcBase | srcLen | dstBase | dstCap | descBase | descCap | payBase | payCap =>
        exact absurd hbusy (by simpa [ignoredWhileBusy] using hfree)
      | _ => rfl

theorem writeOffset_leads (off : Nat) (v : Word) (s : State) : WriteLeads s (writeOffset off v s) := by
  unfold writeOffset
  split
  · exact writeReg_leads _ v s
  · exact .fields s.ie s.status.done s.status.wign s.opr fun _ => rfl

/-- A write that leaves a running command running changes neither CMD nor an operand (R405). -/
theorem WriteLeads.operands_eq {s t : State} (h : WriteLeads s t) (hbusy : s.status.busy = true)
    (hstill : t.status.busy = true) : t.cmd = s.cmd ∧ t.opr = s.opr := by
  cases h with
  | reset => cases hstill
  | accepted w hidle => simp [hidle] at hbusy
  | fields ie done wign opr hopr => exact ⟨rfl, hopr hbusy⟩

/-- No write but a soft reset, after which nothing runs, changes a result or the header group (R31, R407). -/
theorem WriteLeads.results_eq {s t : State} (h : WriteLeads s t) (hstill : t.status.busy = true) :
    t.res = s.res ∧ t.hdr = s.hdr ∧ t.status.err = s.status.err ∧ t.status.stop = s.status.stop := by
  cases h with
  | reset => cases hstill
  | accepted | fields => exact ⟨rfl, rfl, rfl, rfl⟩

/-- MEMLAST is constant (R41). -/
theorem WriteLeads.memLast_eq {s t : State} (h : WriteLeads s t) : t.memLast = s.memLast := by
  cases h with
  | reset bit0 => exact softReset_memLast bit0 s
  | accepted | fields => rfl

/-- From CMD to PAY_CAP every register ignores writes while a command runs (R31, R405). -/
theorem regAt_ignored {off : Nat} (hlo : 0x08 ≤ off) (hhi : off ≤ 0x2C) :
    ∃ r, regAt off = some r ∧ ignoredWhileBusy r = true := by
  by_cases hcmd : off < 0x0C
  · refine ⟨.cmd, ?_, rfl⟩
    rw [regAt, show off / 4 = 2 by omega]
    rfl
  · have hall : ∀ r ∈ operandNames, ignoredWhileBusy r = true := by decide
    obtain ⟨r, hmem, hr⟩ := regAt_operand (by omega) hhi
    exact ⟨r, hr, hall r hmem⟩

/-- A CTRL write takes effect whether or not a command runs (R32, R405). -/
theorem hostWriteReg_ctrl (v : Word) (s : State) : hostWriteReg 0x000 v s = .next (writeCtrl v s) := by
  rw [hostWriteReg_ok v s (by decide), writeOffset_of_regAt (r := .ctrl) v s (by decide), writeReg_ctrl]

/-- No step after which the command still runs changes CMD or an operand (R405). -/
theorem step_keeps_operands {s t : State} (hbusy : s.status.busy = true) (h : step s = .next t)
    (hstill : t.status.busy = true) : t.cmd = s.cmd ∧ t.opr = s.opr := by
  cases step_leads h with
  | quiet | wroteMem => exact ⟨rfl, rfl⟩
  | poweredOn => cases hstill
  | ran rdata agenda _ _ hrun =>
    obtain ⟨r, rfl⟩ := engineStep_completes hrun
    cases hstill
  | wroteReg off v rest => exact (writeOffset_leads off v { s with agenda := rest }).operands_eq hbusy hstill

/-- Settles O15, register by register and by where the step leads. -/
theorem writesWhileBusy : Obligations.WritesWhileBusy := by
  refine fun s hbusy => ⟨fun off v hok hlo hhi => ?_, fun v => ?_, fun v => ?_, fun off v hok hoff => ?_,
    fun t h hstill => step_keeps_operands hbusy h hstill⟩
  · obtain ⟨r, hr, hign⟩ := regAt_ignored hlo hhi
    rw [hostWriteReg_ok v s hok, writeOffset_of_regAt v s hr, writeReg_ignored v hign hbusy]
  · exact hostWriteReg_ctrl v s
  · rw [hostWriteReg_ok v s (by decide), writeOffset_of_regAt (r := .status) v s (by decide), writeReg_status,
      writeStatus]
  · rw [hostWriteReg_ok v s hok, writeOffset_readOnly v s hoff]

/-- Settles O16, by where the step leads. -/
theorem resultsStandUntilCompletion : Obligations.ResultsStandUntilCompletion := by
  intro s t h
  cases step_leads h with
  | quiet | wroteMem => exact ⟨rfl, fun _ => ⟨rfl, rfl, rfl, rfl⟩⟩
  | poweredOn => exact ⟨rfl, nofun⟩
  | ran rdata agenda _ _ hrun =>
    obtain ⟨r, rfl⟩ := engineStep_completes hrun
    exact ⟨rfl, nofun⟩
  | wroteReg off v rest =>
    have hleads := writeOffset_leads off v { s with agenda := rest }
    exact ⟨hleads.memLast_eq, hleads.results_eq⟩

/-! ## The host duties (R406) -/

theorem engineStep_ne_refused (s : State) (x : Refusal) : engineStep s ≠ .refused x := by
  cases hcmd : decode s.cmd with
  | ok i =>
    obtain ⟨r, hr⟩ := exec_completes i s
    rw [engineStep_ok hcmd, hr]
    nofun
  | error e =>
    rw [engineStep_illegal hcmd]
    nofun

theorem engineMove_ne_refused (s : State) (x : Refusal) : engineMove s ≠ .refused x := by
  unfold engineMove
  split
  · exact engineStep_ne_refused s x
  · nofun

theorem hostWait_ne_refused (rest : List Move) (s : State) (x : Refusal) : hostWait rest s ≠ .refused x := by
  unfold hostWait
  split
  · nofun
  · exact engineMove_ne_refused _ x

theorem hostReadReg_refused_iff {off : Nat} {s : State} {x : Refusal} : hostReadReg off s = .refused x ↔
    ¬(off % 4 = 0 ∧ off < 0x100) ∧ x = .hostRegisterAccess off := by
  rw [← accessOk_iff]
  unfold hostReadReg
  split <;> simp [*, eq_comm (b := x)]

theorem hostWriteReg_refused_iff {off : Nat} {v : Word} {s : State} {x : Refusal} :
    hostWriteReg off v s = .refused x ↔ ¬(off % 4 = 0 ∧ off < 0x100) ∧ x = .hostRegisterAccess off := by
  rw [← accessOk_iff]
  unfold hostWriteReg
  split <;> simp [*, eq_comm (b := x)]

theorem hostReadMem_refused_iff {a : Nat} {s : State} {x : Refusal} :
    hostReadMem a s = .refused x ↔ memSize s ≤ a ∧ x = .hostMemoryAddress a := by
  rw [← Nat.not_lt]
  unfold hostReadMem
  split
  · split
    · simp [*]
    · split <;> simp [*]
  · simp [*, eq_comm (b := x)]

theorem hostWriteMem_refused_iff {a : Nat} {b : Byte} {s : State} {x : Refusal} :
    hostWriteMem a b s = .refused x ↔ (memSize s ≤ a ∧ x = .hostMemoryAddress a)
      ∨ (a < memSize s ∧ s.status.busy = true ∧ inRanges s (runningUses s) a = true ∧ x = .hostWriteWhileBusy a) := by
  rw [← Nat.not_lt]
  unfold hostWriteMem
  split
  · rename_i ha
    split
    · rename_i hz
      obtain ⟨hbusy, huse⟩ := Bool.and_eq_true_iff.mp hz
      simp [ha, hbusy, huse, eq_comm (b := x)]
    · rename_i hfree
      refine ⟨nofun, ?_⟩
      rintro (⟨hout, -⟩ | ⟨-, hbusy, huse, -⟩)
      · exact absurd ha hout
      · exact absurd (Bool.and_eq_true_iff.mpr ⟨hbusy, huse⟩) hfree
  · simp [*, eq_comm (b := x)]

/-- The move goes against a duty of the host (R406), and `x` is the model's name for that. -/
def BreaksDuty (s : State) (m : Move) (x : Refusal) : Prop :=
  (∃ off, (m = .readReg off ∨ ∃ v, m = .writeReg off v) ∧ ¬(off % 4 = 0 ∧ off < 0x100) ∧ x = .hostRegisterAccess off)
    ∨ (∃ a, (m = .readMem a ∨ ∃ b, m = .writeMem a b) ∧ memSize s ≤ a ∧ x = .hostMemoryAddress a)
    ∨ (∃ a b, m = .writeMem a b ∧ a < memSize s ∧ s.status.busy = true
      ∧ inRanges s (runningUses s) a = true ∧ x = .hostWriteWhileBusy a)

/-- What each move is refused for, by the access it makes; `rest` plays no part. -/
theorem takeMove_refused_iff {m : Move} {rest : List Move} {s : State} {x : Refusal} :
    takeMove m rest s = .refused x ↔ BreaksDuty s m x := by
  cases m with
  | engine => simp [takeMove, BreaksDuty, engineMove_ne_refused]
  | readReg off => simp [takeMove, BreaksDuty, hostReadReg_refused_iff]
  | writeReg off v => simp [takeMove, BreaksDuty, hostWriteReg_refused_iff]
  | readMem a => exact hostReadMem_refused_iff.trans (by simp [BreaksDuty, memSize])
  | writeMem a b => exact (hostWriteMem_refused_iff (s := { s with agenda := rest })).trans (by
      simp [BreaksDuty, memSize, inRanges, runningUses])
  | waitDone => simp [takeMove, BreaksDuty, hostWait_ne_refused]
  | powerOn => simp [takeMove, BreaksDuty]

theorem step_refused_iff {s : State} {x : Refusal} :
    step s = .refused x ↔ ∃ m rest, s.agenda = m :: rest ∧ BreaksDuty s m x := by
  cases hag : s.agenda with
  | nil => simp [step_nil hag, engineMove_ne_refused]
  | cons m rest => simp [step_cons hag, takeMove_refused_iff]

theorem inRanges_iff {s : State} {xs : List RangeName} {a : Nat} : inRanges s xs a = true ↔
    a < memSize s ∧ ∃ x ∈ xs, (spanOf s.opr x).base ≤ a ∧ a < (spanOf s.opr x).base + (spanOf s.opr x).len := by
  simp [inRanges, spanHas]

theorem runningRanges_ok {s : State} {i : Instr} (h : decode s.cmd = .ok i) :
    runningUses s = rangesUsed i ∧ runningWrites s = rangesWritten i := by simp [runningUses, runningWrites, h]

theorem runningRanges_illegal {s : State} (h : ∀ i, decode s.cmd ≠ .ok i) :
    runningUses s = [] ∧ runningWrites s = [] := by
  cases hcmd : decode s.cmd with
  | ok i => exact absurd hcmd (h i)
  | error e => simp [runningUses, runningWrites, hcmd]

/-- Settles O22: the ranges of the running command by its word, the refusals move by move. -/
theorem onlyHostDutiesAreRefused : Obligations.OnlyHostDutiesAreRefused :=
  ⟨fun _ => ⟨rfl, fun _ => runningRanges_ok, runningRanges_illegal, fun _ _ => inRanges_iff⟩,
    fun _ _ => step_refused_iff⟩

/-! ## The bytes an aborted command leaves (R391)

The abort draws address after address, so what is said of it composes: `Drawn` by single draws. -/

/-- Memory `m` at draw counter `k` comes from memory `m₀` at counter `k₀` by drawing the bytes of `A`: each holds a
draw made in between and shared with no other byte, and no other byte changed. -/
structure Drawn (m₀ : Memory) (k₀ : Nat) (A : Set Nat) (m : Memory) (k : Nat) : Prop where
  counter_le : k₀ ≤ k
  other : ∀ a ∉ A, memGet m a = memGet m₀ a
  drawn : ∃ f : Nat → Nat,
    (∀ a ∈ A, k₀ ≤ f a ∧ f a < k ∧ memGet m a = some (Config.freeByte (f a))) ∧ Set.InjOn f A

theorem Drawn.congr {m₀ m : Memory} {k₀ k : Nat} {A B : Set Nat} (h : Drawn m₀ k₀ A m k)
    (hAB : ∀ a, a ∈ A ↔ a ∈ B) : Drawn m₀ k₀ B m k := Set.ext hAB ▸ h

theorem Drawn.none (m : Memory) (k : Nat) : Drawn m k ∅ m k :=
  ⟨Nat.le_refl k, fun _ _ => rfl, id, nofun, Set.injOn_empty id⟩

theorem Drawn.one (m : Memory) (k a : Nat) : Drawn m k {a} (memSet m a (Config.freeByte k)) (k + 1) := by
  refine ⟨Nat.le_succ k, fun a' hne => memGet_memSet_other m _ hne, fun _ => k, ?_, Set.injOn_singleton _ a⟩
  rintro _ rfl
  exact ⟨Nat.le_refl k, Nat.lt_succ_self k, memGet_memSet_self m _ _⟩

/-- One draw after another: a byte drawn twice holds the later draw. -/
theorem Drawn.trans {m₀ m₁ m₂ : Memory} {k₀ k₁ k₂ : Nat} {A B : Set Nat} (h : Drawn m₀ k₀ A m₁ k₁)
    (h' : Drawn m₁ k₁ B m₂ k₂) : Drawn m₀ k₀ (A ∪ B) m₂ k₂ := by
  classical
  obtain ⟨hle, hother, f, hf, hinj⟩ := h
  obtain ⟨hle', hother', g, hg, hinj'⟩ := h'
  refine ⟨hle.trans hle', fun a ha => ?_, fun a => if a ∈ B then g a else f a, fun a ha => ?_, fun a ha b hb hab => ?_⟩
  · obtain ⟨haA, haB⟩ := not_or.mp ha
    rw [hother' a haB, hother a haA]
  · by_cases haB : a ∈ B
    · obtain ⟨hlo, hhi, hget⟩ := hg a haB
      simp only [if_pos haB]
      exact ⟨hle.trans hlo, hhi, hget⟩
    · obtain ⟨hlo, hhi, hget⟩ := hf a (ha.resolve_right haB)
      simp only [if_neg haB, hother' a haB]
      exact ⟨hlo, hhi.trans_le hle', hget⟩
  · have hapart : ∀ {a b}, a ∈ A → b ∈ B → f a ≠ g b := fun ha hb =>
      ((hf _ ha).2.1.trans_le (hg _ hb).1).ne
    by_cases haB : a ∈ B <;> by_cases hbB : b ∈ B <;> simp only [haB, hbB, if_true, if_false] at hab
    · exact hinj' haB hbB hab
    · exact absurd hab.symm (hapart (hb.resolve_right hbB) haB)
    · exact absurd hab (hapart (ha.resolve_right haB) hbB)
    · exact hinj (ha.resolve_right haB) (hb.resolve_right hbB) hab

/-- A scramble draws the addresses of its run that memory has. -/
theorem scramble_drawn (ms a n : Nat) (m : Memory) (k : Nat) :
    Drawn m k {x | x < ms ∧ a ≤ x ∧ x < a + n} (scramble ms a n m k).1 (scramble ms a n m k).2 := by
  induction n generalizing a m k with
  | zero => exact (Drawn.none m k).congr fun x => iff_of_false (Set.notMem_empty x) fun ⟨_, hlo, hhi⟩ => by omega
  | succ n ih =>
    unfold scramble
    split
    · exact ((Drawn.one m k a).trans (ih (a + 1) _ _)).congr fun x => by
        simp only [Set.mem_union, Set.mem_singleton_iff, Set.mem_ofPred_eq]
        omega
    · exact (Drawn.none m k).congr fun x => iff_of_false (Set.notMem_empty x) fun ⟨hin, hlo, _⟩ => by omega

theorem scrambleRanges_drawn (ms : Nat) (o : OperandRegs) (xs : List RangeName) (m : Memory) (k : Nat) :
    Drawn m k {a | a < ms ∧ ∃ x ∈ xs, (spanOf o x).base ≤ a ∧ a < (spanOf o x).base + (spanOf o x).len}
      (scrambleRanges ms o xs m k).1 (scrambleRanges ms o xs m k).2 := by
  induction xs generalizing m k with
  | nil => exact (Drawn.none m k).congr fun a => by simp
  | cons x xs ih =>
    exact ((scramble_drawn ms (spanOf o x).base (spanOf o x).len m k).trans (ih _ _)).congr fun a => by
      simp [and_or_left]

theorem abortRunning_idle {s : State} (h : s.status.busy = false) : abortRunning s = s := by simp [abortRunning, h]

/-- The abort draws exactly the bytes of the ranges that the running command writes. -/
theorem abortRunning_drawn {s : State} (h : s.status.busy = true) :
    Drawn s.mem s.draws {a | inRanges s (runningWrites s) a = true} (abortRunning s).mem (abortRunning s).draws := by
  simp only [abortRunning, if_pos h, inRanges_iff]
  exact scrambleRanges_drawn (memSize s) s.opr (runningWrites s) s.mem s.draws

/-- A soft reset leaves every byte outside the ranges that an aborted command writes (R391). -/
theorem softReset_memGet {s : State} {a : Nat} (bit0 : Bool)
    (h : s.status.busy = true → inRanges s (runningWrites s) a = false) :
    memGet (softReset bit0 s).mem a = memGet s.mem a := by
  rw [softReset_mem]
  cases hbusy : s.status.busy with
  | false => rw [abortRunning_idle hbusy]
  | true => exact (abortRunning_drawn hbusy).other a (by simp [h hbusy])

/-- Settles O19: the registers by the reset, the bytes by the draws of the abort. -/
theorem softResetAbortsAndClears : Obligations.SoftResetAbortsAndClears := by
  intro s v hsrst
  have hwrite : hostWriteReg 0x000 v s = .next (softReset (v.getLsbD 0) s) := by
    rw [hostWriteReg_ctrl, writeCtrl, if_pos hsrst]
  refine ⟨_, hwrite, rfl, rfl, rfl, rfl, rfl, rfl, softReset_memLast _ s, fun hidle => ?_, fun hbusy =>
    ⟨fun a ha => softReset_memGet _ fun _ => ha, ?_⟩⟩
  · rw [softReset_mem, abortRunning_idle hidle]
  · obtain ⟨f, hf, hinj⟩ := (abortRunning_drawn hbusy).drawn
    exact ⟨f, hf, fun a b ha hb => hinj ha hb⟩

/-! ## The reset table (R392) -/

/-- Every register of `t` but MEMLAST and CTRL.IE holds its reset value, and IE is `bit0` (R391, R392). -/
structure RegistersReset (t : State) (bit0 : Bool) : Prop where
  ie : t.ie = bit0
  status : t.status = Status.zero
  cmd : t.cmd = 0
  opr : t.opr = OperandRegs.zero
  res : t.res = ResultRegs.zero
  hdr : t.hdr = HeaderRegs.zero

theorem RegistersReset.regValue {t : State} {bit0 : Bool} (h : RegistersReset t bit0) (r : RegName) :
    regValue t r = if r = .memLast then t.memLast else if r = .ctrl then BitVec.ofNat 32 bit0.toNat else 0 := by
  obtain ⟨hie, hstatus, hcmd, hopr, hres, hhdr⟩ := h
  cases r with
  | ctrl => exact congrArg (fun b : Bool => BitVec.ofNat 32 b.toNat) hie
  | status => simp [Machine.regValue, statusWord, irq, hstatus, Status.zero, errNum, stopNum]
  | memLast => rfl
  | cmd => exact hcmd
  | arg0 | srcBase | srcLen | dstBase | dstCap | descBase | descCap | payBase | payCap =>
    simp only [Machine.regValue, hopr]; rfl
  | res0 | res1 | res2 | res3 | errOff | errId | errInfo => simp only [Machine.regValue, hres]; rfl
  | _ => simp only [Machine.regValue, hhdr]; rfl

/-- With IE reset as well, MEMLAST alone reads other than 0. -/
theorem RegistersReset.regValue_of_ie_false {t : State} (h : RegistersReset t false) (r : RegName) :
    Machine.regValue t r = if r = .memLast then t.memLast else 0 := by
  rw [h.regValue, Bool.toNat_false]
  exact if_congr Iff.rfl rfl (ite_self 0)

theorem registersReset_reset : RegistersReset State.reset false := ⟨rfl, rfl, rfl, rfl, rfl, rfl⟩

theorem registersReset_powerOnReset (s : State) : RegistersReset (powerOnReset s) false :=
  ⟨rfl, rfl, rfl, rfl, rfl, rfl⟩

theorem registersReset_softReset (bit0 : Bool) (s : State) : RegistersReset (softReset bit0 s) bit0 :=
  ⟨rfl, rfl, rfl, rfl, rfl, rfl⟩

/-- Settles O20: the registers after each of the three resets, and the memory of each. -/
theorem resetTable : Obligations.ResetTable := by
  refine ⟨registersReset_reset.regValue_of_ie_false, rfl, rfl, fun _ => rfl, fun off => readOffset_reserved _,
    fun s rest h => ⟨_, step_cons h, ?_, rfl, fun _ => rfl⟩, fun s bit0 => ⟨fun r => ?_, rfl,
      fun off => readOffset_reserved _, fun a => softReset_memGet bit0⟩⟩
  · exact (registersReset_powerOnReset { s with agenda := rest }).regValue_of_ie_false
  · rw [(registersReset_softReset bit0 s).regValue, softReset_memLast]

/-- Settles O60: memory is empty and the registers are reset. -/
theorem resetMeetsInv : Obligations.ResetMeetsInv := inv_of_reset (MemOk.nil _) rfl rfl

end Sys2Proof.Machine
end
